-- ==== Sys2Proof/Word.lean ====
section
/-! DEFINITION. The word types of the block: the 32-bit bus word, which is also a limb of an operand register and a command word. -/

namespace Sys2Proof

/-- A 32-bit word of the host bus: one limb of an operand register (R10, `LIMB = 32`), or the contents of a control register. -/
abbrev Limb := BitVec 32

/-- A command: "one 32-bit word" (R70). -/
abbrev CmdWord := BitVec 32

end Sys2Proof
end

