-- ==== Sys2Proof/Config.lean ====
section
/-! DEFINITION. What an implementation fixes (the open parameters of 00_scope.md section 4) and the free values. -/

namespace Sys2Proof

/-- The open parameters of a run (R8, R11 to R14). The fields are chosen so that every value of the record is a legal choice of the
parameters and every legal choice is a value of the record: no side condition has to be carried. -/
structure Params where
  /-- `W` is `32 * (extraLimbs + 2)` (R8: a multiple of 32, at least 64). -/
  extraLimbs : Nat
  /-- `CW` is `extraChunkBits + 1` (R11: at least 1). -/
  extraChunkBits : Nat
  /-- `HAS_CANCEL` (R12). -/
  hasCancel : Bool
  /-- `ZERO_EXP_FAULTS` (R13). -/
  zeroExpFaults : Bool
  /-- `BASE` is `4 * baseWord` (R14: a multiple of 4). -/
  baseWord : Nat
  /-- Which of several blocks this is (R130, R182): two blocks draw from unrelated streams. DESIGN CHOICE (log 2). Safe. -/
  blockId : Nat
deriving DecidableEq, Repr

/-- `W / 32`, the number of limbs of an operand register (R10). -/
def Params.limbs (p : Params) : Nat := p.extraLimbs + 2

/-- `W`, the operand width in bits (R8). -/
def Params.width (p : Params) : Nat := 32 * p.limbs

/-- `CW`, the width of one chunk in bits (R11). -/
def Params.chunkBits (p : Params) : Nat := p.extraChunkBits + 1

/-- `BASE`, the byte address of the register space (R14). -/
def Params.base (p : Params) : Nat := 4 * p.baseWord

/-- The size of the register space in bytes, `0x1000 + W` (R14, R50). -/
def Params.spaceBytes (p : Params) : Nat := 0x1000 + p.width

/-- The parameters `State.reset` stands at: the spec's defaults `HAS_CANCEL = false` and `ZERO_EXP_FAULTS = false` (R12, R13), its
reference chunk width 32 (R11), and, DESIGN CHOICE (log 2), `W = 64` and `BASE = 0`. Unsafe to rest a claim on: statements speak of
every value of the record. -/
def Params.reference : Params where
  extraLimbs := 0
  extraChunkBits := 31
  hasCancel := false
  zeroExpFaults := false
  baseWord := 0
  blockId := 0

/-- FREE VALUE (log 4): the chunk stream. `Config.chunk block epoch i` is the `i`-th chunk the entropy source gives the block `block`
in the run that follows its reset number `epoch`, before it is cut to `CW` bits. It has no body: every chunk is a draw (R121, IB6),
each reset starts an unrelated stream (R192), and two blocks have unrelated streams (R130). -/
opaque Config.chunk : Nat → Nat → Nat → Nat

/-- FREE VALUE (log 3): `Config.resetLimb block epoch old reg limb` is limb `limb` of operand register `reg` of the block `block` after its
reset number `epoch`, where `old` holds the eight registers as they stood at that reset (no register where nothing stood before). It has no
body: the operand registers after reset are unspecified and a model must not assume zero (R23, R38, IB20), and since it is given the old
contents nothing says that they were kept, and nothing that they were lost (R41, R192, IB21). -/
opaque Config.resetLimb : Nat → Nat → List (List Limb) → Nat → Nat → Limb

/-- What the host does next (R58, R80, R176, R190). -/
inductive Machine.HostEvent where
  /-- `MemRead(addr, size)` -/
  | read (addr size : Nat)
  /-- `MemWrite(addr, size, value)` -/
  | write (addr size : Nat) (value : Limb)
  /-- the platform asserts `reset` (R190) -/
  | reset
  /-- the host lets the engine take one step before its next access (R202) -/
  | engineTurn
  /-- the host polls `STATUS` until `BUSY = 0` (R80 `WAIT`) -/
  | waitIdle
deriving DecidableEq, Repr, Inhabited

/-- FREE VALUE (log 5): event `position` of the unending behaviour of the host of the block `block`. It has no body: the host may do
anything at any time (R176, R202, IB33). -/
opaque Config.hostEvent : Nat → Nat → Machine.HostEvent

end Sys2Proof
end

