-- ==== Sys2Proof/Syntax.lean ====
section
/-! DEFINITION. The commands of the block as syntax, and the fields of a command word. -/

namespace Sys2Proof

/-- The number of an operand register, `x0` to `x7` (R9, R21, R73: "every value 0 to 7 names a register"). -/
abbrev Reg := Fin 8

/-- The eight commands (R74), operands in the order of the assembler: destination first, then the sources. -/
inductive Instr where
  /-- `x[rd] <- x[ra] * x[rb] mod x[rc]` (R92) -/
  | modmul (rd ra rb rc : Reg)
  /-- `x[rd] <- x[ra] * x[rb] * R^(-1) mod x[rc]` (R96) -/
  | montmul (rd ra rb rc : Reg)
  /-- `x[rd] <- x[ra] ^ x[rb] mod x[rc]` (R114) -/
  | modexp (rd ra rb rc : Reg)
  /-- `x[rd] <- R^2 mod x[ra]` (R98) -/
  | montr2 (rd ra : Reg)
  /-- `x[rd] <- random_bits(x[ra])` (R124) -/
  | randbits (rd ra : Reg)
  /-- `x[rd] <- random_between(x[ra], x[rb])` (R128) -/
  | randbtw (rd ra rb : Reg)
  /-- `x[rd] <- is_probable_prime(x[ra], x[rb])` as 0 or 1 (R142) -/
  | mrtest (rd ra rb : Reg)
  /-- `x[rd] <- generate_prime(x[ra], x[rb])` (R159) -/
  | genprime (rd ra rb : Reg)
deriving DecidableEq, Repr

/-- The rows of the opcode table (R74). -/
inductive Mnemonic where
  | modmul | montmul | modexp | montr2 | randbits | randbtw | mrtest | genprime
deriving DecidableEq, Repr

/-- The three formats (R72): Q uses `ra`, `rb`, `rc`; T uses `ra`, `rb`; P uses `ra`. -/
inductive Format where
  | q | t | p
deriving DecidableEq, Repr

/-- The six fields of a command word (R71), before anything is checked. -/
structure Fields where
  op : BitVec 8
  rd : Reg
  ra : Reg
  rb : Reg
  rc : Reg
  z : BitVec 12
deriving DecidableEq, Repr

end Sys2Proof
end

