-- ==== Sys2Proof/WellFormed.lean ====
section
/-! DEFINITION. The must-be-zero checks of a command word's fields (R72, R76). A term of `Instr` carries register numbers below 8 by
its type, so what can be ill-formed is the field record of a word. -/

namespace Sys2Proof

/-- `z` must be zero in every format (R76). -/
def Fields.zClear (x : Fields) : Bool := x.z == 0

/-- `rc` must be zero in formats T and P (R76). -/
def Fields.rcClear (f : Format) (x : Fields) : Bool :=
  match f with
  | .q => true
  | .t => x.rc == 0
  | .p => x.rc == 0

/-- `rb` must be zero in format P (R76). -/
def Fields.rbClear (f : Format) (x : Fields) : Bool :=
  match f with
  | .q => true
  | .t => true
  | .p => x.rb == 0

/-- The fields are well formed for the format: every field the format does not use is zero (R72, R76). -/
def Fields.wellFormed (f : Format) (x : Fields) : Bool :=
  x.zClear && x.rcClear f && x.rbClear f

end Sys2Proof
end

