-- ==== Sys2Proof/Decode.lean ====
section
/-! DEFINITION. The decoder (R75, R79), total on every 32-bit word and rejecting by name, and the encoder (R71, R79). -/

namespace Sys2Proof

/-- The slice `v[hi:lo]` of a non-negative integer (R15): `(v div 2^lo) mod 2^(hi-lo+1)`. -/
def bits (v hi lo : Nat) : Nat := v / 2 ^ lo % 2 ^ (hi - lo + 1)

/-- A register number from a three-bit field (R73). -/
def regOfBits (v : Nat) : Reg := ⟨v % 8, Nat.mod_lt v (by decide)⟩

/-- The fields of a command word (R71). -/
def fieldsOf (w : CmdWord) : Fields where
  op := BitVec.ofNat 8 (bits w.toNat 7 0)
  rd := regOfBits (bits w.toNat 10 8)
  ra := regOfBits (bits w.toNat 13 11)
  rb := regOfBits (bits w.toNat 16 14)
  rc := regOfBits (bits w.toNat 19 17)
  z := BitVec.ofNat 12 (bits w.toNat 31 20)

/-- The word with the given fields: the concatenation of `z`, `rc`, `rb`, `ra`, `rd`, `op` (R71), written as a sum since the fields do
not overlap. -/
def wordOf (x : Fields) : CmdWord :=
  BitVec.ofNat 32 (x.op.toNat + x.rd.val * 2 ^ 8 + x.ra.val * 2 ^ 11 + x.rb.val * 2 ^ 14 + x.rc.val * 2 ^ 17 + x.z.toNat * 2 ^ 20)

/-- The opcode of a row (R74). -/
def Mnemonic.opcode : Mnemonic → BitVec 8
  | .modmul => 0x01
  | .montmul => 0x02
  | .modexp => 0x03
  | .montr2 => 0x04
  | .randbits => 0x10
  | .randbtw => 0x11
  | .mrtest => 0x20
  | .genprime => 0x21

/-- The format of a row (R74). -/
def Mnemonic.format : Mnemonic → Format
  | .modmul => .q
  | .montmul => .q
  | .modexp => .q
  | .montr2 => .p
  | .randbits => .p
  | .randbtw => .t
  | .mrtest => .t
  | .genprime => .t

/-- The mask of a format: the opcode bits and every must-be-zero bit (R72). -/
def Format.mask : Format → CmdWord
  | .q => 0xFFF000FF
  | .t => 0xFFFE00FF
  | .p => 0xFFFFC0FF

/-- The value `w & mask` must have for the row: its opcode, every must-be-zero bit 0 (R74, column "match"). -/
def Mnemonic.pattern (m : Mnemonic) : CmdWord := m.opcode.setWidth 32

/-- Every row of the opcode table, in its order (R74). -/
def Mnemonic.all : List Mnemonic := [.modmul, .montmul, .modexp, .montr2, .randbits, .randbtw, .mrtest, .genprime]

/-- The word matches the row: `w & mask = match` (R75). -/
def Mnemonic.matches (m : Mnemonic) (w : CmdWord) : Bool := (w &&& m.format.mask) == m.pattern

/-- The row with the given opcode, if one is allocated (R74, R75). -/
def Mnemonic.ofOpcode (op : BitVec 8) : Option Mnemonic := Mnemonic.all.find? (fun m => m.opcode == op)

/-- Why a word is no legal command (R75, R76). -/
inductive Illegal where
  /-- the opcode is none of the eight of R74 -/
  | unallocatedOpcode
  /-- bits 31:20 are not zero (R76) -/
  | nonzeroZ
  /-- the format does not use `rc` and it is not zero (R76) -/
  | nonzeroRc
  /-- the format does not use `rb` and it is not zero (R76) -/
  | nonzeroRb
deriving DecidableEq, Repr

/-- The decoder's answer: `Command(...)` or `Illegal` (R79), the latter with its reason. -/
inductive Decoded where
  | command (i : Instr)
  | illegal (why : Illegal)
deriving DecidableEq, Repr

/-- The command of a row with the given fields (R79). -/
def Mnemonic.build (m : Mnemonic) (x : Fields) : Instr :=
  match m with
  | .modmul => .modmul x.rd x.ra x.rb x.rc
  | .montmul => .montmul x.rd x.ra x.rb x.rc
  | .modexp => .modexp x.rd x.ra x.rb x.rc
  | .montr2 => .montr2 x.rd x.ra
  | .randbits => .randbits x.rd x.ra
  | .randbtw => .randbtw x.rd x.ra x.rb
  | .mrtest => .mrtest x.rd x.ra x.rb
  | .genprime => .genprime x.rd x.ra x.rb

/-- Decoding of fields: the opcode picks the row, then the must-be-zero fields are checked (R75, R76). -/
def decodeFields (x : Fields) : Decoded :=
  match Mnemonic.ofOpcode x.op with
  | none => .illegal .unallocatedOpcode
  | some m =>
    if x.zClear then
      if x.rcClear m.format then
        if x.rbClear m.format then .command (m.build x) else .illegal .nonzeroRb
      else .illegal .nonzeroRc
    else .illegal .nonzeroZ

/-- The decoder (R79), total on all 32-bit words. -/
def decode (w : CmdWord) : Decoded := decodeFields (fieldsOf w)

/-- The row of a command. -/
def Instr.mnemonic : Instr → Mnemonic
  | .modmul .. => .modmul
  | .montmul .. => .montmul
  | .modexp .. => .modexp
  | .montr2 .. => .montr2
  | .randbits .. => .randbits
  | .randbtw .. => .randbtw
  | .mrtest .. => .mrtest
  | .genprime .. => .genprime

/-- The destination field of a command (R71). -/
def Instr.rd : Instr → Reg
  | .modmul rd _ _ _ => rd
  | .montmul rd _ _ _ => rd
  | .modexp rd _ _ _ => rd
  | .montr2 rd _ => rd
  | .randbits rd _ => rd
  | .randbtw rd _ _ => rd
  | .mrtest rd _ _ => rd
  | .genprime rd _ _ => rd

/-- The first source field, which every format has (R33, R72). -/
def Instr.ra : Instr → Reg
  | .modmul _ ra _ _ => ra
  | .montmul _ ra _ _ => ra
  | .modexp _ ra _ _ => ra
  | .montr2 _ ra => ra
  | .randbits _ ra => ra
  | .randbtw _ ra _ => ra
  | .mrtest _ ra _ => ra
  | .genprime _ ra _ => ra

/-- The second source field, which formats Q and T have (R33, R72). -/
def Instr.rb : Instr → Option Reg
  | .modmul _ _ rb _ => some rb
  | .montmul _ _ rb _ => some rb
  | .modexp _ _ rb _ => some rb
  | .montr2 _ _ => none
  | .randbits _ _ => none
  | .randbtw _ _ rb => some rb
  | .mrtest _ _ rb => some rb
  | .genprime _ _ rb => some rb

/-- The third source field, which format Q has (R33, R72). -/
def Instr.rc : Instr → Option Reg
  | .modmul _ _ _ rc => some rc
  | .montmul _ _ _ rc => some rc
  | .modexp _ _ _ rc => some rc
  | .montr2 _ _ => none
  | .randbits _ _ => none
  | .randbtw _ _ _ => none
  | .mrtest _ _ _ => none
  | .genprime _ _ _ => none

/-- The fields of a command, "with unused fields given as 0" (R79). -/
def Instr.fields (i : Instr) : Fields where
  op := i.mnemonic.opcode
  rd := i.rd
  ra := i.ra
  rb := i.rb.getD 0
  rc := i.rc.getD 0
  z := 0

/-- A command is well formed: its fields are, for its format (R76). -/
def Instr.wellFormed (i : Instr) : Bool := i.fields.wellFormed i.mnemonic.format

/-- The encoder (R79): `op | rd << 8 | ra << 11 | rb << 14 | rc << 17`. -/
def encode (i : Instr) : CmdWord := wordOf i.fields

/-- The command read from the low `nbits` bits of `w`, the bits above them zero; a command has 32 bits (R70). -/
def decodeTableWord (nbits w : Nat) : Option Instr :=
  match decode (BitVec.ofNat 32 (w % 2 ^ nbits)) with
  | .command i => some i
  | .illegal _ => none

end Sys2Proof
end

