-- ==== Sys2Proof/Machine/State.lean ====
section
/-! DEFINITION. The state of one block (R20), the reasons a step can stop, and the state after reset (R38). -/

namespace Sys2Proof.Machine

/-- The eleven faults (R166), by their sub-kind names. -/
inductive FaultCause where
  | illegalCommand
  | widthExceeded
  | cancelled
  | primeBitsTooSmall
  | invalidRounds
  | negativeExponent
  | zeroExponent
  | zeroModulus
  | evenModulus
  | operandOutOfRange
  | emptyRange
deriving DecidableEq, Repr

/-- The error kinds (R167). -/
inductive ErrorKind where
  | noError
  | configError
  | mathError
  | rangeError
  | encodeError
  | blockError
deriving DecidableEq, Repr

/-- The two results of a pure function that can fail: `ok v` or `err F` (R15). -/
inductive Res (α : Type) where
  | ok (v : α)
  | err (f : FaultCause)
deriving DecidableEq, Repr

/-- An operand register: its `W/32` limbs, limb 0 (least significant) first (R54). -/
abbrev Operand := List Limb

/-- The loop variables of the Montgomery multiplier (R36, R99): the bit index and the accumulator `S`. -/
structure MontVars where
  i : Nat
  acc : Nat
deriving DecidableEq, Repr

/-- The loop variables of the exponentiation (R36, R115). -/
structure ExpVars where
  result : Nat
  base : Nat
  exp : Nat
deriving DecidableEq, Repr

/-- The states of the Miller-Rabin machine with its loop variables (R145). -/
inductive MrState where
  /-- `MR_CHECK`, the entry state -/
  | check
  /-- `MR_TRIAL` at table index `i` -/
  | trial (i : Nat)
  /-- `MR_DECOMP` -/
  | decomp (d s : Nat)
  /-- `MR_ROUND` before round `r` -/
  | round (d s r : Nat)
  /-- `MR_DRAW` in round `r` -/
  | draw (d s r : Nat)
  /-- `MR_EXP` with witness `a` -/
  | exp (d s r a : Nat)
  /-- `MR_SQR` with the current `x` and squaring index `j` -/
  | sqr (d s r a x j : Nat)
  /-- `MR_RET(v)` -/
  | ret (v : Bool)
deriving DecidableEq, Repr

/-- The states of the prime generator (R162). -/
inductive PgState where
  /-- `PG_CHECK`, the entry state -/
  | check
  /-- `PG_HEAD`, the loop head at which `CTRL.CANCEL` is sampled -/
  | head
  /-- `PG_DRAW` -/
  | draw
  /-- `PG_TEST`: the Miller-Rabin machine runs on candidate `c` -/
  | test (c : Nat) (m : MrState)
  /-- `PG_RET` with the candidate that passed -/
  | ret (c : Nat)
deriving DecidableEq, Repr

/-- The running unit's loop variables `μ` (R20, R36). -/
inductive Mu where
  /-- no iteration done yet; the only state of the commands that have no loop variables -/
  | start
  | mont (v : MontVars)
  | exp (v : ExpVars)
  | mr (m : MrState)
  | pg (g : PgState)
deriving DecidableEq, Repr

/-- `Run(cmd, A, B, C, μ)` (R20, R33): the latched command word, the latched operands and the loop variables. -/
structure Running where
  word : CmdWord
  a : Nat
  b : Nat
  c : Nat
  mu : Mu
deriving DecidableEq, Repr

/-- The engine state `eng` (R20, R33). -/
inductive Engine where
  | idle
  | run (r : Running)
deriving DecidableEq, Repr

/-- The stored bits of `STATUS` (R27). `BUSY` is not stored: it is 1 exactly while the engine is not idle (R27, R39 item 1). -/
structure Status where
  done : Bool
  err : Bool
  drop : Bool
deriving DecidableEq, Repr

/-- The two fields of `CAUSE` (R30). -/
structure Cause where
  code : BitVec 8
  kind : BitVec 4
deriving DecidableEq, Repr

/-- The field of `CTRL` (R31). -/
structure Ctrl where
  cancel : Bool
deriving DecidableEq, Repr

/-- MODEL's own (log 5): what the host does once its list `inbox` is exhausted. A hung command can be accessed infinitely often (R202), so
the host's behaviour need not end. Nothing makes it fair to the engine (log 5). -/
inductive HostTail where
  /-- nothing: only the engine moves -/
  | silent
  /-- these events over and over -/
  | again (events : List HostEvent)
  /-- anything, for ever: the free events `Config.hostEvent` from this position on -/
  | free (position : Nat)
deriving DecidableEq, Repr

/-- MODEL's own (log 4): the chunk stream a test gives: its first chunks, then, if `cycle` is not empty, that list over and over ("inject a
seeded source in tests", R121). Where it gives no chunk the chunk is the free value `Config.chunk`. -/
structure Injected where
  first : List Nat
  cycle : List Nat
deriving DecidableEq, Repr

/-- The state of one block and of the agents around it. `params` never changes in a run; `epoch`, `injected`, `inbox`, `tail` and
`outbox` are the model's own fields (logs 2 to 5); everything else is the tuple of R20. -/
structure State where
  /-- the open parameters of the run (R8, R11 to R14; log 2) -/
  params : Params
  /-- `x0` to `x7` (R21) -/
  regs : Vector Operand 8
  /-- `STATUS` (R27) -/
  status : Status
  /-- `CAUSE` (R30) -/
  cause : Cause
  /-- `CTRL` (R31) -/
  ctrl : Ctrl
  /-- `eng` (R33) -/
  eng : Engine
  /-- the cursor into the chunk stream (R35) -/
  rngpos : Nat
  /-- MODEL's own: the number of the reset this run follows; keys the free values (logs 3, 4) -/
  epoch : Nat
  /-- MODEL's own: the chunks of the stream that a test gives (R121; log 4) -/
  injected : Injected
  /-- MODEL's own: what the host does next, oldest first (log 5) -/
  inbox : List HostEvent
  /-- MODEL's own: what the host does once `inbox` is exhausted (R202; log 5) -/
  tail : HostTail
  /-- MODEL's own: what the host's reads returned, oldest first (log 5) -/
  outbox : List Limb
deriving DecidableEq, Repr

/-- Why a step stops with a fault. The faults of the SPEC are no stops: they are next states (`raise`, R173). -/
inductive Fault where
  /-- Raised by a command's meaning when it is asked to run on an idle engine. `step` never does that. Safe. -/
  | engineIdle
deriving DecidableEq, Repr

/-- Why a step is refused. -/
inductive Refusal where
  /-- Raised by `exec` for an instruction without a meaning; no arm does. Safe. -/
  | notModelled (mnemonic : String)
  /-- Raised by a host access that is not 32 bits wide or not aligned: "not defined by this spec: the model refuses it" (R56). Safe. -/
  | accessUndefined
  /-- Raised by a host access outside the register space, which is left to the platform (R53, IB23). Safe. -/
  | accessOutside
deriving DecidableEq, Repr

/-- An operand register after the reset number `epoch` of registers that held `old`: unspecified, each limb a free value (R23, R38), which
may or may not be what `old` holds (R41, R192; log 3). -/
def resetOperand (p : Params) (epoch : Nat) (old : List Operand) (reg : Nat) : Operand :=
  (List.range p.limbs).map (fun j => Config.resetLimb p.blockId epoch old reg j)

/-- The state after the reset number `epoch` of a block with parameters `p` whose operand registers held `old` (R38, R190): control
registers 0, engine idle, cursor 0, operand registers unspecified, an unrelated chunk stream. -/
def State.resetAt (p : Params) (epoch : Nat) (old : List Operand) : State where
  params := p
  regs := #v[resetOperand p epoch old 0, resetOperand p epoch old 1, resetOperand p epoch old 2, resetOperand p epoch old 3,
    resetOperand p epoch old 4, resetOperand p epoch old 5, resetOperand p epoch old 6, resetOperand p epoch old 7]
  status := { done := false, err := false, drop := false }
  cause := { code := 0, kind := 0 }
  ctrl := { cancel := false }
  eng := .idle
  rngpos := 0
  epoch := epoch
  injected := { first := [], cycle := [] }
  inbox := []
  tail := .silent
  outbox := []

/-- The machine right after its first reset, with nothing before it (log 3), at the reference parameters (log 2). -/
def State.reset : State := State.resetAt Params.reference 0 []

end Sys2Proof.Machine
end

