-- ==== Sys2Proof/Machine/Operands.lean ====
section
/-! DEFINITION. Operand registers as integers and as limbs (R21, R54), the operands of a command (R33, R73), the chunk stream (R121). -/

namespace Sys2Proof.Machine

/-- The integer an operand register holds: the sum of its limbs times `2^(32 j)` (R54). -/
def limbsValue : Operand → Nat
  | [] => 0
  | l :: rest => l.toNat + 2 ^ 32 * limbsValue rest

/-- The `n` limbs of an integer, least significant first (R54). -/
def limbsOf : Nat → Nat → Operand
  | 0, _ => []
  | n + 1, v => BitVec.ofNat 32 v :: limbsOf n (v / 2 ^ 32)

/-- Limb `j` of an operand register (R54). -/
def limbAt (o : Operand) (j : Nat) : Limb := o.getD j 0

/-- Limb `j` of an operand register replaced (R54). -/
def limbSet (o : Operand) (j : Nat) (v : Limb) : Operand := o.set j v

/-- Byte `k` of a bus word: bits `8k+7 : 8k`, little-endian (R54). -/
def busByte (v : Limb) (k : Nat) : BitVec 8 := BitVec.ofNat 8 (bits v.toNat (8 * k + 7) (8 * k))

/-- The limbs of operand register `i`. -/
def State.operand (s : State) (i : Reg) : Operand := s.regs[i.val]'i.isLt

/-- `x[i]`, the value of operand register `i` (R15, R21). -/
def State.x (s : State) (i : Reg) : Nat := limbsValue (s.operand i)

/-- Operand register `i` with new limbs. -/
def State.setOperand (s : State) (i : Reg) (o : Operand) : State := { s with regs := s.regs.set i.val o i.isLt }

/-- `A`, the first latched operand of a command (R33: "every format has ra"). -/
def State.operandA (s : State) (i : Instr) : Nat := s.x i.ra

/-- `B`, the second latched operand, for formats Q and T (R33); 0 where the format has none (DESIGN CHOICE, log 6: never read). Safe. -/
def State.operandB (s : State) (i : Instr) : Nat :=
  match i.rb with
  | some r => s.x r
  | none => 0

/-- `C`, the third latched operand, for format Q (R33); 0 where the format has none (DESIGN CHOICE, log 6: never read). Safe. -/
def State.operandC (s : State) (i : Instr) : Nat :=
  match i.rc with
  | some r => s.x r
  | none => 0

/-- The chunk a test gives at position `i` of the stream, if it gives one (log 4). -/
def injectedAt (g : Injected) (i : Nat) : Option Nat :=
  if i < g.first.length then g.first[i]? else g.cycle[(i - g.first.length) % g.cycle.length]?

/-- The chunk stream `ξ` of the run (R121): the injected chunks, and free values where none is given, each cut to `CW` bits. -/
def State.xi (s : State) (i : Nat) : Nat :=
  (match injectedAt s.injected i with
    | some v => v
    | none => Config.chunk s.params.blockId s.epoch i) % 2 ^ s.params.chunkBits

end Sys2Proof.Machine
end

