-- ==== Sys2Proof/Machine/Flags.lean ====
section
/-! DEFINITION. The status bits and control registers: their 32-bit views (R27, R30, R31), the host's writes to them, the fault codes
(R166, R167). The block has no arithmetic flags (R25). -/

namespace Sys2Proof.Machine

/-- `STATUS.BUSY`: 1 exactly while `eng ≠ Idle` (R27, R28). -/
def State.busy (s : State) : Bool :=
  match s.eng with
  | .idle => false
  | .run _ => true

/-- The code of a kind (R167). -/
def ErrorKind.code : ErrorKind → BitVec 4
  | .noError => 0
  | .configError => 1
  | .mathError => 2
  | .rangeError => 3
  | .encodeError => 4
  | .blockError => 5

/-- The kind of a fault (R166, R167). -/
def FaultCause.kind : FaultCause → ErrorKind
  | .illegalCommand => .blockError
  | .widthExceeded => .blockError
  | .cancelled => .blockError
  | .primeBitsTooSmall => .configError
  | .invalidRounds => .configError
  | .negativeExponent => .mathError
  | .zeroExponent => .mathError
  | .zeroModulus => .mathError
  | .evenModulus => .mathError
  | .operandOutOfRange => .rangeError
  | .emptyRange => .rangeError

/-- The code of a fault (R166). -/
def FaultCause.code : FaultCause → BitVec 8
  | .illegalCommand => 0x01
  | .widthExceeded => 0x02
  | .cancelled => 0x03
  | .primeBitsTooSmall => 0x10
  | .invalidRounds => 0x11
  | .negativeExponent => 0x20
  | .zeroExponent => 0x21
  | .zeroModulus => 0x22
  | .evenModulus => 0x23
  | .operandOutOfRange => 0x30
  | .emptyRange => 0x31

/-- What a fault records in `CAUSE`: its code and its kind, and nothing else (R169, R173). -/
def FaultCause.recorded (f : FaultCause) : Cause where
  code := f.code
  kind := f.kind.code

/-- `CAUSE` with no fault recorded (R30). -/
def noCause : Cause where
  code := 0
  kind := 0

/-- `STATUS` as the host reads it (R27). -/
def State.statusWord (s : State) : Limb :=
  BitVec.ofNat 32 (s.busy.toNat + 2 * s.status.done.toNat + 4 * s.status.err.toNat + 8 * s.status.drop.toNat)

/-- `CAUSE` as the host reads it (R30): `KIND << 8 | CODE`. -/
def Cause.word (c : Cause) : Limb := BitVec.ofNat 32 (c.code.toNat + c.kind.toNat * 2 ^ 8)

/-- `CTRL` as the host reads it (R31): `CANCEL` reads 0 when `HAS_CANCEL = false`. -/
def State.ctrlWord (s : State) : Limb := BitVec.ofNat 32 (s.params.hasCancel && s.ctrl.cancel).toNat

/-- The host's write to `STATUS` (R27): write-one-to-clear on bits 1 to 3; clearing `ERR` also clears `CAUSE` (R30). -/
def State.writeStatus (s : State) (v : Limb) : State :=
  { s with
    status := {
      done := s.status.done && !v.getLsbD 1
      err := s.status.err && !v.getLsbD 2
      drop := s.status.drop && !v.getLsbD 3 }
    cause := if v.getLsbD 2 then noCause else s.cause }

/-- The host's write to `CTRL` (R31): with `HAS_CANCEL`, a 1 sets `CANCEL` while `BUSY = 1` and is ignored otherwise, a 0 clears it;
without, the write is ignored. -/
def State.writeCtrl (s : State) (v : Limb) : State :=
  if s.params.hasCancel then
    if v.getLsbD 0 then
      if s.busy then { s with ctrl := { cancel := true } } else s
    else { s with ctrl := { cancel := false } }
  else s

/-- An ignored write: `STATUS.DROP <- 1` and nothing else (R29, R181). -/
def State.markDrop (s : State) : State := { s with status := { s.status with drop := true } }

end Sys2Proof.Machine
end

