-- ==== Sys2Proof/Machine/Ops.lean ====
section
/-! DEFINITION. The shared operations of the engine: taking a fault (R173), completing (R29), accepting and issuing a command (R33),
reset (R190), one step of a running command. -/

namespace Sys2Proof.Machine

/-- TAKING A FAULT (R173), one atomic change: `CAUSE` records it, `ERR <- 1`, the engine is idle, `CANCEL <- 0`. Operand registers,
`DROP` and `rngpos` are unchanged; `DONE` stays as the issue left it. There is no return from it: the host clears `ERR` (R175,
`State.writeStatus`). -/
def State.raise (f : FaultCause) (s : State) : State :=
  { s with
    cause := f.recorded
    status := { s.status with err := true }
    eng := .idle
    ctrl := { cancel := false } }

/-- COMPLETION (R29), one atomic change: `x[rd] <- v`, the engine is idle, `DONE <- 1`, `CANCEL <- 0`. -/
def State.complete (rd : Reg) (v : Nat) (s : State) : State :=
  { s with
    regs := s.regs.set rd.val (limbsOf s.params.limbs v) rd.isLt
    status := { s.status with done := true }
    eng := .idle
    ctrl := { cancel := false } }

/-- The running command goes on with new loop variables (R36); nothing visible changes. -/
def State.goOn (r : Running) (mu : Mu) (s : State) : State := { s with eng := .run { r with mu := mu } }

/-- The cursor after some chunks were drawn (R121). -/
def State.setCursor (c : Nat) (s : State) : State := { s with rngpos := c }

/-- `μ0`, the unit's start state (R33). -/
def startMu : Instr → Mu
  | .modmul .. => .start
  | .montmul .. => .start
  | .modexp .. => .start
  | .montr2 .. => .start
  | .randbits .. => .start
  | .randbtw .. => .start
  | .mrtest .. => .mr .check
  | .genprime .. => .pg .check

/-- Acceptance of a legal command (R33): `DONE <- 0`, all sources are latched at once, the engine runs. -/
def State.accept (w : CmdWord) (i : Instr) (s : State) : State :=
  { s with
    status := { s.status with done := false }
    eng := .run { word := w, a := s.operandA i, b := s.operandB i, c := s.operandC i, mu := startMu i } }

/-- `DONE` cleared, as every write to `CMD` that is not dropped does first (R33). -/
def State.clearDone (s : State) : State := { s with status := { s.status with done := false } }

/-- ISSUE (R33): what a write of the word `w` to `CMD` does. -/
def State.issue (w : CmdWord) (s : State) : State :=
  if s.busy || s.status.err then s.markDrop
  else
    match decode w with
    | .command i => s.accept w i
    | .illegal _ => s.clearDone.raise .illegalCommand

/-- RESET (R190, R192): every piece of the block's state is that of R38, a running command is abandoned, the chunk stream is fresh, and the
operand registers are unspecified, their old contents kept or lost (R41). The host's own program goes on. -/
def State.assertReset (s : State) : State :=
  { State.resetAt s.params (s.epoch + 1) s.regs.toList with inbox := s.inbox, tail := s.tail, outbox := s.outbox }

/-- One step of the engine's running command; on an idle engine there is none to run (`Fault.engineIdle`; `step` never asks). -/
def onRunning (s : State) (f : Running → State) : Host.Outcome State Fault Refusal :=
  match s.eng with
  | .idle => .fault .engineIdle
  | .run r => .next (f r)

/-- The state in which `step` fetches the command of the word `w` next: the word is latched, as acceptance leaves it (R33). A word that
is no legal command is latched with operands 0, so that the step after it is the fault `IllegalCommand`. -/
def placeWord (s : State) (w : CmdWord) : State :=
  match decode w with
  | .command i => { s.accept w i with inbox := [], tail := .silent }
  | .illegal _ =>
    { s.clearDone with
      eng := .run { word := w, a := 0, b := 0, c := 0, mu := .start }
      inbox := []
      tail := .silent }

end Sys2Proof.Machine
end

