-- ==== Sys2Proof/Machine/Bus.lean ====
section
/-! DEFINITION. The register space (R50 to R59): where a host access lands, what a read returns, what a write does. -/

namespace Sys2Proof.Machine

/-- The parts of the register space (R51, R52). -/
inductive Region where
  | cmd
  | status
  | cause
  | ctrl
  | reserved
  | window (i : Reg) (j : Nat)
deriving DecidableEq, Repr

/-- The answer of the address decoder: a part of the register space, or the refusal of an access the spec does not define. -/
inductive Located where
  | found (region : Region)
  | nowhere (r : Refusal)
deriving DecidableEq, Repr

/-- `OPW(i, j)`, the offset of limb `j` of operand register `i` (R52). -/
def opw (p : Params) (i : Reg) (j : Nat) : Nat := 0x1000 + i.val * (p.width / 8) + 4 * j

/-- The part of the register space at an aligned offset inside it (R51, R52). -/
def regionAt (p : Params) (off : Nat) : Region :=
  if off = 0x000 then .cmd
  else if off = 0x004 then .status
  else if off = 0x008 then .cause
  else if off = 0x00C then .ctrl
  else if off < 0x1000 then .reserved
  else .window ⟨(off - 0x1000) / 4 / p.limbs % 8, Nat.mod_lt _ (by decide)⟩ ((off - 0x1000) / 4 % p.limbs)

/-- Where a host access of `size` bytes at byte address `addr` lands (R53, R55, R56): only aligned 32-bit accesses inside the space are
defined; every other access is refused. -/
def locate (p : Params) (addr size : Nat) : Located :=
  if size = 4 ∧ addr % 4 = 0 then
    if p.base ≤ addr ∧ addr < p.base + p.spaceBytes then .found (regionAt p (addr - p.base))
    else .nowhere .accessOutside
  else .nowhere .accessUndefined

/-- The value a read returns; a read changes nothing (R26, R51, R54, R57). -/
def readRegion (s : State) (region : Region) : Limb :=
  match region with
  | .cmd => 0
  | .status => s.statusWord
  | .cause => s.cause.word
  | .ctrl => s.ctrlWord
  | .reserved => 0
  | .window i j => limbAt (s.operand i) j

/-- The host's write of limb `j` of operand register `i` (R54): stored when `BUSY = 0`, ignored with `DROP` when `BUSY = 1` (R59). -/
def writeWindow (s : State) (i : Reg) (j : Nat) (v : Limb) : State :=
  if s.busy then s.markDrop else s.setOperand i (limbSet (s.operand i) j v)

/-- What a write does (R26, R27, R30, R31, R32, R57, R59). -/
def writeRegion (s : State) (region : Region) (v : Limb) : State :=
  match region with
  | .cmd => s.issue v
  | .status => s.writeStatus v
  | .cause => s
  | .ctrl => s.writeCtrl v
  | .reserved => s
  | .window i j => writeWindow s i j v

/-- The host's next event is taken off its list. -/
def State.popInbox (rest : List HostEvent) (s : State) : State := { s with inbox := rest }

/-- The host's list, when it is exhausted, is filled again as `tail` says (R202). DESIGN CHOICE (log 5): no fairness is asked
of the events, so that a tail without an `engineTurn` or a `waitIdle` keeps the engine from moving for ever, with any command running; R202
gives infinitely many accesses to a command that hangs only. Safe: it allows more than the spec does. -/
def State.refill (s : State) : State :=
  match s.inbox with
  | _ :: _ => s
  | [] =>
    match s.tail with
    | .silent => s
    | .again events => { s with inbox := events }
    | .free n => { s with inbox := [Config.hostEvent s.params.blockId n], tail := .free (n + 1) }

/-- A value is returned to the host. -/
def State.respond (v : Limb) (s : State) : State := { s with outbox := s.outbox ++ [v] }

/-- `MemRead(addr, size)` (R55, R57). -/
def hostRead (s : State) (addr size : Nat) : Host.Outcome State Fault Refusal :=
  match locate s.params addr size with
  | .found region => .next (s.respond (readRegion s region))
  | .nowhere r => .refused r

/-- `MemWrite(addr, size, v)` (R55, R57). -/
def hostWrite (s : State) (addr size : Nat) (v : Limb) : Host.Outcome State Fault Refusal :=
  match locate s.params addr size with
  | .found region => .next (writeRegion s region v)
  | .nowhere r => .refused r

end Sys2Proof.Machine
end

