-- ==== Sys2Proof/Machine/Arith.lean ====
section
/-! DEFINITION. The function layer of units U1 and U2 (R16): pure functions over exact integers. -/

namespace Sys2Proof.Machine

/-- `bitlen(v)` (R15): 0 for 0, else the least `L` with `v < 2^L`. -/
def bitlen (v : Nat) : Nat := if v = 0 then 0 else Nat.log2 v + 1

/-- `ceil(a / b)` for `b ≥ 1`. -/
def ceilDiv (a b : Nat) : Nat := (a + b - 1) / b

/-- `modmul` (R91): the exact product reduced modulo `m`. -/
def modmul (a b m : Nat) : Res Nat := if m = 0 then .err .zeroModulus else .ok (a * b % m)

/-- One iteration of the square-and-multiply loop (R113). Both products use the old `base` (R115). -/
def expIter (m : Nat) (v : ExpVars) : ExpVars where
  result := if v.exp % 2 = 1 then v.result * v.base % m else v.result
  base := v.base * v.base % m
  exp := v.exp / 2

/-- At most `n` iterations of the loop of R113, which ends when `exp = 0`. -/
def expLoop (m : Nat) : Nat → ExpVars → ExpVars
  | 0, v => v
  | n + 1, v => if v.exp = 0 then v else expLoop m n (expIter m v)

/-- The loop variables before the loop (R113): `result = 1`, `base` reduced modulo `m`. -/
def expStart (base exp m : Nat) : ExpVars where
  result := 1
  base := base % m
  exp := exp

/-- The value of `modexp` for `m ≥ 1` (R111), by the loop of R113, which runs `bitlen(exp)` times. -/
def powMod (base exp m : Nat) : Nat :=
  if m = 1 then 0 else (expLoop m (bitlen exp) (expStart base exp m)).result

/-- `modexp` as a function over the integers, with its errors in the order they are tested (R112); `zeroExpFaults` is the parameter
`ZERO_EXP_FAULTS` (R13). -/
def modexp (zeroExpFaults : Bool) (base exp m : Int) : Res Nat :=
  if m ≤ 0 then .err .zeroModulus
  else if exp < 0 then .err .negativeExponent
  else if exp = 0 ∧ zeroExpFaults = true then .err .zeroExponent
  else .ok (powMod (base % m).toNat exp.toNat m.toNat)

/-- `montk(m)` (R94): the limb count of `m` times 32. -/
def montk (m : Nat) : Nat := 32 * ceilDiv (bitlen m) 32

/-- The inverse of `2^montk(m)` modulo an odd `m` (R95): the inverse of 2 is `(m + 1) / 2`. -/
def montInv (m : Nat) : Nat := powMod ((m + 1) / 2) (montk m) m

/-- `montmul` (R95): the checks in order, then `(a * b * inv) mod m`. -/
def montmul (a b m : Nat) : Res Nat :=
  if m = 0 then .err .zeroModulus
  else if m % 2 = 0 then .err .evenModulus
  else if m ≤ a ∨ m ≤ b then .err .operandOutOfRange
  else .ok (a * b * montInv m % m)

/-- `montr2` (R97): the constant that converts into Montgomery form. -/
def montr2 (m : Nat) : Res Nat :=
  if m = 0 then .err .zeroModulus
  else if m % 2 = 0 then .err .evenModulus
  else .ok (2 ^ (2 * montk m) % m)

/-- One iteration of the radix-2 interleaved loop (R99). -/
def montIter (a b m : Nat) (v : MontVars) : MontVars where
  i := v.i + 1
  acc :=
    let sum := v.acc + a / 2 ^ v.i % 2 * b
    let even := if sum % 2 = 1 then sum + m else sum
    even / 2

/-- The conditional subtraction that ends the loop (R99). -/
def montFinish (m : Nat) (v : MontVars) : Nat := if m ≤ v.acc then v.acc - m else v.acc

/-- `n` iterations of the loop of R99. -/
def montLoop (a b m : Nat) : Nat → MontVars → MontVars
  | 0, v => v
  | n + 1, v => montLoop a b m n (montIter a b m v)

/-- `f` runs on an ok value; an error is passed on. -/
def Res.bind {α β : Type} (x : Res α) (f : α → Res β) : Res β :=
  match x with
  | .ok v => f v
  | .err e => .err e

/-- One iteration of the loop of R113 run on Montgomery forms (R116 law 5): each product is the Montgomery product. -/
def montExpIter (m : Nat) (v : ExpVars) : Res ExpVars :=
  (if v.exp % 2 = 1 then montmul v.result v.base m else .ok v.result).bind fun result =>
    (montmul v.base v.base m).bind fun base => .ok { result := result, base := base, exp := v.exp / 2 }

/-- At most `n` iterations of `montExpIter`; the loop ends when `exp = 0`. -/
def montExpLoop (m : Nat) : Nat → ExpVars → Res ExpVars
  | 0, v => .ok v
  | n + 1, v => if v.exp = 0 then .ok v else (montExpIter m v).bind fun w => montExpLoop m n w

/-- The loop variables before the loop on Montgomery forms (R116 law 5): 1 and the reduced `base`, converted by `montr2`. -/
def montExpStart (base exp m : Nat) : Res ExpVars :=
  (montr2 m).bind fun r2 => (montmul 1 r2 m).bind fun result => (montmul (base % m) r2 m).bind fun b =>
    .ok { result := result, base := b, exp := exp }

/-- The power computed on Montgomery forms and converted back (R116 law 5), for an odd `m ≥ 3`; for an even `m` it is an error, since the
forms do not exist (R101). No command uses it: that an implementation does is invisible. -/
def montModexp (base exp m : Nat) : Res Nat :=
  (montExpStart base exp m).bind fun v => (montExpLoop m (bitlen exp) v).bind fun w => montmul w.result 1 m

end Sys2Proof.Machine
end

