-- ==== Sys2Proof/Machine/Exponentiation.lean ====
section
/-! DEFINITION. Unit U2, the modular exponentiation pipeline: one engine step of `MODEXP` (R114, R115). -/

namespace Sys2Proof.Machine

/-- The entry of `MODEXP`: the checks in order (R112, R114), the special case `mod = 1` (R113), then the loop starts. -/
def modexpEntry (rd : Reg) (r : Running) (s : State) : State :=
  if r.c = 0 then s.raise .zeroModulus
  else if r.b = 0 ∧ s.params.zeroExpFaults = true then s.raise .zeroExponent
  else if r.c = 1 then s.complete rd 0
  else s.goOn r (.exp (expStart r.a r.b r.c))

/-- One loop step of `MODEXP` (R115): the command completes on the step at which `exp = 0` is seen. -/
def modexpLoopStep (rd : Reg) (v : ExpVars) (r : Running) (s : State) : State :=
  if v.exp = 0 then s.complete rd v.result else s.goOn r (.exp (expIter r.c v))

/-- One step of `MODEXP`. Loop variables of another unit, which no run reaches, are taken as the entry. -/
def modexpStep (rd : Reg) (r : Running) (s : State) : State :=
  match r.mu with
  | .exp v => modexpLoopStep rd v r s
  | .start => modexpEntry rd r s
  | .mont _ => modexpEntry rd r s
  | .mr _ => modexpEntry rd r s
  | .pg _ => modexpEntry rd r s

/-- `MODEXP xd, xa, xb, xc` (R114). -/
def execModexp (rd : Reg) (s : State) : Host.Outcome State Fault Refusal := onRunning s (fun r => modexpStep rd r s)

end Sys2Proof.Machine
end

