-- ==== Sys2Proof/Machine/Multiplier.lean ====
section
/-! DEFINITION. Unit U1, the modular multiplier: one engine step of `MODMUL` (R92), `MONTMUL` (R96, R99) and `MONTR2` (R98). -/

namespace Sys2Proof.Machine

/-- `MODMUL` ends in its first step (R92). -/
def modmulStep (rd : Reg) (r : Running) (s : State) : State :=
  if r.c = 0 then s.raise .zeroModulus else s.complete rd (r.a * r.b % r.c)

/-- The entry of `MONTMUL`: the operand checks in order (R96), then the loop of R99 starts. -/
def montmulEntry (r : Running) (s : State) : State :=
  if r.c = 0 then s.raise .zeroModulus
  else if r.c % 2 = 0 then s.raise .evenModulus
  else if r.c ≤ r.a ∨ r.c ≤ r.b then s.raise .operandOutOfRange
  else s.goOn r (.mont { i := 0, acc := 0 })

/-- One loop step of `MONTMUL` (R99): an iteration while `i < montk(m)`, then the final subtraction and the completion. -/
def montmulLoopStep (rd : Reg) (v : MontVars) (r : Running) (s : State) : State :=
  if v.i < montk r.c then s.goOn r (.mont (montIter r.a r.b r.c v)) else s.complete rd (montFinish r.c v)

/-- One step of `MONTMUL`. Loop variables of another unit, which no run reaches, are taken as the entry. -/
def montmulStep (rd : Reg) (r : Running) (s : State) : State :=
  match r.mu with
  | .mont v => montmulLoopStep rd v r s
  | .start => montmulEntry r s
  | .exp _ => montmulEntry r s
  | .mr _ => montmulEntry r s
  | .pg _ => montmulEntry r s

/-- `MONTR2` ends in its first step (R98). -/
def montr2Step (rd : Reg) (r : Running) (s : State) : State :=
  if r.a = 0 then s.raise .zeroModulus
  else if r.a % 2 = 0 then s.raise .evenModulus
  else s.complete rd (2 ^ (2 * montk r.a) % r.a)

/-- `MODMUL xd, xa, xb, xc` (R92). The sources were latched at acceptance (R34). -/
def execModmul (rd : Reg) (s : State) : Host.Outcome State Fault Refusal := onRunning s (fun r => modmulStep rd r s)

/-- `MONTMUL xd, xa, xb, xc` (R96). -/
def execMontmul (rd : Reg) (s : State) : Host.Outcome State Fault Refusal := onRunning s (fun r => montmulStep rd r s)

/-- `MONTR2 xd, xa` (R98). -/
def execMontr2 (rd : Reg) (s : State) : Host.Outcome State Fault Refusal := onRunning s (fun r => montr2Step rd r s)

end Sys2Proof.Machine
end

