-- ==== Sys2Proof/Machine/Random.lean ====
section
/-! DEFINITION. Unit U3, the randomness port and the samplers: `random_bits` (R123), `random_between` (R125 to R127), and one engine
step of `RANDBITS` (R124) and `RANDBTW` (R128). The functions read the stream `ξ` from a cursor and return the new cursor (R15). -/

namespace Sys2Proof.Machine

/-- The loop of R123: `n` more chunks from cursor `c` are shifted into `v`, the first one ending up most significant. -/
def concatChunks (cw : Nat) (xi : Nat → Nat) : Nat → Nat → Nat → Nat
  | 0, _, v => v
  | n + 1, c, v => concatChunks cw xi n (c + 1) ((v <<< cw) ||| xi c)

/-- `random_bits(k)` from cursor `c` (R123): the value and the new cursor. -/
def randomBits (cw : Nat) (xi : Nat → Nat) (k c : Nat) : Nat × Nat :=
  (concatChunks cw xi (ceilDiv k cw) c 0 % 2 ^ k, c + ceilDiv k cw)

/-- `range = high - low + 1` (R125). -/
def betweenRange (low high : Nat) : Nat := high - low + 1

/-- The least `b` with `2^b ≥ range` (R125). -/
def betweenBits (low high : Nat) : Nat := bitlen (betweenRange low high - 1)

/-- One draw of the rejection loop (R126), from cursor `c`. -/
def betweenDraw (cw : Nat) (xi : Nat → Nat) (low high c : Nat) : Nat × Nat := randomBits cw xi (betweenBits low high) c

/-- The rejection loop of R126 with at most `fuel` draws; `none`: none of them was accepted. -/
def betweenLoop (cw : Nat) (xi : Nat → Nat) (low high : Nat) : Nat → Nat → Option (Nat × Nat)
  | 0, _ => none
  | n + 1, c =>
    if (betweenDraw cw xi low high c).1 < betweenRange low high then
      some (low + (betweenDraw cw xi low high c).1, (betweenDraw cw xi low high c).2)
    else betweenLoop cw xi low high n (betweenDraw cw xi low high c).2

/-- `random_between(low, high)` (R125 to R127), looking at no more than `fuel` draws. -/
def randomBetween (cw : Nat) (xi : Nat → Nat) (low high fuel c : Nat) : Res (Option (Nat × Nat)) :=
  if high < low then .err .emptyRange else .ok (betweenLoop cw xi low high fuel c)

/-- `RANDBITS` ends in its first step (R124). -/
def randbitsStep (rd : Reg) (r : Running) (s : State) : State :=
  if s.params.width < r.a then s.raise .widthExceeded
  else
    ((s.setCursor (randomBits s.params.chunkBits s.xi r.a s.rngpos).2).complete rd
      (randomBits s.params.chunkBits s.xi r.a s.rngpos).1)

/-- One draw of `RANDBTW` (R126, R128): an accepted draw completes, a rejected one leaves no trace but the cursor. -/
def randbtwDraw (rd : Reg) (r : Running) (s : State) (draw : Nat × Nat) : State :=
  if draw.1 < betweenRange r.a r.b then (s.setCursor draw.2).complete rd (r.a + draw.1)
  else s.setCursor draw.2

/-- One step of `RANDBTW`: the check (R127, R128), then one draw. -/
def randbtwStep (rd : Reg) (r : Running) (s : State) : State :=
  if r.b < r.a then s.raise .emptyRange
  else randbtwDraw rd r s (betweenDraw s.params.chunkBits s.xi r.a r.b s.rngpos)

/-- `RANDBITS xd, xa` (R124). -/
def execRandbits (rd : Reg) (s : State) : Host.Outcome State Fault Refusal := onRunning s (fun r => randbitsStep rd r s)

/-- `RANDBTW xd, xa, xb` (R128). -/
def execRandbtw (rd : Reg) (s : State) : Host.Outcome State Fault Refusal := onRunning s (fun r => randbtwStep rd r s)

end Sys2Proof.Machine
end

