-- ==== Sys2Proof/Machine/MillerRabin.lean ====
section
/-! DEFINITION. Unit U4, the Miller-Rabin test: the function (R135 to R144), its state machine (R145), and one engine step of `MRTEST`
(R142). -/

namespace Sys2Proof.Machine

/-- `SMALL_PRIMES` (R6). -/
def smallPrimes : List Nat := [2, 3, 5, 7, 11, 13, 17, 19, 23, 29, 31, 37, 41, 43, 47]

/-- Step 2, trial division by the rest of the table (R137): the verdict if a table prime decides. -/
def trialDivide (n : Nat) : List Nat → Option Bool
  | [] => none
  | p :: rest => if n = p then some true else if n % p = 0 then some false else trialDivide n rest

/-- Step 3 (R139): at most `fuel` halvings of `d`, counted in `s`. -/
def stripTwos : Nat → Nat → Nat → Nat × Nat
  | 0, d, s => (d, s)
  | n + 1, d, s => if d % 2 = 0 then stripTwos n (d / 2) (s + 1) else (d, s)

/-- The decomposition `n - 1 = d * 2^s` with `d` odd (R139). -/
def decompose (n : Nat) : Nat × Nat := stripTwos (bitlen (n - 1)) (n - 1) 0

/-- The squarings of R141: up to `k` more, does one of them reach `n - 1`? -/
def squaringReaches (n : Nat) : Nat → Nat → Bool
  | 0, _ => false
  | k + 1, x => if x * x % n = n - 1 then true else squaringReaches n k (x * x % n)

/-- Does the witness `a` pass (R141)? -/
def witnessPasses (n d s a : Nat) : Bool :=
  if powMod a d n = 1 ∨ powMod a d n = n - 1 then true else squaringReaches n (s - 1) (powMod a d n)

/-- Step 4 (R144): up to `k` rounds from cursor `c`, at most `fuel` draws for each witness; `none`: a witness draw did not end. -/
def mrRounds (cw : Nat) (xi : Nat → Nat) (n d s fuel : Nat) : Nat → Nat → Option (Bool × Nat)
  | 0, c => some (true, c)
  | k + 1, c =>
    match betweenLoop cw xi 2 (n - 2) fuel c with
    | none => none
    | some (a, c') => if witnessPasses n d s a then mrRounds cw xi n d s fuel k c' else some (false, c')

/-- `is_probable_prime(n, rounds)` from cursor `c` (R144), for `rounds ≥ 1`. -/
def isProbablePrime (cw : Nat) (xi : Nat → Nat) (n rounds fuel c : Nat) : Option (Bool × Nat) :=
  if n < 2 then some (false, c)
  else
    match trialDivide n smallPrimes with
    | some v => some (v, c)
    | none => mrRounds cw xi n (decompose n).1 (decompose n).2 fuel rounds c

/-- `MR_TRIAL` at table index `i` (R145). -/
def mrTrial (n i : Nat) : MrState :=
  if n = smallPrimes.getD i 0 then .ret true
  else if n % smallPrimes.getD i 0 = 0 then .ret false
  else if 14 ≤ i then .decomp (n - 1) 0
  else .trial (i + 1)

/-- `MR_DRAW` once the draw `t` is known (R140, R145): the witness is `2 + t`, or the draw is rejected. -/
def mrDrawn (n d s r t : Nat) : MrState := if t < n - 3 then .exp d s r (2 + t) else .draw d s r

/-- `MR_EXP` once `x = modexp(a, d, n)` is known (R141, R145). -/
def mrPowered (n d s r a x : Nat) : MrState := if x = 1 ∨ x = n - 1 then .round d s (r + 1) else .sqr d s r a x 1

/-- `MR_SQR` (R141, R145). -/
def mrSquare (n d s r a x j : Nat) : MrState :=
  if s - 1 < j then .ret false
  else if x * x % n = n - 1 then .round d s (r + 1)
  else .sqr d s r a (x * x % n) (j + 1)

/-- One transition of the Miller-Rabin machine on `(n, rounds)` at cursor `c` (R145), the new cursor with it. `MR_CHECK`'s test of the
round count is the command's (`mrtestStep`, `genprimeCheck`). -/
def mrStep (cw : Nat) (xi : Nat → Nat) (n rounds : Nat) (m : MrState) (c : Nat) : MrState × Nat :=
  match m with
  | .check => (if n < 2 then .ret false else .trial 0, c)
  | .trial i => (mrTrial n i, c)
  | .decomp d s => (if d % 2 = 0 then .decomp (d / 2) (s + 1) else .round d s 1, c)
  | .round d s r => (if rounds < r then .ret true else .draw d s r, c)
  | .draw d s r => (mrDrawn n d s r (randomBits cw xi (bitlen (n - 4)) c).1, (randomBits cw xi (bitlen (n - 4)) c).2)
  | .exp d s r a => (mrPowered n d s r a (powMod a d n), c)
  | .sqr d s r a x j => (mrSquare n d s r a x j, c)
  | .ret v => (.ret v, c)

/-- The machine's state in the loop variables of `MRTEST`; loop variables of another unit, which no run reaches, are taken as the
entry. -/
def mrOf : Mu → MrState
  | .mr m => m
  | .start => .check
  | .mont _ => .check
  | .exp _ => .check
  | .pg _ => .check

/-- A transition of the machine as a step of `MRTEST`. -/
def mrtestGoOn (r : Running) (s : State) (next : MrState × Nat) : State := (s.setCursor next.2).goOn r (.mr next.1)

/-- `MR_CHECK` (R145): the round count is tested first (R142, R148). -/
def mrtestCheck (r : Running) (s : State) : State :=
  if r.b = 0 then s.raise .invalidRounds
  else mrtestGoOn r s (mrStep s.params.chunkBits s.xi r.a r.b .check s.rngpos)

/-- One step of `MRTEST` (R142, R145). -/
def mrtestStep (rd : Reg) (r : Running) (s : State) : State :=
  match mrOf r.mu with
  | .check => mrtestCheck r s
  | .ret v => s.complete rd v.toNat
  | m => mrtestGoOn r s (mrStep s.params.chunkBits s.xi r.a r.b m s.rngpos)

/-- `MRTEST xd, xa, xb` (R142): the verdict goes to `x[rd]` as 1 or 0. -/
def execMrtest (rd : Reg) (s : State) : Host.Outcome State Fault Refusal := onRunning s (fun r => mrtestStep rd r s)

end Sys2Proof.Machine
end

