-- ==== Sys2Proof/Machine/PrimeGen.lean ====
section
/-! DEFINITION. Unit U5, the prime candidate generator: the function (R156 to R158), its state machine (R162), and one engine step of
`GENPRIME` (R159, R161). -/

namespace Sys2Proof.Machine

/-- The candidate with the top and the bottom bit forced (R156). -/
def forceCandidate (bits t : Nat) : Nat := t ||| 2 ^ (bits - 1) ||| 1

/-- The candidate drawn at cursor `c`, and the new cursor (R156). -/
def drawCandidate (cw : Nat) (xi : Nat → Nat) (bits c : Nat) : Nat × Nat :=
  (forceCandidate bits (randomBits cw xi bits c).1, (randomBits cw xi bits c).2)

/-- The candidate loop (R157) with at most `n` candidates and at most `fuel` draws for each witness. -/
def primeLoop (cw : Nat) (xi : Nat → Nat) (bits rounds fuel : Nat) : Nat → Nat → Option (Nat × Nat)
  | 0, _ => none
  | n + 1, c =>
    match isProbablePrime cw xi (drawCandidate cw xi bits c).1 rounds fuel (drawCandidate cw xi bits c).2 with
    | none => none
    | some (true, c') => some ((drawCandidate cw xi bits c).1, c')
    | some (false, c') => primeLoop cw xi bits rounds fuel n c'

/-- `generate_prime(bits, rounds)` from cursor `c` (R157, R158), looking at no more than `fuel` candidates and at no more than `fuel`
draws for each witness. -/
def generatePrime (cw : Nat) (xi : Nat → Nat) (bits rounds fuel c : Nat) : Res (Option (Nat × Nat)) :=
  if bits < 2 then .err .primeBitsTooSmall else .ok (primeLoop cw xi bits rounds fuel fuel c)

/-- The generator's state in the loop variables of `GENPRIME`; loop variables of another unit, which no run reaches, are taken as the
entry. -/
def pgOf : Mu → PgState
  | .pg g => g
  | .start => .check
  | .mont _ => .check
  | .exp _ => .check
  | .mr _ => .check

/-- `PG_CHECK` (R159, R162): the operand checks in order, before anything is drawn. -/
def genprimeCheck (r : Running) (s : State) : State :=
  if r.a < 2 then s.raise .primeBitsTooSmall
  else if s.params.width < r.a then s.raise .widthExceeded
  else if r.b = 0 then s.raise .invalidRounds
  else s.goOn r (.pg .head)

/-- `PG_HEAD` (R161, R162): the one point at which `CTRL.CANCEL` is sampled. -/
def genprimeHead (r : Running) (s : State) : State :=
  if s.params.hasCancel = true ∧ s.ctrl.cancel = true then s.raise .cancelled else s.goOn r (.pg .draw)

/-- `PG_DRAW` once the candidate and the cursor are known (R156, R162). -/
def genprimeDraw (r : Running) (s : State) (drawn : Nat × Nat) : State :=
  (s.setCursor drawn.2).goOn r (.pg (.test drawn.1 .check))

/-- `PG_TEST` (R162): a transition of the Miller-Rabin machine, or its verdict handed back. -/
def genprimeTest (r : Running) (s : State) (c : Nat) (m : MrState) (next : MrState × Nat) : State :=
  match m with
  | .ret true => s.goOn r (.pg (.ret c))
  | .ret false => s.goOn r (.pg .head)
  | _ => (s.setCursor next.2).goOn r (.pg (.test c next.1))

/-- One step of `GENPRIME` (R159, R162). -/
def genprimeStep (rd : Reg) (r : Running) (s : State) : State :=
  match pgOf r.mu with
  | .check => genprimeCheck r s
  | .head => genprimeHead r s
  | .draw => genprimeDraw r s (drawCandidate s.params.chunkBits s.xi r.a s.rngpos)
  | .test c m => genprimeTest r s c m (mrStep s.params.chunkBits s.xi c r.b m s.rngpos)
  | .ret c => s.complete rd c

/-- `GENPRIME xd, xa, xb` (R159). -/
def execGenprime (rd : Reg) (s : State) : Host.Outcome State Fault Refusal := onRunning s (fun r => genprimeStep rd r s)

end Sys2Proof.Machine
end

