-- ==== Sys2Proof/Machine/Dispatch.lean ====
section
/-! DEFINITION. Every command to its meaning: one step of the engine running it. The source fields `ra`, `rb`, `rc` were read when the
command was accepted (R34), so a meaning is given the destination field only. -/

namespace Sys2Proof.Machine

/-- One step of the engine running command `i`. -/
def exec (i : Instr) (s : State) : Host.Outcome State Fault Refusal :=
  match i with
  | .modmul rd _ _ _ => Sys2Proof.Machine.execModmul rd s
  | .montmul rd _ _ _ => Sys2Proof.Machine.execMontmul rd s
  | .modexp rd _ _ _ => Sys2Proof.Machine.execModexp rd s
  | .montr2 rd _ => Sys2Proof.Machine.execMontr2 rd s
  | .randbits rd _ => Sys2Proof.Machine.execRandbits rd s
  | .randbtw rd _ _ => Sys2Proof.Machine.execRandbtw rd s
  | .mrtest rd _ _ => Sys2Proof.Machine.execMrtest rd s
  | .genprime rd _ _ => Sys2Proof.Machine.execGenprime rd s

end Sys2Proof.Machine
end

