-- ==== Sys2Proof/Machine/Block.lean ====
section
/-! DEFINITION. One step of the block with the agents around it: the engine's step, the host's event, which of them moves (R58, R202). -/

namespace Sys2Proof.Machine

/-- The engine's step: the latched command word is decoded and its command runs for one step; an idle engine does nothing until the host
writes `CMD` (R191). A latched word that is no command, which no run reaches (R33), is the fault `IllegalCommand`. -/
def engineStep (s : State) : Host.Outcome State Fault Refusal :=
  match s.eng with
  | .idle => .next s
  | .run r =>
    match decode r.word with
    | .command i => exec i s
    | .illegal _ => .next (s.raise .illegalCommand)

/-- The host polls `STATUS` until `BUSY = 0` and takes the last value read (R80 `WAIT`): while the engine runs, the engine moves. -/
def waitStep (s : State) (rest : List HostEvent) : Host.Outcome State Fault Refusal :=
  if s.busy then engineStep s else .next ((s.popInbox rest).respond s.statusWord)

/-- The host's next event happens (R176). -/
def hostStep (s : State) (e : HostEvent) (rest : List HostEvent) : Host.Outcome State Fault Refusal :=
  match e with
  | .read addr size => hostRead (s.popInbox rest) addr size
  | .write addr size v => hostWrite (s.popInbox rest) addr size v
  | .reset => .next (s.popInbox rest).assertReset
  | .engineTurn => engineStep (s.popInbox rest)
  | .waitIdle => waitStep s rest

/-- The head of the host's list happens; with an empty list the engine moves. Each is one atomic change (R58). -/
def turnStep (s : State) : Host.Outcome State Fault Refusal :=
  match s.inbox with
  | [] => engineStep s
  | e :: rest => hostStep s e rest

/-- One step: the host's next event if it has one, else the engine (R58, R202). -/
def blockStep (s : State) : Host.Outcome State Fault Refusal := turnStep s.refill

/-- The word of an instruction whose low `nbits` bits are those of `w` and whose other bits are 0 (R70: a command has 32 bits). -/
def tableWord (nbits w : Nat) : CmdWord := BitVec.ofNat 32 (w % 2 ^ nbits)

end Sys2Proof.Machine
end

