-- ==== Sys2Proof/Machine/Step.lean ====
section
/-! DEFINITION. The step function, and the state in which it runs a given command next. -/

namespace Sys2Proof.Machine

/-- One step of the machine (`blockStep`). -/
def step (s : State) : Host.Outcome State Fault Refusal := blockStep s

/-- `s` with the command of the given word latched, as the host's write to `CMD` leaves it (R33), so that the next step runs it (log 8). -/
def State.withFetchWord (s : State) (nbits w : Nat) : State := placeWord s (tableWord nbits w)

end Sys2Proof.Machine
end

