-- ==== Sys2Proof/Machine/HostOps.lean ====
section
/-! DEFINITION. The host's pseudo-operations and their expansions into bus accesses (R80), and the assembler's text (R81). -/

namespace Sys2Proof.Machine

/-- The host operations (R80). A host program is a list of them. -/
inductive HostOp where
  /-- `WR xi, v`, defined by the spec for `v < 2^W` (see `wrEvents`, log 19) -/
  | wr (i : Reg) (v : Nat)
  /-- `RD xi` -/
  | rd (i : Reg)
  /-- `ISSUE <command>` -/
  | issue (c : Instr)
  /-- `ISSUE <word>`, any 32-bit word (R176) -/
  | issueWord (w : CmdWord)
  /-- `WAIT` -/
  | wait
  | rdStatus
  | rdCause
  /-- `CLR m` -/
  | clr (m : Limb)
  | cancel
  /-- a bare mnemonic line: `ISSUE` followed by `WAIT` -/
  | bare (c : Instr)
deriving DecidableEq, Repr

/-- `WR xi, v`: the limbs of `v` are written in ascending order (R80). DESIGN CHOICE (log 19): R80 defines it for `v < 2^W` only; for a
larger `v` this writes the low `W` bits. Unsafe for a claim about such a `v`; no statement makes one. -/
def wrEvents (p : Params) (i : Reg) (v : Nat) : List HostEvent :=
  (List.range p.limbs).map (fun j => .write (p.base + opw p i j) 4 (BitVec.ofNat 32 (bits v (32 * j + 31) (32 * j))))

/-- `RD xi`: the limbs are read in ascending order (R80). -/
def rdEvents (p : Params) (i : Reg) : List HostEvent :=
  (List.range p.limbs).map (fun j => .read (p.base + opw p i j) 4)

/-- The bus accesses of a host operation (R80). -/
def HostOp.expand (p : Params) : HostOp → List HostEvent
  | .wr i v => wrEvents p i v
  | .rd i => rdEvents p i
  | .issue c => [.write p.base 4 (encode c)]
  | .issueWord w => [.write p.base 4 w]
  | .wait => [.waitIdle]
  | .rdStatus => [.read (p.base + 0x004) 4]
  | .rdCause => [.read (p.base + 0x008) 4]
  | .clr m => [.write (p.base + 0x004) 4 m]
  | .cancel => [.write (p.base + 0x00C) 4 1]
  | .bare c => [.write p.base 4 (encode c), .waitIdle]

/-- A host program as the list of its accesses (R80). -/
def hostProgram (p : Params) (ops : List HostOp) : List HostEvent := ops.flatMap (HostOp.expand p)

/-- A register's name (R81). -/
def regText (r : Reg) : String := "x" ++ toString r.val

/-- The mnemonic of a row as the table spells it (R74). -/
def mnemonicText : Mnemonic → String
  | .modmul => "MODMUL"
  | .montmul => "MONTMUL"
  | .modexp => "MODEXP"
  | .montr2 => "MONTR2"
  | .randbits => "RANDBITS"
  | .randbtw => "RANDBTW"
  | .mrtest => "MRTEST"
  | .genprime => "GENPRIME"

/-- The assembler text of a command (R81): mnemonic, destination, then the sources its format has, separated by commas. -/
def asmText (i : Instr) : String :=
  mnemonicText i.mnemonic ++ " " ++ String.intercalate ", " ((i.rd :: i.ra :: (i.rb.toList ++ i.rc.toList)).map regText)

end Sys2Proof.Machine
end

