-- ==== Sys2Proof/Machine/Platform.lean ====
section
/-! DEFINITION. Several blocks on one platform (R130, R182): they share nothing, each has its own stream. -/

namespace Sys2Proof.Machine

/-- The blocks of a platform. -/
abbrev Platform := List State

/-- The blocks have distinct numbers, so their streams and their register contents after reset are unrelated free values (R130). -/
def platformDistinct (q : Platform) : Bool := decide (q.map (fun s => s.params.blockId)).Nodup

/-- Block `k` takes a step; there is no signal between blocks and no command by which one affects another (R182). -/
def platformStep (q : Platform) (k : Nat) : Host.Outcome Platform Fault Refusal :=
  match q[k]? with
  | none => .next q
  | some s =>
    match step s with
    | .next t => .next (q.set k t)
    | .fault r => .fault r
    | .refused r => .refused r

end Sys2Proof.Machine
end

