-- ==== Sys2Proof/Safety.lean ====
section
/-! DEFINITION. What claims about the block are stated in: the invariants of the state (R39) and of the loops (R99, R113, R138, R141),
what a completed command leaves (R29), which fault an operand check reports (R172), and the fairness assumptions (R129, R160). -/

namespace Sys2Proof.Machine

/-- The invariants of the state (R39), with the widths of R21 and R33: every register has `W/32` limbs, the latched word is a legal command
and the latched operands fit `W` bits. -/
structure State.Inv (s : State) : Prop where
  limbs : ∀ i : Reg, (s.operand i).length = s.params.limbs
  /-- R39 item 2 -/
  busyQuiet : s.busy = true → s.status.done = false ∧ s.status.err = false
  /-- R39 item 3 -/
  notBoth : ¬(s.status.done = true ∧ s.status.err = true)
  /-- R39 item 4 -/
  causeErr : s.cause.word ≠ 0 ↔ s.status.err = true
  /-- R39 item 5 -/
  cancelBusy : s.ctrl.cancel = true → s.busy = true ∧ s.params.hasCancel = true
  latched : ∀ r, s.eng = .run r →
    (∃ i, decode r.word = .command i) ∧ r.a < 2 ^ s.params.width ∧ r.b < 2 ^ s.params.width ∧ r.c < 2 ^ s.params.width

/-- No table prime divides `n`, and `n ≥ 2`: steps 1 and 2 did not decide (R136, R137). -/
def survivesTable (n : Nat) : Prop := 2 ≤ n ∧ ∀ p ∈ smallPrimes, n % p ≠ 0

/-- The loop invariant of the Montgomery multiplier (R99): `0 ≤ S < 2m` and `S * 2^i ≡ a[i-1:0] * b (mod m)`. -/
def montOk (a b m : Nat) (v : MontVars) : Prop :=
  m % 2 = 1 ∧ a < m ∧ b < m ∧ v.i ≤ montk m ∧ v.acc < 2 * m ∧ v.acc * 2 ^ v.i % m = a % 2 ^ v.i * b % m

/-- The loop invariant of the exponentiation (R113): `result * base^exp ≡ base0^exp0 (mod m)`, with `0 ≤ result, base < m`. -/
def expOk (a e m : Nat) (v : ExpVars) : Prop :=
  2 ≤ m ∧ v.result < m ∧ v.base < m ∧ v.result * v.base ^ v.exp % m = a ^ e % m

/-- `n - 1 = d * 2^s` for an `n` that survived the table (R139). -/
def splitOk (n d s : Nat) : Prop := survivesTable n ∧ d * 2 ^ s = n - 1

/-- The invariant of the Miller-Rabin machine on `(n, rounds)` (R138, R139 to R145): what is known in each of its states. A `false`
verdict means that `n` is not prime (R147 item 4). -/
def mrOk (n rounds : Nat) : MrState → Prop
  | .check => True
  | .trial i => 2 ≤ n ∧ i ≤ 14 ∧ ∀ p ∈ smallPrimes.take i, n % p ≠ 0
  | .decomp d s => splitOk n d s
  | .round d s r => splitOk n d s ∧ d % 2 = 1 ∧ 1 ≤ r ∧ r ≤ rounds + 1
  | .draw d s r => splitOk n d s ∧ d % 2 = 1 ∧ 1 ≤ r ∧ r ≤ rounds
  | .exp d s r a => splitOk n d s ∧ d % 2 = 1 ∧ 1 ≤ r ∧ r ≤ rounds ∧ 2 ≤ a ∧ a ≤ n - 2
  | .sqr d s r a x j => splitOk n d s ∧ d % 2 = 1 ∧ 1 ≤ r ∧ r ≤ rounds ∧ 2 ≤ a ∧ a ≤ n - 2 ∧ 1 ≤ j ∧ j ≤ s ∧
      x = a ^ (d * 2 ^ (j - 1)) % n ∧ a ^ d % n ≠ 1 ∧ ∀ k, k < j → a ^ (d * 2 ^ k) % n ≠ n - 1
  | .ret true => n ∈ smallPrimes ∨ survivesTable n
  | .ret false => ¬ n.Prime

/-- A candidate has exactly `bits` bits and is odd (R156). -/
def candidateOk (bits c : Nat) : Prop := c < 2 ^ bits ∧ 2 ^ (bits - 1) ≤ c ∧ c % 2 = 1

/-- The invariant of the prime generator (R156, R157, R162). -/
def pgOk (p : Params) (bits rounds : Nat) : PgState → Prop
  | .check => True
  | .head => 2 ≤ bits ∧ bits ≤ p.width ∧ rounds ≠ 0
  | .draw => 2 ≤ bits ∧ bits ≤ p.width ∧ rounds ≠ 0
  | .test c m => 2 ≤ bits ∧ bits ≤ p.width ∧ rounds ≠ 0 ∧ candidateOk bits c ∧ mrOk c rounds m
  | .ret c => 2 ≤ bits ∧ bits ≤ p.width ∧ rounds ≠ 0 ∧ candidateOk bits c ∧ (c ∈ smallPrimes ∨ survivesTable c)

/-- The loop variables of a running command are those of its unit and meet its loop invariant. -/
def unitOk (p : Params) (i : Instr) (r : Running) : Prop :=
  match i, r.mu with
  | .modmul .., .start => True
  | .montmul .., .start => True
  | .montmul .., .mont v => montOk r.a r.b r.c v
  | .modexp .., .start => True
  | .modexp .., .exp v => expOk r.a r.b r.c v
  | .montr2 .., .start => True
  | .randbits .., .start => True
  | .randbtw .., .start => True
  | .mrtest .., .mr m => (m = .check ∨ r.b ≠ 0) ∧ mrOk r.a r.b m
  | .genprime .., .pg g => pgOk p r.a r.b g
  | _, _ => False

/-- The engine runs a legal command whose loop variables meet its unit's invariant. -/
def State.EngineInv (s : State) : Prop :=
  ∀ r, s.eng = .run r → ∃ i, decode r.word = .command i ∧ unitOk s.params i r

/-- What a command's completion with value `v` leaves (R29): `x[rd] = v`, the engine idle, `DONE = 1`, `CANCEL = 0`, and everything else
but the chunk cursor as it was. -/
structure Completed (s t : State) (rd : Reg) (v : Nat) : Prop where
  written : t.x rd = v
  others : ∀ q : Reg, q ≠ rd → t.operand q = s.operand q
  idle : t.eng = .idle
  status : t.status = { s.status with done := true }
  ctrl : t.ctrl = { cancel := false }
  cause : t.cause = s.cause
  params : t.params = s.params
  epoch : t.epoch = s.epoch
  injected : t.injected = s.injected
  inbox : t.inbox = s.inbox
  tail : t.tail = s.tail
  outbox : t.outbox = s.outbox

/-- What a fault `f` leaves (R173). -/
def faulted (s : State) (f : FaultCause) : State :=
  { s with
    cause := { code := f.code, kind := f.kind.code }
    status := { s.status with err := true }
    eng := .idle
    ctrl := { cancel := false } }

/-- The first of a command's operand checks that holds, in the fixed order of R172. -/
def firstFault (p : Params) (i : Instr) (r : Running) : Option FaultCause :=
  match i with
  | .modmul .. => if r.c = 0 then some .zeroModulus else none
  | .montmul .. =>
    if r.c = 0 then some .zeroModulus
    else if r.c % 2 = 0 then some .evenModulus
    else if r.c ≤ r.a ∨ r.c ≤ r.b then some .operandOutOfRange
    else none
  | .modexp .. =>
    if r.c = 0 then some .zeroModulus
    else if r.b = 0 ∧ p.zeroExpFaults = true then some .zeroExponent
    else none
  | .montr2 .. =>
    if r.a = 0 then some .zeroModulus
    else if r.a % 2 = 0 then some .evenModulus
    else none
  | .randbits .. => if p.width < r.a then some .widthExceeded else none
  | .randbtw .. => if r.b < r.a then some .emptyRange else none
  | .mrtest .. => if r.b = 0 then some .invalidRounds else none
  | .genprime .. =>
    if r.a < 2 then some .primeBitsTooSmall
    else if p.width < r.a then some .widthExceeded
    else if r.b = 0 then some .invalidRounds
    else none

/-- The faults a command can raise, by row of the table of R166. -/
def raisable : Instr → List FaultCause
  | .modmul .. => [.zeroModulus]
  | .montmul .. => [.zeroModulus, .evenModulus, .operandOutOfRange]
  | .modexp .. => [.zeroModulus, .zeroExponent]
  | .montr2 .. => [.zeroModulus, .evenModulus]
  | .randbits .. => [.widthExceeded]
  | .randbtw .. => [.emptyRange]
  | .mrtest .. => [.invalidRounds]
  | .genprime .. => [.primeBitsTooSmall, .widthExceeded, .invalidRounds, .cancelled]

/-- The named assumption `RngFair` (R129): from every cursor, some draw of `b` bits is below every `range` with `2^(b-1) < range ≤ 2^b`. -/
def RngFair (cw : Nat) (xi : Nat → Nat) : Prop :=
  ∀ c b range, 1 ≤ b → 2 ^ (b - 1) < range → range ≤ 2 ^ b → ∃ i, (randomBits cw xi b (c + i * ceilDiv b cw)).1 < range

/-- The named assumption `PrimeFair` (R160): run from cursor `c`, some candidate passes its test. -/
def PrimeFair (cw : Nat) (xi : Nat → Nat) (bits rounds c : Nat) : Prop :=
  ∃ fuel v, generatePrime cw xi bits rounds fuel c = .ok (some v)

/-- The engine has accepted command `i` and not moved yet, and the host lets it run: where a command's whole run starts. -/
def State.Accepted (s : State) (i : Instr) (r : Running) : Prop :=
  s.Inv ∧ s.eng = .run r ∧ decode r.word = .command i ∧ r.mu = startMu i ∧ s.inbox = [] ∧ s.tail = .silent

end Sys2Proof.Machine
end

