-- ==== Sys2Proof/Certificates/Slice0/Obligations.lean ====
section
/-! DEFINITION. The statements for the provers. Each docstring names the rules of spec/ the statement formalises. A statement about every
state carries, where it needs one, an invariant that `StepKeepsStateInvariant` or `StepKeepsEngineInvariant` says every step keeps. -/

open Sys2Proof Sys2Proof.Machine

/-! ### Encoding -/

/-- R79: "`decode(encode(c)) = c` for every command", every register number in every field. -/
def Obligations.DecodeOfEncodeIsTheCommand : Prop :=
  ∀ i : Instr, i.wellFormed = true ∧ decode (encode i) = .command i

/-- R79: "`encode(decode(w)) = w` for every legal `w`": no bit of a legal word is ignored. -/
def Obligations.EncodeOfDecodeIsTheWord : Prop :=
  ∀ (w : CmdWord) (i : Instr), decode w = .command i → encode i = w

/-- R75: a word is legal exactly when `w & mask = match` for one row of R74, at most one row matches, and issuing any other word is the
fault `IllegalCommand` without `BUSY`. -/
def Obligations.LegalExactlyWhenOneRowMatches : Prop :=
  (∀ w : CmdWord, (∃ i, decode w = .command i) ↔ ∃ m ∈ Mnemonic.all, w &&& m.format.mask = m.pattern) ∧
  (∀ (w : CmdWord) (m k : Mnemonic), w &&& m.format.mask = m.pattern → w &&& k.format.mask = k.pattern → m = k) ∧
  (∀ (w : CmdWord) (i : Instr), decode w = .command i → w &&& i.mnemonic.format.mask = i.mnemonic.pattern) ∧
  (∀ (s : State) (w : CmdWord), s.busy = false → s.status.err = false → (∀ m ∈ Mnemonic.all, w &&& m.format.mask ≠ m.pattern) →
    (s.issue w).status.err = true ∧ (s.issue w).cause = { code := 0x01, kind := 5 } ∧ (s.issue w).busy = false ∧
      (s.issue w).regs = s.regs ∧ (s.issue w).rngpos = s.rngpos) ∧
  (∀ m : Mnemonic, (0x00000000 : CmdWord) &&& m.format.mask ≠ m.pattern ∧ (0xFFFFFFFF : CmdWord) &&& m.format.mask ≠ m.pattern)

/-- The worked encodings of 30_encoding.md section 7, one word of every command, and the reserved words of V-EN-15 to V-EN-22 (R76), which
are rejected by name. -/
def Obligations.WorkedEncodingsDecode : Prop :=
  (decode 0x00068801 = .command (.modmul 0 1 2 3) ∧ decode 0x00068C02 = .command (.montmul 4 1 2 3) ∧
    decode 0x00068803 = .command (.modexp 0 1 2 3) ∧ decode 0x00001C04 = .command (.montr2 4 3) ∧
    decode 0x00003710 = .command (.randbits 7 6) ∧ decode 0x00008811 = .command (.randbtw 0 1 2) ∧
    decode 0x00004320 = .command (.mrtest 3 0 1) ∧ decode 0x0001FF21 = .command (.genprime 7 7 7)) ∧
  decode 0x00000000 = .illegal .unallocatedOpcode ∧ decode 0xFFFFFFFF = .illegal .unallocatedOpcode ∧
  decode 0x00000005 = .illegal .unallocatedOpcode ∧ decode 0x00000012 = .illegal .unallocatedOpcode ∧
  decode 0x00100001 = .illegal .nonzeroZ ∧ decode 0x00020010 = .illegal .nonzeroRc ∧
  decode 0x00020021 = .illegal .nonzeroRc ∧ decode 0x00004010 = .illegal .nonzeroRb

/-! ### The step -/

/-- A step of a running block is one step of the latched command (R33, R34), whether the host is silent, gives the engine a turn, or
polls; the command placed by `withFetchWord` is the one that runs next (log 8); an idle block does nothing until the host writes `CMD`
(R191); and a host whose list is exhausted goes on as its tail says, for ever if it repeats or is free (R202, log 5). -/
def Obligations.StepRunsTheLatchedCommand : Prop :=
  (∀ (s : State) (r : Running) (i : Instr), s.eng = .run r → decode r.word = .command i →
    (s.inbox = [] → s.tail = .silent → step s = exec i s) ∧
    (∀ rest, s.inbox = .engineTurn :: rest → step s = exec i { s with inbox := rest }) ∧
    (∀ rest, s.inbox = .waitIdle :: rest → step s = exec i s)) ∧
  (∀ (s : State) (n w : Nat) (i : Instr), decodeTableWord n w = some i →
    step (s.withFetchWord n w) = exec i (s.withFetchWord n w)) ∧
  (∀ s : State, s.eng = .idle → (s.inbox = [] → s.tail = .silent → step s = .next s) ∧
    ∀ rest, s.inbox = .engineTurn :: rest → step s = .next { s with inbox := rest }) ∧
  (∀ s : State, s.inbox = [] →
    (∀ events, s.tail = .again events → step s = step { s with inbox := events }) ∧
    (∀ n, s.tail = .free n →
      step s = step { s with inbox := [Config.hostEvent s.params.blockId n], tail := .free (n + 1) }))

/-- R33: what a write of `CMD` does: dropped, `IllegalCommand`, or accepted with every source latched at once. -/
def Obligations.IssueOfACommandWord : Prop :=
  ∀ (s : State) (w : CmdWord) (rest : List HostEvent), s.inbox = .write s.params.base 4 w :: rest →
    (s.busy = true ∨ s.status.err = true →
      step s = .next { s with inbox := rest, status := { s.status with drop := true } }) ∧
    (s.busy = false → s.status.err = false → ∀ why, decode w = .illegal why →
      step s = .next { s with
        inbox := rest, status := { s.status with done := false, err := true }, cause := { code := 0x01, kind := 5 },
        eng := .idle, ctrl := { cancel := false } }) ∧
    (s.busy = false → s.status.err = false → ∀ i, decode w = .command i →
      ∃ r : Running, step s = .next { s with inbox := rest, status := { s.status with done := false }, eng := .run r } ∧
        r.word = w ∧ r.a = s.x i.ra ∧ (∀ q, i.rb = some q → r.b = s.x q) ∧ (∀ q, i.rc = some q → r.c = s.x q) ∧ r.mu = startMu i)

/-! ### The register space -/

/-- R52: the operand windows lie at `OPW(i, j)`, are reached there, and fill the offsets from `0x1000` to the end of the space. -/
def Obligations.OperandWindowsFillTheSpace : Prop :=
  (∀ (p : Params) (i : Reg) (j : Nat), j < p.limbs →
    locate p (p.base + (0x1000 + i.val * (p.width / 8) + 4 * j)) 4 = .found (.window i j)) ∧
  (∀ (p : Params) (off : Nat), 0x1000 ≤ off → off < 0x1000 + p.width → off % 4 = 0 →
    ∃ (i : Reg) (j : Nat), j < p.limbs ∧ off = 0x1000 + i.val * (p.width / 8) + 4 * j)

/-- R51, R26, R32: the control registers and the reserved offsets, and that `CMD` and the reserved offsets read 0 and reserved offsets ignore
writes. -/
def Obligations.ControlRegistersAreAtTheirOffsets : Prop :=
  (∀ p : Params, locate p p.base 4 = .found .cmd ∧ locate p (p.base + 0x004) 4 = .found .status ∧
    locate p (p.base + 0x008) 4 = .found .cause ∧ locate p (p.base + 0x00C) 4 = .found .ctrl ∧
    ∀ off, 0x010 ≤ off → off ≤ 0xFFC → off % 4 = 0 → locate p (p.base + off) 4 = .found .reserved) ∧
  (∀ (s : State) (v : Limb), readRegion s .cmd = 0 ∧ readRegion s .reserved = 0 ∧ writeRegion s .reserved v = s)

/-- R55, R56: the aligned 32-bit accesses inside the space have a step, and no other access has one. That an aligned access outside the space
is refused as `accessOutside` is the model's reading (log 10): R53 leaves it to the platform, and IB23 says "refuse". -/
def Obligations.OnlyAlignedWordAccessesAreDefined : Prop :=
  ∀ (s : State) (addr size : Nat) (v : Limb) (rest : List HostEvent),
    (size = 4 ∧ addr % 4 = 0 → s.params.base ≤ addr → addr < s.params.base + s.params.spaceBytes →
      (∃ t, step { s with inbox := .read addr size :: rest } = .next t) ∧
      (∃ t, step { s with inbox := .write addr size v :: rest } = .next t)) ∧
    (¬(size = 4 ∧ addr % 4 = 0) →
      step { s with inbox := .read addr size :: rest } = .refused .accessUndefined ∧
      step { s with inbox := .write addr size v :: rest } = .refused .accessUndefined) ∧
    (size = 4 ∧ addr % 4 = 0 → ¬(s.params.base ≤ addr ∧ addr < s.params.base + s.params.spaceBytes) →
      step { s with inbox := .read addr size :: rest } = .refused .accessOutside ∧
      step { s with inbox := .write addr size v :: rest } = .refused .accessOutside)

/-- R54: a register is the sum of its limbs, a read returns the slice `[32j+31 : 32j]`, an honoured write replaces that slice, and byte `k`
of a bus word is its bits `8k+7 : 8k`. -/
def Obligations.LimbsAreLittleEndian : Prop :=
  (∀ (s : State) (i : Reg) (j : Nat), s.Inv → j < s.params.limbs →
    s.x i = ((List.range s.params.limbs).map (fun k => (readRegion s (.window i k)).toNat * 2 ^ (32 * k))).sum ∧
    (readRegion s (.window i j)).toNat = bits (s.x i) (32 * j + 31) (32 * j) ∧
    ∀ v : Limb, s.busy = false →
      (writeRegion s (.window i j) v).x i = s.x i - (readRegion s (.window i j)).toNat * 2 ^ (32 * j) + v.toNat * 2 ^ (32 * j) ∧
      ∀ q : Reg, q ≠ i → (writeRegion s (.window i j) v).x q = s.x q) ∧
  (∀ (v : Limb) (k : Nat), k ≤ 3 → (busByte v k).toNat = bits v.toNat (8 * k + 7) (8 * k))

/-- R59: while `BUSY = 1`, writes to an operand limb and to `CMD` are ignored with `DROP`, reads return the current limb, and `STATUS` and
`CTRL` are honoured; while `ERR = 1`, operand limbs are written normally and only `CMD` writes are dropped. -/
def Obligations.AccessesWhileACommandRuns : Prop :=
  (∀ (s : State) (i : Reg) (j : Nat) (v : Limb), s.busy = true →
    writeRegion s (.window i j) v = { s with status := { s.status with drop := true } } ∧
    writeRegion s .cmd v = { s with status := { s.status with drop := true } } ∧
    readRegion s (.window i j) = (s.operand i).getD j 0 ∧
    writeRegion s .status v = s.writeStatus v ∧ writeRegion s .ctrl v = s.writeCtrl v ∧
    readRegion s .status = s.statusWord ∧ readRegion s .cause = s.cause.word ∧ readRegion s .ctrl = s.ctrlWord) ∧
  (∀ (s : State) (i : Reg) (j : Nat) (v : Limb), s.busy = false → s.status.err = true →
    writeRegion s (.window i j) v = { s with regs := s.regs.set i.val ((s.operand i).set j v) i.isLt } ∧
    readRegion s (.window i j) = (s.operand i).getD j 0 ∧
    writeRegion s .cmd v = { s with status := { s.status with drop := true } }) ∧
  (∀ (s t : State) (r : Running) (i : Instr) (q : Reg) (j : Nat), s.eng = .run r → exec i s = .next t → t.busy = true →
    readRegion t (.window q j) = readRegion s (.window q j))

/-- R27: the bits of `STATUS` as read, and the write-one-to-clear effect of a write, which while `BUSY = 1` can change only `DROP`. -/
def Obligations.StatusRegisterBits : Prop :=
  (∀ s : State, s.statusWord.getLsbD 0 = s.busy ∧ s.statusWord.getLsbD 1 = s.status.done ∧ s.statusWord.getLsbD 2 = s.status.err ∧
    s.statusWord.getLsbD 3 = s.status.drop ∧ ∀ k, 4 ≤ k → s.statusWord.getLsbD k = false) ∧
  (∀ s : State, s.busy = true ↔ s.eng ≠ .idle) ∧
  (∀ (s : State) (v : Limb), writeRegion s .status v = { s with
    status := {
      done := if v.getLsbD 1 then false else s.status.done
      err := if v.getLsbD 2 then false else s.status.err
      drop := if v.getLsbD 3 then false else s.status.drop }
    cause := if v.getLsbD 2 then { code := 0, kind := 0 } else s.cause }) ∧
  (∀ (s : State) (v : Limb), s.Inv → s.busy = true →
    (writeRegion s .status v).status = { s.status with drop := if v.getLsbD 3 then false else s.status.drop } ∧
    (writeRegion s .status v).cause.word = s.cause.word)

/-- R30: the layout of `CAUSE`, its reset value, its writing by a fault (both fields at once), its clearing with `STATUS.ERR`, and that the
host's write to it is ignored. -/
def Obligations.CauseRegisterLayout : Prop :=
  (∀ s : State, ∀ k, (readRegion s .cause).getLsbD k =
    if k < 8 then s.cause.code.getLsbD k else if k < 12 then s.cause.kind.getLsbD (k - 8) else false) ∧
  (∀ (s : State) (v : Limb), writeRegion s .cause v = s) ∧
  (∀ (s : State) (v : Limb), v.getLsbD 2 = true → readRegion (writeRegion s .status v) .cause = 0) ∧
  (∀ s : State, s.Inv → s.status.err = false → readRegion s .cause = 0) ∧
  (∀ (s t : State) (i : Instr), exec i s = .next t → s.status.err = false → t.status.err = true →
    ∃ f : FaultCause, (readRegion t .cause).toNat = f.code.toNat + 2 ^ 8 * f.kind.code.toNat) ∧
  (∀ (p : Params) (e : Nat) (old : List Operand), readRegion (State.resetAt p e old) .cause = 0)

/-- R31: `CTRL` as read and written, with and without `HAS_CANCEL`, and its clearing by the end of any command. -/
def Obligations.CtrlRegisterCancelBit : Prop :=
  (∀ s : State, s.params.hasCancel = false → readRegion s .ctrl = 0 ∧ ∀ v, writeRegion s .ctrl v = s) ∧
  (∀ s : State, s.params.hasCancel = true →
    (∀ k, (readRegion s .ctrl).getLsbD k = (decide (k = 0) && s.ctrl.cancel)) ∧
    (∀ v : Limb, v.getLsbD 0 = true → s.busy = true → writeRegion s .ctrl v = { s with ctrl := { cancel := true } }) ∧
    (∀ v : Limb, v.getLsbD 0 = true → s.busy = false → writeRegion s .ctrl v = s) ∧
    (∀ v : Limb, v.getLsbD 0 = false → writeRegion s .ctrl v = { s with ctrl := { cancel := false } })) ∧
  (∀ (s t : State) (i : Instr), exec i s = .next t → t.busy = false → t.ctrl.cancel = false) ∧
  (∀ s : State, s.Inv → s.busy = false → s.ctrl.cancel = false) ∧
  (∀ (p : Params) (e : Nat) (old : List Operand), readRegion (State.resetAt p e old) .ctrl = 0)

/-- R57: a read has no effect beyond the value it returns, and every write but that of `CMD` is idempotent. -/
def Obligations.SideEffectsOfAccesses : Prop :=
  (∀ (s t : State) (addr size : Nat) (rest : List HostEvent), s.inbox = .read addr size :: rest → step s = .next t →
    ∃ g, locate s.params addr size = .found g ∧ t = { s with inbox := rest, outbox := s.outbox ++ [readRegion s g] }) ∧
  (∀ (s : State) (g : Region) (v : Limb), g ≠ .cmd → writeRegion (writeRegion s g v) g v = writeRegion s g v)

/-- R176, R20, R35, R36: no host access but a write to `CMD` moves the engine, and none at all moves the cursor; what the host reads depends
neither on the cursor nor on the latches nor on the loop variables. -/
def Obligations.HostCannotReachTheEngine : Prop :=
  (∀ (s : State) (g : Region) (v : Limb),
    (writeRegion s g v).rngpos = s.rngpos ∧ (writeRegion s g v).params = s.params ∧ (writeRegion s g v).epoch = s.epoch ∧
    (g ≠ .cmd → (writeRegion s g v).eng = s.eng) ∧ (s.busy = true → (writeRegion s g v).eng = s.eng) ∧
    (∀ i : Reg, (∀ j, g ≠ .window i j) → (writeRegion s g v).operand i = s.operand i)) ∧
  (∀ (s : State) (r q : Running) (c : Nat) (g : Region), s.eng = .run r →
    readRegion { s with eng := .run q, rngpos := c } g = readRegion s g)

/-- R80: `WR xi, v` on an idle block sets `x[i] = v` and leaves everything else alone; `RD xi` returns the limbs of `x[i]`, least
significant first, and changes nothing. -/
def Obligations.WrAndRdReachTheRegister : Prop :=
  (∀ (s : State) (i : Reg) (v : Nat), s.Inv → s.busy = false → v < 2 ^ s.params.width → s.inbox = wrEvents s.params i v →
    ∃ t, Host.Core.run Sys2Proof.core s.params.limbs s = .next t ∧ t.x i = v ∧ (∀ q : Reg, q ≠ i → t.x q = s.x q) ∧
      t.status = s.status ∧ t.cause = s.cause ∧ t.eng = .idle ∧ t.rngpos = s.rngpos ∧ t.inbox = [] ∧ t.tail = s.tail ∧
      t.outbox = s.outbox) ∧
  (∀ (s : State) (i : Reg), s.Inv → s.inbox = rdEvents s.params i →
    Host.Core.run Sys2Proof.core s.params.limbs s = .next { s with inbox := [], outbox := s.outbox ++ s.operand i })

/-! ### Faults -/

/-- R166: the value of `CAUSE` after each fault, which faults a command can raise, and that no other value is ever written. -/
def Obligations.FaultTable : Prop :=
  (FaultCause.recorded .illegalCommand).word = 0x00000501 ∧ (FaultCause.recorded .widthExceeded).word = 0x00000502 ∧
  (FaultCause.recorded .cancelled).word = 0x00000503 ∧ (FaultCause.recorded .primeBitsTooSmall).word = 0x00000110 ∧
  (FaultCause.recorded .invalidRounds).word = 0x00000111 ∧ (FaultCause.recorded .negativeExponent).word = 0x00000220 ∧
  (FaultCause.recorded .zeroExponent).word = 0x00000221 ∧ (FaultCause.recorded .zeroModulus).word = 0x00000222 ∧
  (FaultCause.recorded .evenModulus).word = 0x00000223 ∧ (FaultCause.recorded .operandOutOfRange).word = 0x00000330 ∧
  (FaultCause.recorded .emptyRange).word = 0x00000331 ∧
  (∀ (s t : State) (i : Instr), exec i s = .next t → s.status.err = false → t.status.err = true →
    ∃ f ∈ raisable i, t.cause = f.recorded ∧ (f = .cancelled → s.params.hasCancel = true) ∧
      (f = .zeroExponent → s.params.zeroExpFaults = true)) ∧
  (∀ s t : State, step s = .next t →
    t.cause = s.cause ∨ t.cause.word = 0 ∨ ∃ f : FaultCause, f ≠ .negativeExponent ∧ t.cause = f.recorded)

/-- R173: a command that faults records the cause, sets `ERR`, idles the engine, clears `CANCEL`, and changes nothing else: no operand
register, not `DROP`, not `rngpos`; `DONE` stays 0; and for `IllegalCommand` the change happens within the write to `CMD`. -/
def Obligations.FaultEntry : Prop :=
  (∀ (s t : State) (i : Instr), exec i s = .next t → s.status.err = false → t.status.err = true →
    (∃ f : FaultCause, t = { s with
      cause := { code := f.code, kind := f.kind.code }, status := { s.status with err := true }, eng := .idle,
      ctrl := { cancel := false } }) ∧ t.busy = false ∧ (s.Inv → t.status.done = false)) ∧
  (∀ (s : State) (w : CmdWord) (why : Illegal), s.busy = false → s.status.err = false → decode w = .illegal why →
    writeRegion s .cmd w = { s with
      cause := { code := 0x01, kind := 5 }, status := { s.status with done := false, err := true }, eng := .idle,
      ctrl := { cancel := false } })

/-- R172: a write of `CMD` is dropped, else the word is illegal, else the command is accepted; at its entry every command reports the first
operand check that holds, in the fixed order, before it draws anything, and no fault where none holds; after that only `Cancelled` can
occur. -/
def Obligations.ChecksReportTheFirstFault : Prop :=
  (∀ (s : State) (w : CmdWord),
    (s.busy = true ∨ s.status.err = true → s.issue w = { s with status := { s.status with drop := true } }) ∧
    (s.busy = false → s.status.err = false →
      (∀ why, decode w = .illegal why → (s.issue w).status.err = true ∧ (s.issue w).cause = FaultCause.recorded .illegalCommand) ∧
      (∀ i, decode w = .command i → (s.issue w).busy = true ∧ (s.issue w).status.err = false ∧ (s.issue w).cause = s.cause))) ∧
  (∀ (s : State) (i : Instr) (r : Running), s.eng = .run r → r.mu = startMu i →
    (∀ f, firstFault s.params i r = some f → exec i s = .next (faulted s f)) ∧
    (firstFault s.params i r = none → ∃ t, exec i s = .next t ∧ t.status.err = s.status.err ∧ t.cause = s.cause)) ∧
  (∀ (s t : State) (i : Instr) (r : Running), s.eng = .run r → unitOk s.params i r → r.mu ≠ startMu i → exec i s = .next t →
    s.status.err = false → t.status.err = true → t.cause = FaultCause.recorded .cancelled)

/-- R175: while a fault is recorded nothing but the host's clearing of `ERR` or reset changes it: faults do not nest. -/
def Obligations.RecordedFaultStays : Prop :=
  ∀ s t : State, s.Inv → s.status.err = true → step s = .next t →
    (∀ rest, s.refill.inbox ≠ .reset :: rest) →
    (∀ addr size v rest, s.refill.inbox = .write addr size v :: rest → locate s.params addr size = .found .status → v.getLsbD 2 = false) →
    t.status.err = true ∧ t.cause = s.cause ∧ t.eng = .idle ∧ t.rngpos = s.rngpos

/-! ### Invariants -/

/-- R39, R38: the state after any reset, of any block, meets the invariants. -/
def Obligations.ResetMeetsTheInvariants : Prop :=
  ∀ (p : Params) (e : Nat) (old : List Operand), (State.resetAt p e old).Inv ∧ (State.resetAt p e old).EngineInv

/-- R39 with the widths of R21 and R33: every step keeps the invariants of the state. -/
def Obligations.StepKeepsStateInvariant : Prop :=
  ∀ s t : State, s.Inv → step s = .next t → t.Inv

/-- Every step keeps the loop invariants of the running unit: R99 (Montgomery multiplier), R113 (exponentiation), R138 to R141 and R147
item 4 (Miller-Rabin; a `false` verdict only for a number that is not prime), R156 and R159 (prime generator). -/
def Obligations.StepKeepsEngineInvariant : Prop :=
  ∀ s t : State, s.EngineInv → step s = .next t → t.EngineInv

/-- R190, R192, R38: reset in any state gives the reset state, with a fresh stream (the free values of a new epoch, log 4) and unspecified
registers (free values that are given the old contents, which are kept or lost, log 3), and the host's own program goes on; nothing else
resets the block, and no step changes its parameters. -/
def Obligations.ResetFromAnyState : Prop :=
  (∀ (s : State) (rest : List HostEvent), s.inbox = .reset :: rest →
    step s = .next { State.resetAt s.params (s.epoch + 1) s.regs.toList with inbox := rest, tail := s.tail, outbox := s.outbox }) ∧
  (∀ (p : Params) (e : Nat) (old : List Operand), (State.resetAt p e old).statusWord = 0 ∧ (State.resetAt p e old).cause.word = 0 ∧
    (State.resetAt p e old).ctrlWord = 0 ∧ (State.resetAt p e old).eng = .idle ∧ (State.resetAt p e old).rngpos = 0) ∧
  (∀ s t : State, step s = .next t → t.params = s.params ∧ ((∀ rest, s.refill.inbox ≠ .reset :: rest) → t.epoch = s.epoch))

/-! ### Frames and independence -/

/-- R22, R34, R174: an engine step of any command changes no operand register but the destination, and that one only by completing; it
changes no parameter, no stream, nothing of the host's, not `DROP`; the multiplier and the exponentiation leave the cursor alone, and the
others only move it forward. -/
def Obligations.EngineStepFrame : Prop :=
  ∀ (s t : State) (i : Instr), exec i s = .next t →
    (∀ q : Reg, q ≠ i.rd → t.operand q = s.operand q) ∧
    (t.busy = true ∨ t.cause ≠ s.cause → t.regs = s.regs) ∧
    (t.busy = true → t.status = s.status ∧ t.cause = s.cause ∧ t.ctrl = s.ctrl) ∧
    t.status.drop = s.status.drop ∧ t.params = s.params ∧ t.epoch = s.epoch ∧ t.injected = s.injected ∧ t.inbox = s.inbox ∧
    t.tail = s.tail ∧ t.outbox = s.outbox ∧ s.rngpos ≤ t.rngpos ∧
    (∀ rd ra rb rc, i = .modmul rd ra rb rc ∨ i = .montmul rd ra rb rc ∨ i = .modexp rd ra rb rc → t.rngpos = s.rngpos) ∧
    (∀ rd ra, i = .montr2 rd ra → t.rngpos = s.rngpos)

/-- R34, R60 item 2: what a running command does depends on its latched operands, the parameters, `CANCEL` and the chunks it draws (those
from the cursor before the step to the cursor after it), and on nothing else of the stream, in the register file, in `STATUS`, in `CAUSE`
or of the host. -/
def Obligations.ResultDependsOnLatchesAndChunksOnly : Prop :=
  ∀ (s s' t t' : State) (i : Instr), exec i s = .next t → exec i s' = .next t' →
    s'.params = s.params → s'.eng = s.eng → s'.rngpos = s.rngpos → s'.ctrl = s.ctrl →
    (∀ j, s.rngpos ≤ j → j < t.rngpos → s'.xi j = s.xi j) →
    s.status.err = false → s'.status.err = false →
    t'.eng = t.eng ∧ t'.rngpos = t.rngpos ∧ t'.status.err = t.status.err ∧
    (t.status.err = true → t'.cause = t.cause) ∧
    (t.busy = false → t.status.err = false → t'.operand i.rd = t.operand i.rd)

/-- R130, R182: blocks of one platform share nothing: a step of one leaves every other as it was. That a platform is a list of blocks with
distinct numbers of which one moves at a time is the model's choice (log 17): R182 gives a block no identifier. -/
def Obligations.BlocksShareNothing : Prop :=
  ∀ (q u : Platform) (k : Nat), platformStep q k = .next u →
    u.length = q.length ∧ (∀ n, n ≠ k → u[n]? = q[n]?) ∧ (∀ s, q[k]? = some s → ∃ t, step s = .next t ∧ u[k]? = some t) ∧
    (platformDistinct q = true → platformDistinct u = true)

/-! ### Unit U1 -/

/-- R91, R92, R29: `MODMUL` completes in its first step (log 7) with `modmul` of its operands, the exact product reduced, for every non-zero modulus, even
or odd, and with modulus 0 it takes the fault `ZeroModulus`. -/
def Obligations.ModmulCompletes : Prop :=
  (∀ a b m : Nat, (m = 0 → modmul a b m = .err .zeroModulus) ∧
    (1 ≤ m → ∃ r, modmul a b m = .ok r ∧ r < m ∧ r = a * b % m ∧ (m = 1 → r = 0))) ∧
  (∀ (s : State) (r : Running) (rd ra rb rc : Reg), s.Inv → s.eng = .run r →
    (r.c ≠ 0 → ∃ t v, exec (.modmul rd ra rb rc) s = .next t ∧ modmul r.a r.b r.c = .ok v ∧ Completed s t rd v ∧
      t.rngpos = s.rngpos) ∧
    (r.c = 0 → exec (.modmul rd ra rb rc) s = .next (faulted s .zeroModulus)))

/-- R33, R82, R92: `MODMUL` written to `CMD` on an idle block by a host that does nothing after it (log 5): two steps later (log 7)
`x[rd]` is the product of the values the sources had when the command was accepted, whichever of the four register fields name the same
register. -/
def Obligations.IssuedModmulWritesTheProduct : Prop :=
  ∀ (s : State) (rd ra rb rc : Reg), s.Inv → s.busy = false → s.status.err = false → s.x rc ≠ 0 → s.tail = .silent →
    s.inbox = [.write s.params.base 4 (encode (.modmul rd ra rb rc))] →
    ∃ t, Host.Core.run Sys2Proof.core 2 s = .next t ∧ t.x rd = s.x ra * s.x rb % s.x rc ∧
      (∀ q : Reg, q ≠ rd → t.x q = s.x q) ∧ t.statusWord.getLsbD 0 = false ∧ t.statusWord.getLsbD 1 = true ∧
      t.statusWord.getLsbD 2 = false ∧ t.rngpos = s.rngpos

/-- R94: `montk(m)` is the limb-rounded bit length of `m`: a multiple of 32, the least with `m < 2^montk(m)`. -/
def Obligations.MontkIsTheLimbRoundedLength : Prop :=
  ∀ m : Nat, 1 ≤ m → montk m % 32 = 0 ∧ m < 2 ^ montk m ∧ (∀ k, k % 32 = 0 → m < 2 ^ k → montk m ≤ k) ∧
    (m < 2 ^ 32 → montk m = 32) ∧ (2 ^ 32 ≤ m → m < 2 ^ 64 → montk m = 64)

/-- R95, R99: the checks of `montmul` in order, and its value: the unique `t < m` with `t * 2^montk(m) ≡ a * b (mod m)`, which the radix-2
interleaved loop returns (R99, the spec's own inference: "derived: from the invariant just stated"). -/
def Obligations.MontmulFunction : Prop :=
  ∀ a b m : Nat, (m = 0 → montmul a b m = .err .zeroModulus) ∧
    (m ≠ 0 → m % 2 = 0 → montmul a b m = .err .evenModulus) ∧
    (m % 2 = 1 → m ≤ a ∨ m ≤ b → montmul a b m = .err .operandOutOfRange) ∧
    (m % 2 = 1 → a < m → b < m → ∃ t, montmul a b m = .ok t ∧ t < m ∧ t * 2 ^ montk m % m = a * b % m ∧
      (∀ u, u < m → u * 2 ^ montk m % m = a * b % m → u = t) ∧
      montFinish m (montLoop a b m (montk m) { i := 0, acc := 0 }) = t)

/-- R96, R99: at the end of its loop `MONTMUL` completes with the Montgomery product; before it, every loop step goes on. -/
def Obligations.MontmulCompletes : Prop :=
  ∀ (s : State) (r : Running) (v : MontVars) (rd ra rb rc : Reg), s.Inv → s.eng = .run r → r.mu = .mont v → montOk r.a r.b r.c v →
    (v.i = montk r.c → ∃ t u, exec (.montmul rd ra rb rc) s = .next t ∧ Completed s t rd u ∧ u < r.c ∧
      u * 2 ^ montk r.c % r.c = r.a * r.b % r.c ∧ t.rngpos = s.rngpos) ∧
    (v.i < montk r.c → ∃ w, exec (.montmul rd ra rb rc) s = .next { s with eng := .run { r with mu := .mont w } } ∧
      w.i = v.i + 1 ∧ montOk r.a r.b r.c w)

/-- R96: a whole run of `MONTMUL` on legal operands ends, with the value of `montmul`; the number of steps is the model's (log 7). -/
def Obligations.MontmulRunEnds : Prop :=
  ∀ (s : State) (r : Running) (rd ra rb rc : Reg), s.Accepted (.montmul rd ra rb rc) r → r.c % 2 = 1 → r.a < r.c → r.b < r.c →
    ∃ t u, Host.Core.run Sys2Proof.core (montk r.c + 2) s = .next t ∧ montmul r.a r.b r.c = .ok u ∧ Completed s t rd u ∧
      t.rngpos = s.rngpos

/-- R97, R98: the errors of `montr2` in order, its value, which converts into Montgomery form, and `MONTR2` completes in its first step
(log 7) with that value, for every odd modulus. -/
def Obligations.MontrTwoCompletes : Prop :=
  (∀ m : Nat, (m = 0 → montr2 m = .err .zeroModulus) ∧ (m ≠ 0 → m % 2 = 0 → montr2 m = .err .evenModulus) ∧
    (m % 2 = 1 → montr2 m = .ok (2 ^ (2 * montk m) % m) ∧
      ∀ a, a < m → montmul a (2 ^ (2 * montk m) % m) m = .ok (a * 2 ^ montk m % m))) ∧
  (∀ (s : State) (r : Running) (rd ra : Reg), s.Inv → s.eng = .run r → r.a % 2 = 1 →
    ∃ t, exec (.montr2 rd ra) s = .next t ∧ Completed s t rd (2 ^ (2 * montk r.a) % r.a) ∧ t.rngpos = s.rngpos ∧
      (r.a = 1 → t.x rd = 0))

/-- R100: the five laws that relate the two products, for an odd modulus `m ≥ 3` with `R = 2^montk(m)` and `r2 = montr2(m)`. -/
def Obligations.MontgomeryLaws : Prop :=
  ∀ a b m r2 : Nat, m % 2 = 1 → 3 ≤ m → a < m → b < m → montr2 m = .ok r2 →
    montmul a r2 m = .ok (a * 2 ^ montk m % m) ∧
    montmul (a * 2 ^ montk m % m) (b * 2 ^ montk m % m) m = .ok (a * b * 2 ^ montk m % m) ∧
    montmul (a * 2 ^ montk m % m) 1 m = .ok a ∧
    (∃ t, montmul a b m = .ok t ∧ montmul t r2 m = modmul a b m) ∧
    montmul a b m = montmul b a m

/-! ### Unit U2 -/

/-- R112, R111, R113: the errors of `modexp` over the integers in the order they are tested, its value otherwise, and that the
square-and-multiply loop computes the power (R113, the spec's own inference: "derived: loop invariant"). -/
def Obligations.ModexpFunction : Prop :=
  (∀ (z : Bool) (base exp m : Int),
    (m ≤ 0 → modexp z base exp m = .err .zeroModulus) ∧
    (1 ≤ m → exp < 0 → modexp z base exp m = .err .negativeExponent) ∧
    (1 ≤ m → exp = 0 → z = true → modexp z base exp m = .err .zeroExponent) ∧
    (1 ≤ m → 0 ≤ exp → ¬(exp = 0 ∧ z = true) →
      ∃ v : Nat, modexp z base exp m = .ok v ∧ (v : Int) < m ∧ (v : Int) = base ^ exp.toNat % m ∧ (m = 1 → v = 0))) ∧
  (∀ base exp m : Nat, 1 ≤ m → powMod base exp m = base ^ exp % m)

/-- R114, R115: `MODEXP` completes on the loop step at which `exp = 0` is seen, with the power; for modulus 1 it completes with 0 at its
entry; every other loop step goes on, with the exponent halved. -/
def Obligations.ModexpCompletes : Prop :=
  ∀ (s : State) (r : Running) (rd ra rb rc : Reg), s.Inv → s.eng = .run r →
    (∀ v, r.mu = .exp v → expOk r.a r.b r.c v → v.exp = 0 →
      ∃ t, exec (.modexp rd ra rb rc) s = .next t ∧ Completed s t rd (r.a ^ r.b % r.c) ∧ t.rngpos = s.rngpos) ∧
    (∀ v, r.mu = .exp v → expOk r.a r.b r.c v → v.exp ≠ 0 →
      ∃ w, exec (.modexp rd ra rb rc) s = .next { s with eng := .run { r with mu := .exp w } } ∧ w.exp = v.exp / 2 ∧
        expOk r.a r.b r.c w) ∧
    (r.mu = .start → r.c = 1 → ¬(r.b = 0 ∧ s.params.zeroExpFaults = true) →
      ∃ t, exec (.modexp rd ra rb rc) s = .next t ∧ Completed s t rd 0 ∧ t.rngpos = s.rngpos)

/-- R111, R114: a whole run of `MODEXP` ends, with the power, for every exponent the parameter allows; the number of steps is the model's
(log 7). -/
def Obligations.ModexpRunEnds : Prop :=
  ∀ (s : State) (r : Running) (rd ra rb rc : Reg), s.Accepted (.modexp rd ra rb rc) r → r.c ≠ 0 →
    ¬(r.b = 0 ∧ s.params.zeroExpFaults = true) →
    ∃ t, Host.Core.run Sys2Proof.core (bitlen r.b + 2) s = .next t ∧ Completed s t rd (r.a ^ r.b % r.c) ∧ t.rngpos = s.rngpos

/-- R116 laws 1 to 5, over the function of R112; `z` is the parameter `ZERO_EXP_FAULTS`, whose default is `false` (R13). Where it is
`true` the laws are about exponents that are not 0. Law 5: for an odd modulus the loop on Montgomery forms gives the same value; for an
even one it is impossible. -/
def Obligations.ModexpLaws : Prop :=
  ∀ (z : Bool) (base e f m : Nat), 2 ≤ m →
    modexp false base 0 m = .ok 1 ∧ modexp z base 1 m = .ok (base % m) ∧
    (¬(e = 0 ∧ z = true) → ¬(f = 0 ∧ z = true) →
      ∃ u v, modexp z base e m = .ok u ∧ modexp z base f m = .ok v ∧ modexp z base (e + f) m = modmul u v m) ∧
    (¬(e = 0 ∧ z = true) → ∃ t, modexp z base e m = .ok t ∧ modexp z base (2 * e) m = modmul t t m) ∧
    modexp z base e m = modexp z (base % m) e m ∧
    (m % 2 = 1 → ¬(e = 0 ∧ z = true) → montModexp base e m = modexp z base e m) ∧
    (m % 2 = 0 → montModexp base e m = .err .evenModulus)

/-! ### Unit U3 -/

/-- R123: `random_bits(k)` consumes exactly `ceil(k / CW)` chunks, the first one most significant, and keeps the low `k` bits. -/
def Obligations.RandomBitsConcatenatesChunks : Prop :=
  ∀ (cw : Nat) (xi : Nat → Nat) (k c : Nat), 1 ≤ cw → (∀ i, xi i < 2 ^ cw) →
    (randomBits cw xi k c).1 =
      ((List.range (ceilDiv k cw)).map (fun j => xi (c + j) * 2 ^ (cw * (ceilDiv k cw - 1 - j)))).sum % 2 ^ k ∧
    (randomBits cw xi k c).2 = c + ceilDiv k cw ∧ (randomBits cw xi k c).1 < 2 ^ k ∧
    k ≤ cw * ceilDiv k cw ∧ cw * ceilDiv k cw < k + cw ∧ randomBits cw xi 0 c = (0, c)

/-- R124: `RANDBITS` completes in its first step (log 7) with `random_bits(k)` for every `k ≤ W` and advances the cursor by `ceil(k / CW)`. -/
def Obligations.RandbitsCompletes : Prop :=
  ∀ (s : State) (r : Running) (rd ra : Reg), s.Inv → s.eng = .run r → r.a ≤ s.params.width →
    ∃ t, exec (.randbits rd ra) s = .next t ∧ Completed s t rd (randomBits s.params.chunkBits s.xi r.a s.rngpos).1 ∧
      t.x rd < 2 ^ r.a ∧ t.rngpos = s.rngpos + ceilDiv r.a s.params.chunkBits ∧ (r.a = 0 → t.x rd = 0 ∧ t.rngpos = s.rngpos)

/-- R125, R126: `b` is the least with `2^b ≥ range`, and the rejection loop returns `low +` the first accepted draw, having consumed the
chunks of every draw up to it. R126's loop has no bound; the bound `j < fuel` is the model's (log 12). -/
def Obligations.RejectionLoopTakesTheFirstAcceptedDraw : Prop :=
  (∀ low high : Nat, low ≤ high → 1 ≤ betweenRange low high ∧ betweenRange low high ≤ 2 ^ betweenBits low high ∧
    (∀ b, betweenRange low high ≤ 2 ^ b → betweenBits low high ≤ b) ∧ (low = high → betweenBits low high = 0)) ∧
  (∀ (cw : Nat) (xi : Nat → Nat) (low high fuel c v c' : Nat), low ≤ high →
    (betweenLoop cw xi low high fuel c = some (v, c') ↔
      ∃ j, j < fuel ∧ c' = c + (j + 1) * ceilDiv (betweenBits low high) cw ∧
        v = low + (betweenDraw cw xi low high (c + j * ceilDiv (betweenBits low high) cw)).1 ∧ low ≤ v ∧ v ≤ high ∧
        ∀ k, k < j → high - low + 1 ≤ (betweenDraw cw xi low high (c + k * ceilDiv (betweenBits low high) cw)).1))

/-- R126, R128: a step of `RANDBTW` (one draw: log 7) with an accepted draw completes with `low +` the draw, which lies in `[low, high]`; with a rejected draw
it only moves the cursor. -/
def Obligations.RandbtwCompletesOnAnAcceptedDraw : Prop :=
  ∀ (s : State) (r : Running) (rd ra rb : Reg), s.Inv → s.eng = .run r → r.a ≤ r.b →
    ((betweenDraw s.params.chunkBits s.xi r.a r.b s.rngpos).1 < r.b - r.a + 1 →
      ∃ t, exec (.randbtw rd ra rb) s = .next t ∧
        Completed s t rd (r.a + (betweenDraw s.params.chunkBits s.xi r.a r.b s.rngpos).1) ∧ r.a ≤ t.x rd ∧ t.x rd ≤ r.b ∧
        t.rngpos = s.rngpos + ceilDiv (betweenBits r.a r.b) s.params.chunkBits) ∧
    (r.b - r.a + 1 ≤ (betweenDraw s.params.chunkBits s.xi r.a r.b s.rngpos).1 →
      exec (.randbtw rd ra rb) s = .next { s with rngpos := s.rngpos + ceilDiv (betweenBits r.a r.b) s.params.chunkBits })

/-- R129: on a stream whose every draw is rejected, `RANDBTW` never ends: `BUSY` stays 1 and no register is written (one draw per
step: log 7); and the host may meanwhile access the block infinitely often (R202): one that polls `STATUS` between any two engine steps
for ever (log 5) reads the same `BUSY = 1` each time. -/
def Obligations.RandbtwHangs : Prop :=
  ∀ (s : State) (r : Running) (rd ra rb : Reg), s.Accepted (.randbtw rd ra rb) r → r.a ≤ r.b →
    (∀ k, r.b - r.a + 1 ≤
      (betweenDraw s.params.chunkBits s.xi r.a r.b (s.rngpos + k * ceilDiv (betweenBits r.a r.b) s.params.chunkBits)).1) →
    ∀ n, (∃ t, Host.Core.run Sys2Proof.core n s = .next t ∧ t.busy = true ∧ t.regs = s.regs ∧ t.status = s.status ∧
        t.rngpos = s.rngpos + n * ceilDiv (betweenBits r.a r.b) s.params.chunkBits) ∧
      ∃ t, Host.Core.run Sys2Proof.core (2 * n) { s with tail := .again [.read (s.params.base + 0x004) 4, .engineTurn] } = .next t ∧
        t.busy = true ∧ t.regs = s.regs ∧ t.status = s.status ∧ t.outbox = s.outbox ++ List.replicate n s.statusWord ∧
        s.statusWord.getLsbD 0 = true

/-- R129: under the named assumption `RngFair`, `RANDBTW` ends with a value in `[low, high]`. -/
def Obligations.RandbtwEndsUnderFairness : Prop :=
  ∀ (s : State) (r : Running) (rd ra rb : Reg), s.Accepted (.randbtw rd ra rb) r → r.a ≤ r.b → RngFair s.params.chunkBits s.xi →
    ∃ n t v, Host.Core.run Sys2Proof.core n s = .next t ∧ Completed s t rd v ∧ r.a ≤ v ∧ v ≤ r.b

/-! ### Unit U4 -/

/-- R138 item 1, R142: `MRTEST` of an `n ≤ 52` ends (within 17 steps of the model: log 7) without drawing a chunk, with 1 exactly for the fifteen table primes, which are the
primes up to 52. -/
def Obligations.MrtestDecidesSmallNumbers : Prop :=
  (∀ n, n ≤ 52 → (n ∈ smallPrimes ↔ n.Prime)) ∧
  ∀ (s : State) (r : Running) (rd ra rb : Reg), s.Accepted (.mrtest rd ra rb) r → r.b ≠ 0 → r.a ≤ 52 →
    ∃ t, Host.Core.run Sys2Proof.core 17 s = .next t ∧ Completed s t rd (if r.a ∈ smallPrimes then 1 else 0) ∧ t.rngpos = s.rngpos

/-- R141: a witness passes exactly when `a^d ≡ 1` or `a^(d 2^j) ≡ -1 (mod n)` for some `0 ≤ j ≤ s - 1`. -/
def Obligations.WitnessPassesExactly : Prop :=
  ∀ n d k a : Nat, 3 ≤ n → 1 ≤ k →
    (witnessPasses n d k a = true ↔ a ^ d % n = 1 ∨ ∃ j, j < k ∧ a ^ (d * 2 ^ j) % n = n - 1)

/-- R139: the decomposition is the unique pair with `n - 1 = d * 2^s`, `d` odd, and `s ≥ 1` for an odd `n`. -/
def Obligations.DecompositionIsExact : Prop :=
  ∀ n : Nat, 2 ≤ n → (decompose n).1 * 2 ^ (decompose n).2 = n - 1 ∧ (decompose n).1 % 2 = 1 ∧
    (n % 2 = 1 → 1 ≤ (decompose n).2) ∧ ∀ d s, d * 2 ^ s = n - 1 → d % 2 = 1 → d = (decompose n).1 ∧ s = (decompose n).2

/-- R142, R145: in the state `MR_RET(v)` `MRTEST` completes with the verdict as 1 or 0; in every other state of a round count that is not 0
it goes on to the state and the cursor that `mrStep` gives, and only `MR_DRAW` moves the cursor. -/
def Obligations.MrtestCompletes : Prop :=
  ∀ (s : State) (r : Running) (m : MrState) (rd ra rb : Reg), s.Inv → s.eng = .run r → r.mu = .mr m →
    (∀ v, m = .ret v → ∃ t, exec (.mrtest rd ra rb) s = .next t ∧ Completed s t rd (if v then 1 else 0) ∧ t.rngpos = s.rngpos) ∧
    ((∀ v, m ≠ .ret v) → r.b ≠ 0 →
      exec (.mrtest rd ra rb) s = .next { s with
        eng := .run { r with mu := .mr (mrStep s.params.chunkBits s.xi r.a r.b m s.rngpos).1 }
        rngpos := (mrStep s.params.chunkBits s.xi r.a r.b m s.rngpos).2 } ∧
      ((∀ d q n, m ≠ .draw d q n) → (mrStep s.params.chunkBits s.xi r.a r.b m s.rngpos).2 = s.rngpos))

/-- R144, R145: the state machine computes the function: where `is_probable_prime` returns a verdict, the run of `MRTEST` ends with it and
with the same cursor. The function's fuel is the model's (log 12). -/
def Obligations.MrtestRunReturnsTheFunction : Prop :=
  ∀ (s : State) (r : Running) (rd ra rb : Reg) (fuel c : Nat) (v : Bool), s.Accepted (.mrtest rd ra rb) r → r.b ≠ 0 →
    isProbablePrime s.params.chunkBits s.xi r.a r.b fuel s.rngpos = some (v, c) →
    ∃ n t, Host.Core.run Sys2Proof.core n s = .next t ∧ Completed s t rd (if v then 1 else 0) ∧ t.rngpos = c

/-- R147 items 1 and 4: for every stream, `MRTEST` returning 0 means that `n` is not prime, so for a prime `n` it returns 1 whenever it
ends. -/
def Obligations.MrtestZeroMeansNotPrime : Prop :=
  ∀ (s t : State) (r : Running) (rd ra rb : Reg) (n : Nat), s.Accepted (.mrtest rd ra rb) r → r.b ≠ 0 →
    Host.Core.run Sys2Proof.core n s = .next t → t.busy = false →
    (t.x rd = 0 ∨ t.x rd = 1) ∧ t.status.err = false ∧ (t.x rd = 0 → ¬r.a.Prime) ∧ (r.a.Prime → t.x rd = 1)

/-- R129, R201: on a stream whose every witness draw is rejected, `MRTEST` of a number that the table does not decide never ends: `BUSY`
stays 1 and no register is written. -/
def Obligations.MrtestHangs : Prop :=
  ∀ (s : State) (r : Running) (rd ra rb : Reg), s.Accepted (.mrtest rd ra rb) r → r.b ≠ 0 → survivesTable r.a →
    (∀ k, r.a - 3 ≤ (randomBits s.params.chunkBits s.xi (bitlen (r.a - 4))
      (s.rngpos + k * ceilDiv (bitlen (r.a - 4)) s.params.chunkBits)).1) →
    ∀ n, ∃ t, Host.Core.run Sys2Proof.core n s = .next t ∧ t.busy = true ∧ t.regs = s.regs ∧ t.status = s.status

/-- R129, R201: under the named assumption `RngFair`, `MRTEST` ends, with a verdict. -/
def Obligations.MrtestEndsUnderFairness : Prop :=
  ∀ (s : State) (r : Running) (rd ra rb : Reg), s.Accepted (.mrtest rd ra rb) r → r.b ≠ 0 → RngFair s.params.chunkBits s.xi →
    ∃ n t v, Host.Core.run Sys2Proof.core n s = .next t ∧ Completed s t rd v ∧ v ≤ 1

/-! ### Unit U5 -/

/-- R156: the candidate is one `random_bits(bits)` with its top and bottom bit forced: it has exactly `bits` bits, is odd, and keeps bits
`bits - 2` to 1 of the draw. -/
def Obligations.CandidateHasExactlyTheBits : Prop :=
  (∀ (cw : Nat) (xi : Nat → Nat) (bits c : Nat),
    drawCandidate cw xi bits c = ((randomBits cw xi bits c).1 ||| 2 ^ (bits - 1) ||| 1, c + ceilDiv bits cw)) ∧
  ∀ bits t : Nat, 2 ≤ bits → t < 2 ^ bits →
    (bits = 2 → forceCandidate bits t = 3) ∧ bitlen (forceCandidate bits t) = bits ∧ forceCandidate bits t % 2 = 1 ∧ 2 ^ (bits - 1) + 1 ≤ forceCandidate bits t ∧
    forceCandidate bits t ≤ 2 ^ bits - 1 ∧
    ∀ k, 1 ≤ k → k ≤ bits - 2 → (forceCandidate bits t).testBit k = t.testBit k

/-- R159, R162: in the state `PG_RET` `GENPRIME` completes with the candidate that passed, which has exactly `bits` bits, is odd, and is a
table prime or has no table prime as a factor. -/
def Obligations.GenprimeCompletes : Prop :=
  ∀ (s : State) (r : Running) (c : Nat) (rd ra rb : Reg), s.Inv → s.eng = .run r → r.mu = .pg (.ret c) →
    pgOk s.params r.a r.b (.ret c) →
    ∃ t, exec (.genprime rd ra rb) s = .next t ∧ Completed s t rd c ∧ t.rngpos = s.rngpos ∧ bitlen (t.x rd) = r.a ∧
      t.x rd % 2 = 1 ∧ (t.x rd ∈ smallPrimes ∨ ∀ p ∈ smallPrimes, t.x rd % p ≠ 0)

/-- R157, R162: the state machine computes the function: where `generate_prime` returns, the run of `GENPRIME` ends with its value and its
cursor, when no cancellation is requested. The function's fuel is the model's (log 12). -/
def Obligations.GenprimeRunReturnsTheFunction : Prop :=
  ∀ (s : State) (r : Running) (rd ra rb : Reg) (fuel v c : Nat), s.Accepted (.genprime rd ra rb) r → s.ctrl.cancel = false →
    2 ≤ r.a → r.a ≤ s.params.width → r.b ≠ 0 →
    generatePrime s.params.chunkBits s.xi r.a r.b fuel s.rngpos = .ok (some (v, c)) →
    ∃ n t, Host.Core.run Sys2Proof.core n s = .next t ∧ Completed s t rd v ∧ t.rngpos = c

/-- R160: on a stream on which `generate_prime` never returns (read as: it answers none for every fuel, log 12), `GENPRIME` never ends: `BUSY` stays 1 and no register is written. -/
def Obligations.GenprimeHangs : Prop :=
  ∀ (s : State) (r : Running) (rd ra rb : Reg), s.Accepted (.genprime rd ra rb) r → s.ctrl.cancel = false →
    2 ≤ r.a → r.a ≤ s.params.width → r.b ≠ 0 →
    (∀ fuel, generatePrime s.params.chunkBits s.xi r.a r.b fuel s.rngpos = .ok none) →
    ∀ n, ∃ t, Host.Core.run Sys2Proof.core n s = .next t ∧ t.busy = true ∧ t.regs = s.regs ∧ t.status = s.status

/-- R160: under the named assumption `PrimeFair` in the model's reading (log 16: the function returns, which includes what R160 asks of
`RngFair` beside it), `GENPRIME` ends with an odd number of exactly `bits` bits. -/
def Obligations.GenprimeEndsUnderFairness : Prop :=
  ∀ (s : State) (r : Running) (rd ra rb : Reg), s.Accepted (.genprime rd ra rb) r → s.ctrl.cancel = false →
    2 ≤ r.a → r.a ≤ s.params.width → r.b ≠ 0 → PrimeFair s.params.chunkBits s.xi r.a r.b s.rngpos →
    ∃ n t v, Host.Core.run Sys2Proof.core n s = .next t ∧ Completed s t rd v ∧ bitlen v = r.a ∧ v % 2 = 1

/-- R161: `CTRL.CANCEL` is sampled at the loop head of `GENPRIME` and nowhere else: there it ends the command with `Cancelled`, the chunks
staying consumed; elsewhere, and in every other command, it changes nothing of what the engine does. -/
def Obligations.CancelIsSampledAtTheLoopHeadOnly : Prop :=
  (∀ (s : State) (r : Running) (rd ra rb : Reg), s.eng = .run r → r.mu = .pg .head →
    (s.params.hasCancel = true → s.ctrl.cancel = true → exec (.genprime rd ra rb) s = .next { s with
      cause := { code := 0x03, kind := 5 }, status := { s.status with err := true }, eng := .idle, ctrl := { cancel := false } }) ∧
    (s.params.hasCancel = false ∨ s.ctrl.cancel = false →
      exec (.genprime rd ra rb) s = .next { s with eng := .run { r with mu := .pg .draw } })) ∧
  (∀ (s t t' : State) (r : Running) (i : Instr) (b : Bool), s.eng = .run r →
    (∀ rd ra rb, i = .genprime rd ra rb → r.mu ≠ .pg .head) →
    exec i s = .next t → exec i { s with ctrl := { cancel := b } } = .next t' →
    t'.eng = t.eng ∧ t'.regs = t.regs ∧ t'.status = t.status ∧ t'.cause = t.cause ∧ t'.rngpos = t.rngpos)
end

