-- ==== Sys2Proof/Laws/Arith.lean ====
section
/-! SUPPORT. The function layer (R15, R94, R123): the laws of `bitlen`, `ceilDiv` and `montk`, and that one loop iteration keeps the loop
invariant of its unit (R99, R113). -/

namespace Sys2Proof.Machine

/-- `bitlen(v)` is the least `L` with `v < 2^L` (R15). -/
theorem bitlen_le_iff {v n : Nat} : bitlen v ≤ n ↔ v < 2 ^ n := by
  unfold bitlen
  split
  · subst_vars; simp
  · rename_i h
    rw [Nat.succ_le_iff, Nat.log2_lt h]

theorem lt_two_pow_bitlen (v : Nat) : v < 2 ^ bitlen v := bitlen_le_iff.mp le_rfl

/-- A value between `2^(n-1)` and `2^n` has `n` bits (R15). -/
theorem bitlen_eq {v n : Nat} (h : v < 2 ^ n) (h' : 2 ^ (n - 1) ≤ v) : bitlen v = n := by
  refine le_antisymm (bitlen_le_iff.mpr h) (le_of_not_gt fun hlt => ?_)
  have := bitlen_le_iff.mp (show bitlen v ≤ n - 1 by omega)
  omega

/-- A modulus is below its radix (R94). -/
theorem lt_two_pow_montk (m : Nat) : m < 2 ^ montk m := by
  rw [← bitlen_le_iff, montk, ceilDiv]
  omega

/-- `random_bits(k)` is below `2^k` (R123). -/
theorem randomBits_lt (cw : Nat) (xi : Nat → Nat) (k c : Nat) : (randomBits cw xi k c).1 < 2 ^ k := Nat.mod_lt _ (Nat.two_pow_pos _)

theorem randomBits_cursor (cw : Nat) (xi : Nat → Nat) (k c : Nat) : (randomBits cw xi k c).2 = c + ceilDiv k cw := rfl

/-- One iteration of the square-and-multiply loop keeps its invariant (R113). -/
theorem expIter_ok {a e m : Nat} {v : ExpVars} (h : expOk a e m v) : expOk a e m (expIter m v) := by
  obtain ⟨h1, h2, -, h4⟩ := h
  have hm : 0 < m := by omega
  have key (k : Nat) : (v.base * v.base % m) ^ k ≡ v.base ^ (2 * k) [MOD m] := by
    rw [pow_mul, pow_two]
    exact (Nat.mod_modEq _ _).pow k
  refine ⟨h1, ?_, Nat.mod_lt _ hm, h4 ▸ ?_⟩ <;> dsimp only [expIter]
  · split
    · exact Nat.mod_lt _ hm
    · exact h2
  · change Nat.ModEq m _ _
    split
    · have e1 : v.base ^ v.exp = v.base ^ (2 * (v.exp / 2)) * v.base := by
        rw [← pow_succ]; congr 1; omega
      refine ((Nat.mod_modEq _ m).mul (key (v.exp / 2))).trans ?_
      rw [e1, mul_assoc, mul_comm v.base]
    · have e1 : v.base ^ v.exp = v.base ^ (2 * (v.exp / 2)) := by congr 1; omega
      rw [e1]
      exact (Nat.ModEq.refl _).mul (key _)

/-- The loop of `MODEXP` starts within its invariant (R113). -/
theorem expStart_ok {a e m : Nat} (h : 2 ≤ m) : expOk a e m (expStart a e m) := by
  refine ⟨h, by simp [expStart]; omega, Nat.mod_lt _ (by omega), ?_⟩
  simp only [expStart, one_mul]
  exact (Nat.mod_modEq _ _).pow e

@[simp] theorem Res.bind_ok {α β : Type} (v : α) (f : α → Res β) : (Res.ok v).bind f = f v := rfl

@[simp] theorem Res.bind_err {α β : Type} (e : FaultCause) (f : α → Res β) : (Res.err e : Res α).bind f = .err e := rfl

/-- The loop variables with both residues replaced by their forms under `form`. -/
def ExpVars.mapForm (form : Nat → Nat) (v : ExpVars) : ExpVars := { result := form v.result, base := form v.base, exp := v.exp }

/-- If `montmul` of two forms is the form of the product, one iteration on forms is the form of one iteration (R116 law 5). -/
theorem montExpIter_form {m : Nat} {form : Nat → Nat} {v : ExpVars}
    (hf : ∀ a b, a < m → b < m → montmul (form a) (form b) m = .ok (form (a * b % m))) (hr : v.result < m) (hb : v.base < m) :
    montExpIter m (v.mapForm form) = .ok ((expIter m v).mapForm form) := by
  simp only [montExpIter, ExpVars.mapForm, expIter, hf _ _ hr hb, hf _ _ hb hb]
  split <;> simp

/-- The whole loop on forms is the form of the loop of R113 (R116 law 5). -/
theorem montExpLoop_form {m : Nat} {form : Nat → Nat}
    (hf : ∀ a b, a < m → b < m → montmul (form a) (form b) m = .ok (form (a * b % m))) :
    ∀ (n : Nat) (v : ExpVars), v.result < m → v.base < m →
      montExpLoop m n (v.mapForm form) = .ok ((expLoop m n v).mapForm form)
  | 0, _, _, _ => rfl
  | n + 1, v, hr, hb => by
    have hm : 0 < m := by omega
    have e : (v.mapForm form).exp = v.exp := rfl
    simp only [montExpLoop, expLoop, e]
    split
    · rfl
    · rw [montExpIter_form hf hr hb, Res.bind_ok]
      refine montExpLoop_form hf n _ ?_ (Nat.mod_lt _ hm)
      simp only [expIter]
      split
      · exact Nat.mod_lt _ hm
      · exact hr

/-- One iteration of the radix-2 loop keeps its invariant (R99). -/
theorem montIter_ok {a b m : Nat} {v : MontVars} (h : montOk a b m v) (hi : v.i < montk m) : montOk a b m (montIter a b m v) := by
  obtain ⟨hm, ha, hb, -, hs, hc⟩ := h
  set q := a / 2 ^ v.i % 2 with hq
  set sum := v.acc + q * b with hsum
  set even := if sum % 2 = 1 then sum + m else sum with heven
  have hqb : q * b ≤ b := by
    rcases Nat.mod_two_eq_zero_or_one (a / 2 ^ v.i) with h | h <;> simp [hq, h]
  have hev : even % 2 = 0 := by rw [heven]; split <;> omega
  have hlt : even < 4 * m := by rw [heven]; split <;> omega
  have hmod : even ≡ sum [MOD m] := by rw [heven]; split <;> simp [Nat.ModEq]
  have e1 : montIter a b m v = { i := v.i + 1, acc := even / 2 } := rfl
  rw [e1]
  refine ⟨hm, ha, hb, hi, by dsimp only; omega, ?_⟩
  have e2 : even / 2 * 2 ^ (v.i + 1) = even * 2 ^ v.i := by
    rw [pow_succ, mul_comm (2 ^ v.i), ← mul_assoc, Nat.div_mul_cancel (Nat.dvd_of_mod_eq_zero hev)]
  have e3 : a % 2 ^ (v.i + 1) = a % 2 ^ v.i + 2 ^ v.i * q := by rw [pow_succ, Nat.mod_mul]
  dsimp only
  rw [e2]
  refine (hmod.mul_right _).trans ?_
  rw [e3, hsum, add_mul, add_mul, mul_right_comm q, mul_comm q]
  exact Nat.ModEq.add_right _ hc

end Sys2Proof.Machine
end

