-- ==== Sys2Proof/Laws/State.lean ====
section
/-! SUPPORT. One lemma per field per update of State, true by rfl, so that no proof unfolds a record update. -/

namespace Sys2Proof.Machine

@[simp] theorem State.raise_params (f : FaultCause) (s : State) : (s.raise f).params = s.params := rfl
@[simp] theorem State.raise_regs (f : FaultCause) (s : State) : (s.raise f).regs = s.regs := rfl
@[simp] theorem State.raise_status (f : FaultCause) (s : State) : (s.raise f).status = { s.status with err := true } := rfl
@[simp] theorem State.raise_cause (f : FaultCause) (s : State) : (s.raise f).cause = f.recorded := rfl
@[simp] theorem State.raise_ctrl (f : FaultCause) (s : State) : (s.raise f).ctrl = { cancel := false } := rfl
@[simp] theorem State.raise_eng (f : FaultCause) (s : State) : (s.raise f).eng = .idle := rfl
@[simp] theorem State.raise_rngpos (f : FaultCause) (s : State) : (s.raise f).rngpos = s.rngpos := rfl
@[simp] theorem State.raise_epoch (f : FaultCause) (s : State) : (s.raise f).epoch = s.epoch := rfl
@[simp] theorem State.raise_injected (f : FaultCause) (s : State) : (s.raise f).injected = s.injected := rfl
@[simp] theorem State.raise_inbox (f : FaultCause) (s : State) : (s.raise f).inbox = s.inbox := rfl
@[simp] theorem State.raise_tail (f : FaultCause) (s : State) : (s.raise f).tail = s.tail := rfl
@[simp] theorem State.raise_outbox (f : FaultCause) (s : State) : (s.raise f).outbox = s.outbox := rfl

@[simp] theorem State.complete_params (rd : Reg) (v : Nat) (s : State) : (s.complete rd v).params = s.params := rfl
@[simp] theorem State.complete_regs (rd : Reg) (v : Nat) (s : State) : (s.complete rd v).regs = s.regs.set rd.val (limbsOf s.params.limbs v) rd.isLt := rfl
@[simp] theorem State.complete_status (rd : Reg) (v : Nat) (s : State) : (s.complete rd v).status = { s.status with done := true } := rfl
@[simp] theorem State.complete_cause (rd : Reg) (v : Nat) (s : State) : (s.complete rd v).cause = s.cause := rfl
@[simp] theorem State.complete_ctrl (rd : Reg) (v : Nat) (s : State) : (s.complete rd v).ctrl = { cancel := false } := rfl
@[simp] theorem State.complete_eng (rd : Reg) (v : Nat) (s : State) : (s.complete rd v).eng = .idle := rfl
@[simp] theorem State.complete_rngpos (rd : Reg) (v : Nat) (s : State) : (s.complete rd v).rngpos = s.rngpos := rfl
@[simp] theorem State.complete_epoch (rd : Reg) (v : Nat) (s : State) : (s.complete rd v).epoch = s.epoch := rfl
@[simp] theorem State.complete_injected (rd : Reg) (v : Nat) (s : State) : (s.complete rd v).injected = s.injected := rfl
@[simp] theorem State.complete_inbox (rd : Reg) (v : Nat) (s : State) : (s.complete rd v).inbox = s.inbox := rfl
@[simp] theorem State.complete_tail (rd : Reg) (v : Nat) (s : State) : (s.complete rd v).tail = s.tail := rfl
@[simp] theorem State.complete_outbox (rd : Reg) (v : Nat) (s : State) : (s.complete rd v).outbox = s.outbox := rfl

@[simp] theorem State.goOn_params (r : Running) (mu : Mu) (s : State) : (s.goOn r mu).params = s.params := rfl
@[simp] theorem State.goOn_regs (r : Running) (mu : Mu) (s : State) : (s.goOn r mu).regs = s.regs := rfl
@[simp] theorem State.goOn_status (r : Running) (mu : Mu) (s : State) : (s.goOn r mu).status = s.status := rfl
@[simp] theorem State.goOn_cause (r : Running) (mu : Mu) (s : State) : (s.goOn r mu).cause = s.cause := rfl
@[simp] theorem State.goOn_ctrl (r : Running) (mu : Mu) (s : State) : (s.goOn r mu).ctrl = s.ctrl := rfl
@[simp] theorem State.goOn_eng (r : Running) (mu : Mu) (s : State) : (s.goOn r mu).eng = .run { r with mu := mu } := rfl
@[simp] theorem State.goOn_rngpos (r : Running) (mu : Mu) (s : State) : (s.goOn r mu).rngpos = s.rngpos := rfl
@[simp] theorem State.goOn_epoch (r : Running) (mu : Mu) (s : State) : (s.goOn r mu).epoch = s.epoch := rfl
@[simp] theorem State.goOn_injected (r : Running) (mu : Mu) (s : State) : (s.goOn r mu).injected = s.injected := rfl
@[simp] theorem State.goOn_inbox (r : Running) (mu : Mu) (s : State) : (s.goOn r mu).inbox = s.inbox := rfl
@[simp] theorem State.goOn_tail (r : Running) (mu : Mu) (s : State) : (s.goOn r mu).tail = s.tail := rfl
@[simp] theorem State.goOn_outbox (r : Running) (mu : Mu) (s : State) : (s.goOn r mu).outbox = s.outbox := rfl

@[simp] theorem State.setCursor_params (c : Nat) (s : State) : (s.setCursor c).params = s.params := rfl
@[simp] theorem State.setCursor_regs (c : Nat) (s : State) : (s.setCursor c).regs = s.regs := rfl
@[simp] theorem State.setCursor_status (c : Nat) (s : State) : (s.setCursor c).status = s.status := rfl
@[simp] theorem State.setCursor_cause (c : Nat) (s : State) : (s.setCursor c).cause = s.cause := rfl
@[simp] theorem State.setCursor_ctrl (c : Nat) (s : State) : (s.setCursor c).ctrl = s.ctrl := rfl
@[simp] theorem State.setCursor_eng (c : Nat) (s : State) : (s.setCursor c).eng = s.eng := rfl
@[simp] theorem State.setCursor_rngpos (c : Nat) (s : State) : (s.setCursor c).rngpos = c := rfl
@[simp] theorem State.setCursor_epoch (c : Nat) (s : State) : (s.setCursor c).epoch = s.epoch := rfl
@[simp] theorem State.setCursor_injected (c : Nat) (s : State) : (s.setCursor c).injected = s.injected := rfl
@[simp] theorem State.setCursor_inbox (c : Nat) (s : State) : (s.setCursor c).inbox = s.inbox := rfl
@[simp] theorem State.setCursor_tail (c : Nat) (s : State) : (s.setCursor c).tail = s.tail := rfl
@[simp] theorem State.setCursor_outbox (c : Nat) (s : State) : (s.setCursor c).outbox = s.outbox := rfl

@[simp] theorem State.accept_params (w : CmdWord) (i : Instr) (s : State) : (s.accept w i).params = s.params := rfl
@[simp] theorem State.accept_regs (w : CmdWord) (i : Instr) (s : State) : (s.accept w i).regs = s.regs := rfl
@[simp] theorem State.accept_status (w : CmdWord) (i : Instr) (s : State) : (s.accept w i).status = { s.status with done := false } := rfl
@[simp] theorem State.accept_cause (w : CmdWord) (i : Instr) (s : State) : (s.accept w i).cause = s.cause := rfl
@[simp] theorem State.accept_ctrl (w : CmdWord) (i : Instr) (s : State) : (s.accept w i).ctrl = s.ctrl := rfl
@[simp] theorem State.accept_eng (w : CmdWord) (i : Instr) (s : State) : (s.accept w i).eng = .run { word := w, a := s.operandA i, b := s.operandB i, c := s.operandC i, mu := startMu i } := rfl
@[simp] theorem State.accept_rngpos (w : CmdWord) (i : Instr) (s : State) : (s.accept w i).rngpos = s.rngpos := rfl
@[simp] theorem State.accept_epoch (w : CmdWord) (i : Instr) (s : State) : (s.accept w i).epoch = s.epoch := rfl
@[simp] theorem State.accept_injected (w : CmdWord) (i : Instr) (s : State) : (s.accept w i).injected = s.injected := rfl
@[simp] theorem State.accept_inbox (w : CmdWord) (i : Instr) (s : State) : (s.accept w i).inbox = s.inbox := rfl
@[simp] theorem State.accept_tail (w : CmdWord) (i : Instr) (s : State) : (s.accept w i).tail = s.tail := rfl
@[simp] theorem State.accept_outbox (w : CmdWord) (i : Instr) (s : State) : (s.accept w i).outbox = s.outbox := rfl

@[simp] theorem State.clearDone_params (s : State) : (s.clearDone).params = s.params := rfl
@[simp] theorem State.clearDone_regs (s : State) : (s.clearDone).regs = s.regs := rfl
@[simp] theorem State.clearDone_status (s : State) : (s.clearDone).status = { s.status with done := false } := rfl
@[simp] theorem State.clearDone_cause (s : State) : (s.clearDone).cause = s.cause := rfl
@[simp] theorem State.clearDone_ctrl (s : State) : (s.clearDone).ctrl = s.ctrl := rfl
@[simp] theorem State.clearDone_eng (s : State) : (s.clearDone).eng = s.eng := rfl
@[simp] theorem State.clearDone_rngpos (s : State) : (s.clearDone).rngpos = s.rngpos := rfl
@[simp] theorem State.clearDone_epoch (s : State) : (s.clearDone).epoch = s.epoch := rfl
@[simp] theorem State.clearDone_injected (s : State) : (s.clearDone).injected = s.injected := rfl
@[simp] theorem State.clearDone_inbox (s : State) : (s.clearDone).inbox = s.inbox := rfl
@[simp] theorem State.clearDone_tail (s : State) : (s.clearDone).tail = s.tail := rfl
@[simp] theorem State.clearDone_outbox (s : State) : (s.clearDone).outbox = s.outbox := rfl

@[simp] theorem State.markDrop_params (s : State) : (s.markDrop).params = s.params := rfl
@[simp] theorem State.markDrop_regs (s : State) : (s.markDrop).regs = s.regs := rfl
@[simp] theorem State.markDrop_status (s : State) : (s.markDrop).status = { s.status with drop := true } := rfl
@[simp] theorem State.markDrop_cause (s : State) : (s.markDrop).cause = s.cause := rfl
@[simp] theorem State.markDrop_ctrl (s : State) : (s.markDrop).ctrl = s.ctrl := rfl
@[simp] theorem State.markDrop_eng (s : State) : (s.markDrop).eng = s.eng := rfl
@[simp] theorem State.markDrop_rngpos (s : State) : (s.markDrop).rngpos = s.rngpos := rfl
@[simp] theorem State.markDrop_epoch (s : State) : (s.markDrop).epoch = s.epoch := rfl
@[simp] theorem State.markDrop_injected (s : State) : (s.markDrop).injected = s.injected := rfl
@[simp] theorem State.markDrop_inbox (s : State) : (s.markDrop).inbox = s.inbox := rfl
@[simp] theorem State.markDrop_tail (s : State) : (s.markDrop).tail = s.tail := rfl
@[simp] theorem State.markDrop_outbox (s : State) : (s.markDrop).outbox = s.outbox := rfl

@[simp] theorem State.writeStatus_params (s : State) (v : Limb) : (s.writeStatus v).params = s.params := rfl
@[simp] theorem State.writeStatus_regs (s : State) (v : Limb) : (s.writeStatus v).regs = s.regs := rfl
@[simp] theorem State.writeStatus_status (s : State) (v : Limb) : (s.writeStatus v).status = { done := s.status.done && !v.getLsbD 1, err := s.status.err && !v.getLsbD 2, drop := s.status.drop && !v.getLsbD 3 } := rfl
@[simp] theorem State.writeStatus_cause (s : State) (v : Limb) : (s.writeStatus v).cause = if v.getLsbD 2 then noCause else s.cause := rfl
@[simp] theorem State.writeStatus_ctrl (s : State) (v : Limb) : (s.writeStatus v).ctrl = s.ctrl := rfl
@[simp] theorem State.writeStatus_eng (s : State) (v : Limb) : (s.writeStatus v).eng = s.eng := rfl
@[simp] theorem State.writeStatus_rngpos (s : State) (v : Limb) : (s.writeStatus v).rngpos = s.rngpos := rfl
@[simp] theorem State.writeStatus_epoch (s : State) (v : Limb) : (s.writeStatus v).epoch = s.epoch := rfl
@[simp] theorem State.writeStatus_injected (s : State) (v : Limb) : (s.writeStatus v).injected = s.injected := rfl
@[simp] theorem State.writeStatus_inbox (s : State) (v : Limb) : (s.writeStatus v).inbox = s.inbox := rfl
@[simp] theorem State.writeStatus_tail (s : State) (v : Limb) : (s.writeStatus v).tail = s.tail := rfl
@[simp] theorem State.writeStatus_outbox (s : State) (v : Limb) : (s.writeStatus v).outbox = s.outbox := rfl

@[simp] theorem State.setOperand_params (s : State) (i : Reg) (o : Operand) : (s.setOperand i o).params = s.params := rfl
@[simp] theorem State.setOperand_regs (s : State) (i : Reg) (o : Operand) : (s.setOperand i o).regs = s.regs.set i.val o i.isLt := rfl
@[simp] theorem State.setOperand_status (s : State) (i : Reg) (o : Operand) : (s.setOperand i o).status = s.status := rfl
@[simp] theorem State.setOperand_cause (s : State) (i : Reg) (o : Operand) : (s.setOperand i o).cause = s.cause := rfl
@[simp] theorem State.setOperand_ctrl (s : State) (i : Reg) (o : Operand) : (s.setOperand i o).ctrl = s.ctrl := rfl
@[simp] theorem State.setOperand_eng (s : State) (i : Reg) (o : Operand) : (s.setOperand i o).eng = s.eng := rfl
@[simp] theorem State.setOperand_rngpos (s : State) (i : Reg) (o : Operand) : (s.setOperand i o).rngpos = s.rngpos := rfl
@[simp] theorem State.setOperand_epoch (s : State) (i : Reg) (o : Operand) : (s.setOperand i o).epoch = s.epoch := rfl
@[simp] theorem State.setOperand_injected (s : State) (i : Reg) (o : Operand) : (s.setOperand i o).injected = s.injected := rfl
@[simp] theorem State.setOperand_inbox (s : State) (i : Reg) (o : Operand) : (s.setOperand i o).inbox = s.inbox := rfl
@[simp] theorem State.setOperand_tail (s : State) (i : Reg) (o : Operand) : (s.setOperand i o).tail = s.tail := rfl
@[simp] theorem State.setOperand_outbox (s : State) (i : Reg) (o : Operand) : (s.setOperand i o).outbox = s.outbox := rfl

@[simp] theorem State.popInbox_params (rest : List HostEvent) (s : State) : (s.popInbox rest).params = s.params := rfl
@[simp] theorem State.popInbox_regs (rest : List HostEvent) (s : State) : (s.popInbox rest).regs = s.regs := rfl
@[simp] theorem State.popInbox_status (rest : List HostEvent) (s : State) : (s.popInbox rest).status = s.status := rfl
@[simp] theorem State.popInbox_cause (rest : List HostEvent) (s : State) : (s.popInbox rest).cause = s.cause := rfl
@[simp] theorem State.popInbox_ctrl (rest : List HostEvent) (s : State) : (s.popInbox rest).ctrl = s.ctrl := rfl
@[simp] theorem State.popInbox_eng (rest : List HostEvent) (s : State) : (s.popInbox rest).eng = s.eng := rfl
@[simp] theorem State.popInbox_rngpos (rest : List HostEvent) (s : State) : (s.popInbox rest).rngpos = s.rngpos := rfl
@[simp] theorem State.popInbox_epoch (rest : List HostEvent) (s : State) : (s.popInbox rest).epoch = s.epoch := rfl
@[simp] theorem State.popInbox_injected (rest : List HostEvent) (s : State) : (s.popInbox rest).injected = s.injected := rfl
@[simp] theorem State.popInbox_inbox (rest : List HostEvent) (s : State) : (s.popInbox rest).inbox = rest := rfl
@[simp] theorem State.popInbox_tail (rest : List HostEvent) (s : State) : (s.popInbox rest).tail = s.tail := rfl
@[simp] theorem State.popInbox_outbox (rest : List HostEvent) (s : State) : (s.popInbox rest).outbox = s.outbox := rfl

@[simp] theorem State.respond_params (v : Limb) (s : State) : (s.respond v).params = s.params := rfl
@[simp] theorem State.respond_regs (v : Limb) (s : State) : (s.respond v).regs = s.regs := rfl
@[simp] theorem State.respond_status (v : Limb) (s : State) : (s.respond v).status = s.status := rfl
@[simp] theorem State.respond_cause (v : Limb) (s : State) : (s.respond v).cause = s.cause := rfl
@[simp] theorem State.respond_ctrl (v : Limb) (s : State) : (s.respond v).ctrl = s.ctrl := rfl
@[simp] theorem State.respond_eng (v : Limb) (s : State) : (s.respond v).eng = s.eng := rfl
@[simp] theorem State.respond_rngpos (v : Limb) (s : State) : (s.respond v).rngpos = s.rngpos := rfl
@[simp] theorem State.respond_epoch (v : Limb) (s : State) : (s.respond v).epoch = s.epoch := rfl
@[simp] theorem State.respond_injected (v : Limb) (s : State) : (s.respond v).injected = s.injected := rfl
@[simp] theorem State.respond_inbox (v : Limb) (s : State) : (s.respond v).inbox = s.inbox := rfl
@[simp] theorem State.respond_tail (v : Limb) (s : State) : (s.respond v).tail = s.tail := rfl
@[simp] theorem State.respond_outbox (v : Limb) (s : State) : (s.respond v).outbox = s.outbox ++ [v] := rfl

@[simp] theorem State.assertReset_params (s : State) : (s.assertReset).params = s.params := rfl
@[simp] theorem State.assertReset_regs (s : State) : (s.assertReset).regs = (State.resetAt s.params (s.epoch + 1) s.regs.toList).regs := rfl
@[simp] theorem State.assertReset_status (s : State) : (s.assertReset).status = { done := false, err := false, drop := false } := rfl
@[simp] theorem State.assertReset_cause (s : State) : (s.assertReset).cause = { code := 0, kind := 0 } := rfl
@[simp] theorem State.assertReset_ctrl (s : State) : (s.assertReset).ctrl = { cancel := false } := rfl
@[simp] theorem State.assertReset_eng (s : State) : (s.assertReset).eng = .idle := rfl
@[simp] theorem State.assertReset_rngpos (s : State) : (s.assertReset).rngpos = 0 := rfl
@[simp] theorem State.assertReset_epoch (s : State) : (s.assertReset).epoch = s.epoch + 1 := rfl
@[simp] theorem State.assertReset_injected (s : State) : (s.assertReset).injected = { first := [], cycle := [] } := rfl
@[simp] theorem State.assertReset_inbox (s : State) : (s.assertReset).inbox = s.inbox := rfl
@[simp] theorem State.assertReset_tail (s : State) : (s.assertReset).tail = s.tail := rfl
@[simp] theorem State.assertReset_outbox (s : State) : (s.assertReset).outbox = s.outbox := rfl

@[simp] theorem State.writeCtrl_params (s : State) (v : Limb) : (s.writeCtrl v).params = s.params := by
  unfold State.writeCtrl; split <;> [split <;> [split <;> rfl; rfl]; rfl]
@[simp] theorem State.writeCtrl_regs (s : State) (v : Limb) : (s.writeCtrl v).regs = s.regs := by
  unfold State.writeCtrl; split <;> [split <;> [split <;> rfl; rfl]; rfl]
@[simp] theorem State.writeCtrl_status (s : State) (v : Limb) : (s.writeCtrl v).status = s.status := by
  unfold State.writeCtrl; split <;> [split <;> [split <;> rfl; rfl]; rfl]
@[simp] theorem State.writeCtrl_cause (s : State) (v : Limb) : (s.writeCtrl v).cause = s.cause := by
  unfold State.writeCtrl; split <;> [split <;> [split <;> rfl; rfl]; rfl]
@[simp] theorem State.writeCtrl_eng (s : State) (v : Limb) : (s.writeCtrl v).eng = s.eng := by
  unfold State.writeCtrl; split <;> [split <;> [split <;> rfl; rfl]; rfl]
@[simp] theorem State.writeCtrl_rngpos (s : State) (v : Limb) : (s.writeCtrl v).rngpos = s.rngpos := by
  unfold State.writeCtrl; split <;> [split <;> [split <;> rfl; rfl]; rfl]
@[simp] theorem State.writeCtrl_epoch (s : State) (v : Limb) : (s.writeCtrl v).epoch = s.epoch := by
  unfold State.writeCtrl; split <;> [split <;> [split <;> rfl; rfl]; rfl]
@[simp] theorem State.writeCtrl_injected (s : State) (v : Limb) : (s.writeCtrl v).injected = s.injected := by
  unfold State.writeCtrl; split <;> [split <;> [split <;> rfl; rfl]; rfl]
@[simp] theorem State.writeCtrl_inbox (s : State) (v : Limb) : (s.writeCtrl v).inbox = s.inbox := by
  unfold State.writeCtrl; split <;> [split <;> [split <;> rfl; rfl]; rfl]
@[simp] theorem State.writeCtrl_tail (s : State) (v : Limb) : (s.writeCtrl v).tail = s.tail := by
  unfold State.writeCtrl; split <;> [split <;> [split <;> rfl; rfl]; rfl]
@[simp] theorem State.writeCtrl_outbox (s : State) (v : Limb) : (s.writeCtrl v).outbox = s.outbox := by
  unfold State.writeCtrl; split <;> [split <;> [split <;> rfl; rfl]; rfl]

/-! ### The views of a state after an update -/

@[simp] theorem State.busy_of_idle {s : State} (h : s.eng = .idle) : s.busy = false := by simp [State.busy, h]

@[simp] theorem State.busy_of_run {s : State} {r : Running} (h : s.eng = .run r) : s.busy = true := by simp [State.busy, h]

theorem State.busy_eq_true_iff (s : State) : s.busy = true ↔ ∃ r, s.eng = .run r := by
  unfold State.busy; split <;> simp_all

theorem State.busy_eq_false_iff (s : State) : s.busy = false ↔ s.eng = .idle := by
  unfold State.busy; split <;> simp_all

@[simp] theorem State.raise_operand (f : FaultCause) (s : State) (q : Reg) : (s.raise f).operand q = s.operand q := rfl
@[simp] theorem State.raise_x (f : FaultCause) (s : State) (q : Reg) : (s.raise f).x q = s.x q := rfl
@[simp] theorem State.goOn_operand (r : Running) (mu : Mu) (s : State) (q : Reg) : (s.goOn r mu).operand q = s.operand q := rfl
@[simp] theorem State.goOn_x (r : Running) (mu : Mu) (s : State) (q : Reg) : (s.goOn r mu).x q = s.x q := rfl
@[simp] theorem State.setCursor_operand (c : Nat) (s : State) (q : Reg) : (s.setCursor c).operand q = s.operand q := rfl
@[simp] theorem State.setCursor_x (c : Nat) (s : State) (q : Reg) : (s.setCursor c).x q = s.x q := rfl
@[simp] theorem State.accept_operand (w : CmdWord) (i : Instr) (s : State) (q : Reg) : (s.accept w i).operand q = s.operand q := rfl
@[simp] theorem State.accept_x (w : CmdWord) (i : Instr) (s : State) (q : Reg) : (s.accept w i).x q = s.x q := rfl
@[simp] theorem State.clearDone_operand (s : State) (q : Reg) : (s.clearDone).operand q = s.operand q := rfl
@[simp] theorem State.clearDone_x (s : State) (q : Reg) : (s.clearDone).x q = s.x q := rfl
@[simp] theorem State.markDrop_operand (s : State) (q : Reg) : (s.markDrop).operand q = s.operand q := rfl
@[simp] theorem State.markDrop_x (s : State) (q : Reg) : (s.markDrop).x q = s.x q := rfl
@[simp] theorem State.writeStatus_operand (s : State) (v : Limb) (q : Reg) : (s.writeStatus v).operand q = s.operand q := rfl
@[simp] theorem State.writeStatus_x (s : State) (v : Limb) (q : Reg) : (s.writeStatus v).x q = s.x q := rfl
@[simp] theorem State.popInbox_operand (rest : List HostEvent) (s : State) (q : Reg) : (s.popInbox rest).operand q = s.operand q := rfl
@[simp] theorem State.popInbox_x (rest : List HostEvent) (s : State) (q : Reg) : (s.popInbox rest).x q = s.x q := rfl
@[simp] theorem State.respond_operand (v : Limb) (s : State) (q : Reg) : (s.respond v).operand q = s.operand q := rfl
@[simp] theorem State.respond_x (v : Limb) (s : State) (q : Reg) : (s.respond v).x q = s.x q := rfl
@[simp] theorem State.writeCtrl_operand (s : State) (v : Limb) (q : Reg) : (s.writeCtrl v).operand q = s.operand q := by simp [State.operand]
@[simp] theorem State.writeCtrl_x (s : State) (v : Limb) (q : Reg) : (s.writeCtrl v).x q = s.x q := by simp [State.x]

@[simp] theorem State.complete_operand_same (rd : Reg) (v : Nat) (s : State) :
    (s.complete rd v).operand rd = limbsOf s.params.limbs v := by simp [State.operand]

@[simp] theorem State.complete_operand_other {rd q : Reg} (h : q ≠ rd) (v : Nat) (s : State) :
    (s.complete rd v).operand q = s.operand q := by
  simp only [State.operand, State.complete_regs]
  exact Vector.getElem_set_ne _ _ (fun e => h (Fin.ext e.symm))

@[simp] theorem State.setOperand_operand_same (s : State) (i : Reg) (o : Operand) : (s.setOperand i o).operand i = o := by
  simp [State.operand]

@[simp] theorem State.setOperand_operand_other {i q : Reg} (h : q ≠ i) (s : State) (o : Operand) :
    (s.setOperand i o).operand q = s.operand q := by
  simp only [State.operand, State.setOperand_regs]
  exact Vector.getElem_set_ne _ _ (fun e => h (Fin.ext e.symm))

@[simp] theorem State.setCursor_xi (c : Nat) (s : State) : (s.setCursor c).xi = s.xi := rfl

@[simp] theorem State.goOn_xi (r : Running) (mu : Mu) (s : State) : (s.goOn r mu).xi = s.xi := rfl

/-! ### `BUSY` after an update -/

@[simp] theorem State.raise_busy (f : FaultCause) (s : State) : (s.raise f).busy = false := rfl
@[simp] theorem State.complete_busy (rd : Reg) (v : Nat) (s : State) : (s.complete rd v).busy = false := rfl
@[simp] theorem State.goOn_busy (r : Running) (mu : Mu) (s : State) : (s.goOn r mu).busy = true := rfl
@[simp] theorem State.accept_busy (w : CmdWord) (i : Instr) (s : State) : (s.accept w i).busy = true := rfl
@[simp] theorem State.setCursor_busy (c : Nat) (s : State) : (s.setCursor c).busy = s.busy := rfl
@[simp] theorem State.clearDone_busy (s : State) : s.clearDone.busy = s.busy := rfl
@[simp] theorem State.markDrop_busy (s : State) : s.markDrop.busy = s.busy := rfl
@[simp] theorem State.writeStatus_busy (s : State) (v : Limb) : (s.writeStatus v).busy = s.busy := rfl
@[simp] theorem State.setOperand_busy (s : State) (i : Reg) (o : Operand) : (s.setOperand i o).busy = s.busy := rfl
@[simp] theorem State.popInbox_busy (rest : List HostEvent) (s : State) : (s.popInbox rest).busy = s.busy := rfl
@[simp] theorem State.respond_busy (v : Limb) (s : State) : (s.respond v).busy = s.busy := rfl
@[simp] theorem State.assertReset_busy (s : State) : s.assertReset.busy = false := rfl
@[simp] theorem State.writeCtrl_busy (s : State) (v : Limb) : (s.writeCtrl v).busy = s.busy := by simp [State.busy]

/-- Everything `refill` does: it touches only the host's own fields. -/
theorem State.refill_eq (s : State) : ∃ inbox tail, s.refill = { s with inbox := inbox, tail := tail } := by
  unfold State.refill
  repeat' split
  all_goals exact ⟨_, _, rfl⟩

theorem State.refill_of_events {s : State} {e : HostEvent} {rest : List HostEvent} (h : s.inbox = e :: rest) : s.refill = s := by
  simp [State.refill, h]

theorem State.refill_of_silent {s : State} (h : s.inbox = []) (ht : s.tail = .silent) : s.refill = s := by
  simp [State.refill, h, ht]

theorem State.refill_of_again {s : State} {events : List HostEvent} (h : s.inbox = []) (ht : s.tail = .again events) :
    s.refill = { s with inbox := events } := by
  simp [State.refill, h, ht]

@[simp] theorem State.refill_params (s : State) : s.refill.params = s.params := by obtain ⟨_, _, e⟩ := s.refill_eq; rw [e]
@[simp] theorem State.refill_regs (s : State) : s.refill.regs = s.regs := by obtain ⟨_, _, e⟩ := s.refill_eq; rw [e]
@[simp] theorem State.refill_status (s : State) : s.refill.status = s.status := by obtain ⟨_, _, e⟩ := s.refill_eq; rw [e]
@[simp] theorem State.refill_cause (s : State) : s.refill.cause = s.cause := by obtain ⟨_, _, e⟩ := s.refill_eq; rw [e]
@[simp] theorem State.refill_ctrl (s : State) : s.refill.ctrl = s.ctrl := by obtain ⟨_, _, e⟩ := s.refill_eq; rw [e]
@[simp] theorem State.refill_eng (s : State) : s.refill.eng = s.eng := by obtain ⟨_, _, e⟩ := s.refill_eq; rw [e]
@[simp] theorem State.refill_rngpos (s : State) : s.refill.rngpos = s.rngpos := by obtain ⟨_, _, e⟩ := s.refill_eq; rw [e]
@[simp] theorem State.refill_epoch (s : State) : s.refill.epoch = s.epoch := by obtain ⟨_, _, e⟩ := s.refill_eq; rw [e]
@[simp] theorem State.refill_injected (s : State) : s.refill.injected = s.injected := by obtain ⟨_, _, e⟩ := s.refill_eq; rw [e]
@[simp] theorem State.refill_outbox (s : State) : s.refill.outbox = s.outbox := by obtain ⟨_, _, e⟩ := s.refill_eq; rw [e]
@[simp] theorem State.refill_busy (s : State) : s.refill.busy = s.busy := by simp [State.busy]
@[simp] theorem State.refill_operand (s : State) (q : Reg) : s.refill.operand q = s.operand q := by simp [State.operand]
@[simp] theorem State.refill_x (s : State) (q : Reg) : s.refill.x q = s.x q := by simp [State.x]

/-- A recorded fault is never read as "no fault" (R30, R166). -/
theorem FaultCause.recorded_word_ne_zero (f : FaultCause) : f.recorded.word ≠ 0 := by cases f <;> decide

theorem noCause_word : noCause.word = 0 := rfl

end Sys2Proof.Machine
end

