-- ==== Sys2Proof/Laws/Operands.lean ====
section
/-! SUPPORT. Operand registers as integers and as limbs (R54): the two forms agree, and no bit is dropped below `2^(32 n)`. -/

namespace Sys2Proof.Machine

@[simp] theorem length_limbsOf (n v : Nat) : (limbsOf n v).length = n := by
  induction n generalizing v with
  | zero => rfl
  | succ n ih => simp [limbsOf, ih]

@[simp] theorem length_limbSet (o : Operand) (j : Nat) (v : Limb) : (limbSet o j v).length = o.length := by simp [limbSet]

theorem limbsValue_lt (o : Operand) : limbsValue o < 2 ^ (32 * o.length) := by
  induction o with
  | nil => simp [limbsValue]
  | cons l rest ih =>
    have hl := l.isLt
    rw [limbsValue, List.length_cons, Nat.mul_succ, Nat.pow_add, Nat.mul_comm (2 ^ (32 * rest.length))]
    generalize 2 ^ (32 * rest.length) = k at *
    omega

theorem limbsValue_limbsOf {n v : Nat} (h : v < 2 ^ (32 * n)) : limbsValue (limbsOf n v) = v := by
  induction n generalizing v with
  | zero => simp at h; simp [limbsOf, limbsValue, h]
  | succ n ih =>
    have hv : v / 2 ^ 32 < 2 ^ (32 * n) := by
      rw [Nat.div_lt_iff_lt_mul (by decide), ← Nat.pow_add]; exact h
    rw [limbsOf, limbsValue, ih hv]
    simp only [BitVec.toNat_ofNat]
    omega

/-- Limb `j` is the bit slice `[32 j + 31 : 32 j]` of the register (R54). -/
theorem toNat_limbAt (o : Operand) (j : Nat) : (limbAt o j).toNat = limbsValue o / 2 ^ (32 * j) % 2 ^ 32 := by
  induction o generalizing j with
  | nil => simp [limbAt, limbsValue]
  | cons l rest ih =>
    have hl := l.isLt
    cases j with
    | zero => simp [limbAt, limbsValue]; omega
    | succ j =>
      have e : limbAt (l :: rest) (j + 1) = limbAt rest j := by simp [limbAt]
      have hdiv : (l.toNat + 2 ^ 32 * limbsValue rest) / 2 ^ 32 = limbsValue rest := by omega
      rw [e, ih, limbsValue, Nat.mul_succ, Nat.add_comm (32 * j), Nat.pow_add, ← Nat.div_div_eq_div_mul, hdiv]

/-- A limb write replaces that slice and nothing else (R54). -/
theorem limbsValue_limbSet {o : Operand} {j : Nat} (h : j < o.length) (v : Limb) :
    limbsValue (limbSet o j v) + (limbAt o j).toNat * 2 ^ (32 * j) = limbsValue o + v.toNat * 2 ^ (32 * j) := by
  induction o generalizing j with
  | nil => simp at h
  | cons l rest ih =>
    cases j with
    | zero => simp [limbSet, limbAt, limbsValue]; omega
    | succ j =>
      have := ih (by simpa using h : j < rest.length)
      have e : limbAt (l :: rest) (j + 1) = limbAt rest j := by simp [limbAt]
      have e' : limbSet (l :: rest) (j + 1) v = l :: limbSet rest j v := by simp [limbSet]
      rw [e, e', limbsValue, limbsValue, Nat.mul_succ, Nat.pow_add]
      generalize 2 ^ (32 * j) = k at *
      have h2 : 2 ^ 32 * (limbsValue (limbSet rest j v) + (limbAt rest j).toNat * k) = 2 ^ 32 * (limbsValue rest + v.toNat * k) := by rw [this]
      rw [Nat.mul_comm k (2 ^ 32), Nat.mul_left_comm, Nat.mul_left_comm v.toNat]
      rw [Nat.mul_add, Nat.mul_add] at h2
      omega

/-- A register with `W/32` limbs holds a value below `2^W` (R21). -/
theorem State.x_lt {s : State} {i : Reg} (h : (s.operand i).length = s.params.limbs) : s.x i < 2 ^ s.params.width := by
  have := limbsValue_lt (s.operand i)
  rwa [h] at this

/-- A completed value that fits the register is read back exactly: no truncation (R8, R29, R170). -/
theorem State.complete_x_same {rd : Reg} {v : Nat} {s : State} (h : v < 2 ^ s.params.width) : (s.complete rd v).x rd = v := by
  rw [State.x, State.complete_operand_same]
  exact limbsValue_limbsOf h

theorem State.complete_x_other {rd q : Reg} (h : q ≠ rd) (v : Nat) (s : State) : (s.complete rd v).x q = s.x q := by
  rw [State.x, State.complete_operand_other h, State.x]

@[simp] theorem State.setOperand_x_same (s : State) (i : Reg) (o : Operand) : (s.setOperand i o).x i = limbsValue o := by
  rw [State.x, State.setOperand_operand_same]

theorem length_resetOperand (p : Params) (e : Nat) (old : List Operand) (i : Nat) : (resetOperand p e old i).length = p.limbs := by simp [resetOperand]

/-- Every operand register of a reset state has `W/32` limbs. -/
theorem State.resetAt_operand (p : Params) (e : Nat) (old : List Operand) (i : Reg) :
    (State.resetAt p e old).operand i = resetOperand p e old i.val := by
  fin_cases i <;> rfl

end Sys2Proof.Machine
end

