-- ==== Sys2Proof/Laws/Engine.lean ====
section
/-! SUPPORT. What an engine step can do, said once (`exec_moves`), with one inversion lemma per command's step. Later proofs cite these and
do not unfold the meanings. -/

namespace Sys2Proof.Machine

/-- What one engine step of a command with destination `rd` can turn the state `s` into: a fault, a completion, or going on, with the
chunk cursor moved to `c`. -/
inductive Moves (rd : Reg) (s t : State) : Prop where
  | faults (f : FaultCause) (h : t = s.raise f)
  | completes (c v : Nat) (h : t = (s.setCursor c).complete rd v)
  | goesOn (c : Nat) (r : Running) (mu : Mu) (h : t = (s.setCursor c).goOn r mu) (hr : s.eng = .run r)

/-- An engine step answers a next state exactly when the engine runs. -/
theorem onRunning_next {s t : State} {f : Running → State} : onRunning s f = .next t ↔ ∃ r, s.eng = .run r ∧ f r = t := by
  unfold onRunning
  cases h : s.eng <;> simp

theorem onRunning_eq {s : State} {r : Running} (h : s.eng = .run r) (f : Running → State) : onRunning s f = .next (f r) := by
  unfold onRunning
  rw [h]

@[simp] theorem setCursor_self (s : State) : s.setCursor s.rngpos = s := rfl

theorem goOn_self {s : State} {r : Running} (h : s.eng = .run r) : s.goOn r r.mu = s := by
  cases s; simp_all [State.goOn]

theorem modmulStep_moves (rd : Reg) (r : Running) (s : State) : Moves rd s (modmulStep rd r s) := by
  unfold modmulStep
  split
  · exact .faults _ rfl
  · exact .completes s.rngpos _ rfl

theorem montmulEntry_moves {rd : Reg} {r : Running} {s : State} (h : s.eng = .run r) : Moves rd s (montmulEntry r s) := by
  unfold montmulEntry
  repeat' split
  · exact .faults _ rfl
  · exact .faults _ rfl
  · exact .faults _ rfl
  · exact .goesOn s.rngpos r _ rfl h

theorem montmulStep_moves {rd : Reg} {r : Running} {s : State} (h : s.eng = .run r) : Moves rd s (montmulStep rd r s) := by
  unfold montmulStep montmulLoopStep
  split
  · split
    · exact .goesOn s.rngpos r _ rfl h
    · exact .completes s.rngpos _ rfl
  all_goals exact montmulEntry_moves h

theorem montr2Step_moves (rd : Reg) (r : Running) (s : State) : Moves rd s (montr2Step rd r s) := by
  unfold montr2Step
  repeat' split
  · exact .faults _ rfl
  · exact .faults _ rfl
  · exact .completes s.rngpos _ rfl

theorem modexpEntry_moves {rd : Reg} {r : Running} {s : State} (h : s.eng = .run r) : Moves rd s (modexpEntry rd r s) := by
  unfold modexpEntry
  repeat' split
  · exact .faults _ rfl
  · exact .faults _ rfl
  · exact .completes s.rngpos _ rfl
  · exact .goesOn s.rngpos r _ rfl h

theorem modexpStep_moves {rd : Reg} {r : Running} {s : State} (h : s.eng = .run r) : Moves rd s (modexpStep rd r s) := by
  unfold modexpStep modexpLoopStep
  split
  · split
    · exact .completes s.rngpos _ rfl
    · exact .goesOn s.rngpos r _ rfl h
  all_goals exact modexpEntry_moves h

theorem randbitsStep_moves (rd : Reg) (r : Running) (s : State) : Moves rd s (randbitsStep rd r s) := by
  unfold randbitsStep
  split
  · exact .faults _ rfl
  · exact .completes _ _ rfl

theorem randbtwDraw_moves {rd : Reg} {r : Running} {s : State} (h : s.eng = .run r) (draw : Nat × Nat) :
    Moves rd s (randbtwDraw rd r s draw) := by
  unfold randbtwDraw
  split
  · exact .completes _ _ rfl
  · refine .goesOn draw.2 r r.mu ?_ h
    rw [goOn_self]
    exact h

theorem randbtwStep_moves {rd : Reg} {r : Running} {s : State} (h : s.eng = .run r) : Moves rd s (randbtwStep rd r s) := by
  unfold randbtwStep
  split
  · exact .faults _ rfl
  · exact randbtwDraw_moves h _

theorem mrtestCheck_moves {rd : Reg} {r : Running} {s : State} (h : s.eng = .run r) : Moves rd s (mrtestCheck r s) := by
  unfold mrtestCheck mrtestGoOn
  split
  · exact .faults _ rfl
  · exact .goesOn _ r _ rfl h

theorem mrtestStep_moves {rd : Reg} {r : Running} {s : State} (h : s.eng = .run r) : Moves rd s (mrtestStep rd r s) := by
  unfold mrtestStep
  split
  · exact mrtestCheck_moves h
  · exact .completes s.rngpos _ rfl
  · exact .goesOn _ r _ rfl h

theorem genprimeCheck_moves {rd : Reg} {r : Running} {s : State} (h : s.eng = .run r) : Moves rd s (genprimeCheck r s) := by
  unfold genprimeCheck
  repeat' split
  · exact .faults _ rfl
  · exact .faults _ rfl
  · exact .faults _ rfl
  · exact .goesOn s.rngpos r _ rfl h

theorem genprimeHead_moves {rd : Reg} {r : Running} {s : State} (h : s.eng = .run r) : Moves rd s (genprimeHead r s) := by
  unfold genprimeHead
  split
  · exact .faults _ rfl
  · exact .goesOn s.rngpos r _ rfl h

theorem genprimeTest_moves {rd : Reg} {r : Running} {s : State} (h : s.eng = .run r) (c : Nat) (m : MrState) (next : MrState × Nat) :
    Moves rd s (genprimeTest r s c m next) := by
  unfold genprimeTest
  split
  · exact .goesOn s.rngpos r _ rfl h
  · exact .goesOn s.rngpos r _ rfl h
  · exact .goesOn next.2 r _ rfl h

theorem genprimeStep_moves {rd : Reg} {r : Running} {s : State} (h : s.eng = .run r) : Moves rd s (genprimeStep rd r s) := by
  unfold genprimeStep
  split
  · exact genprimeCheck_moves h
  · exact genprimeHead_moves h
  · exact .goesOn _ r _ rfl h
  · exact genprimeTest_moves h _ _ _
  · exact .completes s.rngpos _ rfl

/-- Everything an engine step of any command can do. -/
theorem exec_moves {i : Instr} {s t : State} (h : exec i s = .next t) : Moves i.rd s t := by
  cases i <;> obtain ⟨r, hr, rfl⟩ := onRunning_next.mp h
  · exact modmulStep_moves _ r s
  · exact montmulStep_moves hr
  · exact modexpStep_moves hr
  · exact montr2Step_moves _ r s
  · exact randbitsStep_moves _ r s
  · exact randbtwStep_moves hr
  · exact mrtestStep_moves hr
  · exact genprimeStep_moves hr

/-- A command's meaning answers a next state exactly when the engine runs. -/
theorem exec_next_iff (i : Instr) (s : State) : (∃ t, exec i s = .next t) ↔ ∃ r, s.eng = .run r := by
  cases i <;> simp only [exec, execModmul, execMontmul, execModexp, execMontr2, execRandbits, execRandbtw, execMrtest, execGenprime,
    onRunning_next] <;> exact ⟨fun ⟨_, r, h, _⟩ => ⟨r, h⟩, fun ⟨r, h⟩ => ⟨_, r, h, rfl⟩⟩

/-- What a step of the engine can turn the state into (R33, R191). -/
theorem engineStep_cases {s t : State} (h : engineStep s = .next t) :
    (s.eng = .idle ∧ t = s) ∨ (∃ r i, s.eng = .run r ∧ decode r.word = .command i ∧ exec i s = .next t) ∨
      (∃ r w, s.eng = .run r ∧ decode r.word = .illegal w ∧ t = s.raise .illegalCommand) := by
  unfold engineStep at h
  cases he : s.eng with
  | idle => left; simp [he] at h; exact ⟨rfl, h.symm⟩
  | run r =>
    right
    simp only [he] at h
    cases hd : decode r.word with
    | command i => left; simp only [hd] at h; exact ⟨r, i, rfl, hd, h⟩
    | illegal w => right; simp only [hd, Host.Outcome.next.injEq] at h; exact ⟨r, w, rfl, hd, h.symm⟩

/-- What a turn can be: the engine's, a read, a write, a reset, or the end of a wait (R58). -/
theorem turnStep_cases {s t : State} (h : turnStep s = .next t) :
    (s.inbox = [] ∧ engineStep s = .next t) ∨
    (∃ addr size rest region, s.inbox = .read addr size :: rest ∧ locate s.params addr size = .found region ∧
      t = (s.popInbox rest).respond (readRegion (s.popInbox rest) region)) ∨
    (∃ addr size v rest region, s.inbox = .write addr size v :: rest ∧ locate s.params addr size = .found region ∧
      t = writeRegion (s.popInbox rest) region v) ∨
    (∃ rest, s.inbox = .reset :: rest ∧ t = (s.popInbox rest).assertReset) ∨
    (∃ rest, s.inbox = .engineTurn :: rest ∧ engineStep (s.popInbox rest) = .next t) ∨
    (∃ rest, s.inbox = .waitIdle :: rest ∧ s.busy = true ∧ engineStep s = .next t) ∨
    (∃ rest, s.inbox = .waitIdle :: rest ∧ s.busy = false ∧ t = (s.popInbox rest).respond s.statusWord) := by
  unfold turnStep at h
  cases hi : s.inbox with
  | nil => left; simp only [hi] at h; exact ⟨rfl, h⟩
  | cons e rest =>
    right
    simp only [hi] at h
    cases e with
    | read addr size =>
      left
      simp only [hostStep, hostRead, State.popInbox_params] at h
      cases hl : locate s.params addr size with
      | found region => simp only [hl, Host.Outcome.next.injEq] at h; exact ⟨addr, size, rest, region, rfl, hl, h.symm⟩
      | nowhere r => simp [hl] at h
    | write addr size v =>
      right; left
      simp only [hostStep, hostWrite, State.popInbox_params] at h
      cases hl : locate s.params addr size with
      | found region => simp only [hl, Host.Outcome.next.injEq] at h; exact ⟨addr, size, v, rest, region, rfl, hl, h.symm⟩
      | nowhere r => simp [hl] at h
    | reset => right; right; left; simp only [hostStep, Host.Outcome.next.injEq] at h; exact ⟨rest, rfl, h.symm⟩
    | engineTurn => right; right; right; left; exact ⟨rest, rfl, h⟩
    | waitIdle =>
      right; right; right; right
      simp only [hostStep, waitStep] at h
      cases hb : s.busy with
      | true => left; simp only [hb, if_true] at h; exact ⟨rest, rfl, rfl, h⟩
      | false => right; simp only [hb] at h; simp at h; exact ⟨rest, rfl, rfl, h.symm⟩

/-- A step is a turn of the state with the host's list filled (R202), so `turnStep_cases` says what a step can be. -/
theorem step_eq (s : State) : step s = turnStep s.refill := rfl

theorem step_of_events {s : State} {e : HostEvent} {rest : List HostEvent} (h : s.inbox = e :: rest) : step s = hostStep s e rest := by
  simp [step_eq, State.refill_of_events h, turnStep, h]

theorem step_of_silent {s : State} (h : s.inbox = []) (ht : s.tail = .silent) : step s = engineStep s := by
  simp [step_eq, State.refill_of_silent h ht, turnStep, h]

end Sys2Proof.Machine
end

