-- ==== Sys2Proof/Laws/Run.lean ====
section
/-! SUPPORT. Runs of several steps (`Host.Core.run`), and the idle block, which stays as it is (R191). -/

namespace Sys2Proof.Machine

@[simp] theorem run_zero (s : State) : Host.Core.run Sys2Proof.core 0 s = .next s := rfl

/-- A run begins with one step. -/
theorem run_succ {s t : State} (n : Nat) (h : step s = .next t) :
    Host.Core.run Sys2Proof.core (n + 1) s = Host.Core.run Sys2Proof.core n t := by
  have h' : Sys2Proof.core.step s = .next t := h
  simp only [Host.Core.run, h']

/-- A run that ends begins with a step that does. -/
theorem step_of_run_succ {s u : State} {n : Nat} (h : Host.Core.run Sys2Proof.core (n + 1) s = .next u) :
    ∃ t, step s = .next t ∧ Host.Core.run Sys2Proof.core n t = .next u := by
  cases hs : step s with
  | next t => exact ⟨t, rfl, (run_succ n hs) ▸ h⟩
  | fault r =>
    have h' : Sys2Proof.core.step s = .fault r := hs
    simp [Host.Core.run, h'] at h
  | refused r =>
    have h' : Sys2Proof.core.step s = .refused r := hs
    simp [Host.Core.run, h'] at h

/-- Runs compose. -/
theorem run_add {s t : State} {a : Nat} (b : Nat) (h : Host.Core.run Sys2Proof.core a s = .next t) :
    Host.Core.run Sys2Proof.core (a + b) s = Host.Core.run Sys2Proof.core b t := by
  induction a generalizing s with
  | zero =>
    obtain rfl : s = t := by
      have : (Host.Outcome.next s : Host.Outcome State Fault Refusal) = .next t := h
      simpa using this
    simp
  | succ a ih =>
    obtain ⟨u, hs, hr⟩ := step_of_run_succ h
    rw [Nat.add_right_comm, run_succ _ hs, ih hr]

/-- An idle block with a silent host stays as it is (R191). -/
theorem step_of_idle {s : State} (hi : s.inbox = []) (ht : s.tail = .silent) (he : s.eng = .idle) : step s = .next s := by
  simp [step_of_silent hi ht, engineStep, he]

theorem run_of_idle {s : State} (hi : s.inbox = []) (ht : s.tail = .silent) (he : s.eng = .idle) (n : Nat) :
    Host.Core.run Sys2Proof.core n s = .next s := by
  induction n with
  | zero => rfl
  | succ n ih => rw [run_succ n (step_of_idle hi ht he), ih]

end Sys2Proof.Machine
end

