-- ==== Sys2Proof/Laws/Completion.lean ====
section
/-! SUPPORT. What the shared operations of the engine leave, said once in the terms claims use: completion (R29), the fault entry (R173),
and that they keep the invariants of the state (R39). -/

namespace Sys2Proof.Machine

/-- A completion with a value that fits the register (R29, R170). -/
theorem completed_complete {s : State} {rd : Reg} {v : Nat} (c : Nat) (h : v < 2 ^ s.params.width) :
    Completed s ((s.setCursor c).complete rd v) rd v where
  written := State.complete_x_same h
  others q hq := by rw [State.complete_operand_other hq]; rfl
  idle := rfl
  status := rfl
  ctrl := rfl
  cause := rfl
  params := rfl
  epoch := rfl
  injected := rfl
  inbox := rfl
  tail := rfl
  outbox := rfl

theorem raise_eq_faulted (s : State) (f : FaultCause) : s.raise f = faulted s f := rfl

/-- With a silent host, a step of a running block is a step of its command (R33). -/
theorem step_of_running {s : State} {r : Running} {i : Instr} (hi : s.inbox = []) (ht : s.tail = .silent) (hr : s.eng = .run r)
    (hd : decode r.word = .command i) : step s = exec i s := by
  simp [step_of_silent hi ht, engineStep, hr, hd]

theorem State.Inv.raise {s : State} (h : s.Inv) (hd : s.status.done = false) (f : FaultCause) : (s.raise f).Inv where
  limbs := h.limbs
  busyQuiet := by simp
  notBoth := by simp [hd]
  causeErr := by simp only [State.raise_cause, State.raise_status, iff_true]; exact f.recorded_word_ne_zero
  cancelBusy := by simp
  latched := by simp

theorem State.Inv.complete {s : State} (h : s.Inv) (he : s.status.err = false) (rd : Reg) (v : Nat) : (s.complete rd v).Inv where
  limbs i := by
    by_cases e : i = rd
    · subst e; simp
    · simp [State.complete_operand_other e, h.limbs]
  busyQuiet := by simp
  notBoth := by simp [he]
  causeErr := by simpa using h.causeErr
  cancelBusy := by simp
  latched := by simp

theorem State.Inv.goOn {s : State} {r : Running} (h : s.Inv) (hr : s.eng = .run r) (mu : Mu) : (s.goOn r mu).Inv where
  limbs := h.limbs
  busyQuiet := by simpa [hr] using h.busyQuiet
  notBoth := h.notBoth
  causeErr := h.causeErr
  cancelBusy := by simpa [hr] using h.cancelBusy
  latched q hq := by
    rw [State.goOn_eng, Engine.run.injEq] at hq
    subst hq
    exact h.latched r hr

theorem State.Inv.setCursor {s : State} (h : s.Inv) (c : Nat) : (s.setCursor c).Inv := ⟨h.1, h.2, h.3, h.4, h.5, h.6⟩

theorem State.Inv.popInbox {s : State} (h : s.Inv) (rest : List HostEvent) : (s.popInbox rest).Inv := ⟨h.1, h.2, h.3, h.4, h.5, h.6⟩

theorem State.Inv.respond {s : State} (h : s.Inv) (v : Limb) : (s.respond v).Inv := ⟨h.1, h.2, h.3, h.4, h.5, h.6⟩

theorem State.Inv.refill {s : State} (h : s.Inv) : s.refill.Inv := by
  obtain ⟨inbox, tail, e⟩ := s.refill_eq
  rw [e]
  exact ⟨h.1, h.2, h.3, h.4, h.5, h.6⟩

theorem State.Inv.markDrop {s : State} (h : s.Inv) : s.markDrop.Inv := ⟨h.1, h.2, h.3, h.4, h.5, h.6⟩

end Sys2Proof.Machine
end

