-- ==== Sys2Proof/Laws/Encoding.lean ====
section
/-! SUPPORT. Fields and words of a command determine each other (R71), and what the decoder answers, said once (R75, R79). -/

namespace Sys2Proof

/-- Putting the fields of a word together gives the word back: the six fields cover all 32 bits (R71). -/
@[simp] theorem wordOf_fieldsOf (w : CmdWord) : wordOf (fieldsOf w) = w := by
  have hw := w.isLt
  apply BitVec.eq_of_toNat_eq
  simp only [wordOf, fieldsOf, regOfBits, bits, BitVec.toNat_ofNat]
  omega

/-- Reading the fields of a word made of fields gives them back: the fields do not overlap (R71). -/
@[simp] theorem fieldsOf_wordOf (x : Fields) : fieldsOf (wordOf x) = x := by
  obtain ⟨op, ⟨rd, hd⟩, ⟨ra, ha⟩, ⟨rb, hb⟩, ⟨rc, hc⟩, z⟩ := x
  have ho := op.isLt
  have hz := z.isLt
  simp only [fieldsOf, wordOf, regOfBits, bits, BitVec.toNat_ofNat, Fields.mk.injEq, Fin.mk.injEq]
  refine ⟨?_, by omega, by omega, by omega, by omega, ?_⟩
  all_goals apply BitVec.eq_of_toNat_eq; simp only [BitVec.toNat_ofNat]; omega

theorem ofOpcode_opcode (m : Mnemonic) : Mnemonic.ofOpcode m.opcode = some m := by cases m <;> rfl

theorem opcode_of_ofOpcode {op : BitVec 8} {m : Mnemonic} (h : Mnemonic.ofOpcode op = some m) : m.opcode = op := by
  simpa using List.find?_some h

/-- When fields decode to a command: the opcode is allocated and the must-be-zero fields of its format are zero (R75, R76). -/
theorem decodeFields_command_iff {x : Fields} {i : Instr} :
    decodeFields x = .command i ↔ ∃ m, Mnemonic.ofOpcode x.op = some m ∧ x.wellFormed m.format = true ∧ m.build x = i := by
  unfold decodeFields Fields.wellFormed
  cases Mnemonic.ofOpcode x.op with
  | none => simp
  | some m => cases h1 : x.zClear <;> cases h2 : x.rcClear m.format <;> cases h3 : x.rbClear m.format <;> simp [h2, h3]

end Sys2Proof
end

