-- ==== Sys2Proof/Laws/PerInstr.lean ====
section
/-! SUPPORT. What holds of every command as syntax: it is well formed and its opcode leads back to its row (R74, R76). -/

/-- The family `Encoded`: a command's fields are well formed for its format and its opcode is the one of its row. -/
def Sys2Proof.Laws.Encoded.Statement (i : Sys2Proof.Instr) : Prop :=
  i.wellFormed = true ∧ Sys2Proof.Mnemonic.ofOpcode i.fields.op = some i.mnemonic

theorem Sys2Proof.Laws.Encoded.modmul (rd ra rb rc : Sys2Proof.Reg) : Sys2Proof.Laws.Encoded.Statement (.modmul rd ra rb rc) := ⟨rfl, rfl⟩

theorem Sys2Proof.Laws.Encoded.montmul (rd ra rb rc : Sys2Proof.Reg) : Sys2Proof.Laws.Encoded.Statement (.montmul rd ra rb rc) := ⟨rfl, rfl⟩

theorem Sys2Proof.Laws.Encoded.modexp (rd ra rb rc : Sys2Proof.Reg) : Sys2Proof.Laws.Encoded.Statement (.modexp rd ra rb rc) := ⟨rfl, rfl⟩

theorem Sys2Proof.Laws.Encoded.montr2 (rd ra : Sys2Proof.Reg) : Sys2Proof.Laws.Encoded.Statement (.montr2 rd ra) := ⟨rfl, rfl⟩

theorem Sys2Proof.Laws.Encoded.randbits (rd ra : Sys2Proof.Reg) : Sys2Proof.Laws.Encoded.Statement (.randbits rd ra) := ⟨rfl, rfl⟩

theorem Sys2Proof.Laws.Encoded.randbtw (rd ra rb : Sys2Proof.Reg) : Sys2Proof.Laws.Encoded.Statement (.randbtw rd ra rb) := ⟨rfl, rfl⟩

theorem Sys2Proof.Laws.Encoded.mrtest (rd ra rb : Sys2Proof.Reg) : Sys2Proof.Laws.Encoded.Statement (.mrtest rd ra rb) := ⟨rfl, rfl⟩

theorem Sys2Proof.Laws.Encoded.genprime (rd ra rb : Sys2Proof.Reg) : Sys2Proof.Laws.Encoded.Statement (.genprime rd ra rb) := ⟨rfl, rfl⟩
end

