-- ==== Sys2Proof/Tests/Slice0.lean ====
section
/-! SUPPORT. Tests of single steps, their expected values from spec/95_test_vectors.md or worked by hand from the rule named, and for every
statement with hypotheses a witness that meets them. -/

namespace Sys2Proof.Machine

/-! ### Helpers -/

/-- The state after reset with a command running on the given latches. -/
def running (p : Params) (i : Instr) (a b c : Nat) (mu : Mu) : State :=
  { State.resetAt p 0 [] with eng := .run { word := encode i, a := a, b := b, c := c, mu := mu } }

/-- The same with the first chunks of the stream given. -/
def runningOn (first : List Nat) (i : Instr) (a b c : Nat) (mu : Mu) : State :=
  { running Params.reference i a b c mu with injected := { first := first, cycle := [] } }

/-- `running` at the reference parameters. -/
def runs (i : Instr) (a b c : Nat) (mu : Mu) : State := running Params.reference i a b c mu

/-- The reference parameters with `HAS_CANCEL` and `ZERO_EXP_FAULTS`. -/
def Params.allHooks : Params := { Params.reference with hasCancel := true, zeroExpFaults := true }

/-- `x[q]`, `STATUS`, `CAUSE` and the cursor after one outcome. -/
def seen (q : Reg) : Host.Outcome State Fault Refusal → Option (Nat × Limb × Limb × Nat)
  | .next t => some (t.x q, t.statusWord, t.cause.word, t.rngpos)
  | _ => none

/-- `STATUS`, `CAUSE` and the cursor after one outcome. -/
def flags : Host.Outcome State Fault Refusal → Option (Limb × Limb × Nat)
  | .next t => some (t.statusWord, t.cause.word, t.rngpos)
  | _ => none

/-- The loop variables after one outcome. -/
def loopVars : Host.Outcome State Fault Refusal → Option Mu
  | .next t => match t.eng with
    | .run r => some r.mu
    | .idle => none
  | _ => none

/-! ### Well-formedness -/

theorem test_ill_formed_z : Fields.wellFormed .q { op := 0x01, rd := 0, ra := 0, rb := 0, rc := 0, z := 1 } = false := by decide
theorem test_ill_formed_rc_t : Fields.wellFormed .t { op := 0x21, rd := 0, ra := 0, rb := 0, rc := 1, z := 0 } = false := by decide
theorem test_ill_formed_rc_p : Fields.wellFormed .p { op := 0x10, rd := 0, ra := 0, rb := 0, rc := 1, z := 0 } = false := by decide
theorem test_ill_formed_rb_p : Fields.wellFormed .p { op := 0x10, rd := 0, ra := 0, rb := 1, rc := 0, z := 0 } = false := by decide
theorem test_well_formed_q : Fields.wellFormed .q { op := 0x01, rd := 7, ra := 7, rb := 7, rc := 7, z := 0 } = true := by decide

/-! ### Decoding: words written out bit by bit from R71, as z, rc, rb, ra, rd, op -/

theorem test_decode_modmul : decode 0b000000000000_011_010_001_000_00000001 = .command (.modmul 0 1 2 3) := by decide
theorem test_decode_montmul : decode 0b000000000000_011_001_111_001_00000010 = .command (.montmul 1 7 1 3) := by decide
theorem test_decode_modexp : decode 0b000000000000_000_101_100_011_00000011 = .command (.modexp 3 4 5 0) := by decide
theorem test_decode_montr2 : decode 0b000000000000_000_000_011_100_00000100 = .command (.montr2 4 3) := by decide
theorem test_decode_randbits : decode 0b000000000000_000_000_110_111_00010000 = .command (.randbits 7 6) := by decide
theorem test_decode_randbtw : decode 0b000000000000_000_010_001_000_00010001 = .command (.randbtw 0 1 2) := by decide
theorem test_decode_mrtest : decode 0b000000000000_000_001_000_011_00100000 = .command (.mrtest 3 0 1) := by decide
theorem test_decode_genprime : decode 0b000000000000_000_111_111_111_00100001 = .command (.genprime 7 7 7) := by decide
/-- V-MM-12 -/
theorem test_encode_modmul_repeated : encode (.modmul 3 3 3 2) = 0x0004DB01 := by decide
theorem test_decode_table_word : decodeTableWord 32 0x00068803 = some (.modexp 0 1 2 3) := by decide

/-! ### One step of every command -/

/-- V-MM-1 -/
theorem test_modmul : seen 0 (exec (.modmul 0 1 2 3) (runs (.modmul 0 1 2 3) 7 9 13 .start)) = some (11, 2, 0, 0) := by decide
/-- V-MM-9: a product of 128 bits, an even modulus -/
theorem test_modmul_top : seen 0 (exec (.modmul 0 1 2 3)
    (runs (.modmul 0 1 2 3) (2 ^ 64 - 1) (2 ^ 64 - 1) (2 ^ 64 - 2) .start)) = some (1, 2, 0, 0) := by decide
/-- V-MO-1: the end of the loop with `S = 20 ≥ 13`, so one subtraction -/
theorem test_montmul_end : seen 4 (exec (.montmul 4 1 2 3)
    (runs (.montmul 4 1 2 3) 7 9 13 (.mont { i := 32, acc := 20 }))) = some (7, 2, 0, 0) := by decide
/-- R99 by hand: `S = 0 + 1 * 9 = 9`, odd, `9 + 13 = 22`, halved 11 -/
theorem test_montmul_iteration : loopVars (exec (.montmul 4 1 2 3)
    (runs (.montmul 4 1 2 3) 7 9 13 (.mont { i := 0, acc := 0 }))) = some (.mont { i := 1, acc := 11 }) := by decide
/-- V-MR2-6 -/
theorem test_montr2 : seen 4 (exec (.montr2 4 3) (runs (.montr2 4 3) 1000000007 0 0 .start)) = some (582344008, 2, 0, 0) := by decide
/-- V-MR2-9 -/
theorem test_montr2_even : flags (exec (.montr2 4 3) (runs (.montr2 4 3) 1000 0 0 .start)) = some (4, 0x223, 0) := by decide
/-- The trace under R115, iteration 4: both products use the old base -/
theorem test_modexp_iteration : loopVars (exec (.modexp 0 1 2 3)
    (runs (.modexp 0 1 2 3) 2 10 1000 (.exp { result := 4, base := 256, exp := 1 }))) =
    some (.exp { result := 24, base := 536, exp := 0 }) := by decide
/-- V-ME-20, the step at which `exp = 0` is seen -/
theorem test_modexp_end : seen 0 (exec (.modexp 0 1 2 3)
    (runs (.modexp 0 1 2 3) 2 10 1000 (.exp { result := 24, base := 536, exp := 0 }))) = some (24, 2, 0, 0) := by decide

/-- R114's second example, on Montgomery forms (R116 law 5). -/
theorem test_montModexp : montModexp 3 4 7 = .ok 4 := by decide

/-- The exponent scan of R116 law 5 begins at the forms of 1 and of 7: V-MO-2 and R95's `2^32 mod 13`. -/
theorem test_montExpStart : montExpStart 20 3 13 = .ok { result := 9, base := 11, exp := 3 } := by decide
/-- V-RB-8: the first chunk is the most significant -/
theorem test_randbits : seen 0 (exec (.randbits 0 1) (runningOn [0xDEADBEEF, 0x12345678] (.randbits 0 1) 40 0 0 .start)) =
    some (0xEF12345678, 2, 0, 2) := by decide
/-- V-RB-10 -/
theorem test_randbits_too_wide : flags (exec (.randbits 0 1) (runs (.randbits 0 1) 65 0 0 .start)) = some (4, 0x502, 0) := by decide
/-- V-RW-3: the third draw is accepted -/
theorem test_randbtw : seen 0 (exec (.randbtw 0 1 2) (runningOn [0x31] (.randbtw 0 1 2) 2 51 0 .start)) = some (51, 2, 0, 1) := by decide
/-- V-RW-3: the second draw equals `range` and is rejected -/
theorem test_randbtw_rejects : flags (exec (.randbtw 0 1 2) (runningOn [0x32] (.randbtw 0 1 2) 2 51 0 .start)) = some (1, 0, 1) := by decide
/-- V-MR-4: witness 2 of 53 gives 30, to be squared -/
theorem test_mrtest_exp : loopVars (exec (.mrtest 0 1 2) (runs (.mrtest 0 1 2) 53 2 0 (.mr (.exp 13 2 1 2)))) =
    some (.mr (.sqr 13 2 1 2 30 1)) := by decide
/-- V-MR-11: the round count is tested first, also for an `n < 2` -/
theorem test_mrtest_rounds : flags (exec (.mrtest 0 1 2) (runs (.mrtest 0 1 2) 1 0 0 (.mr .check))) = some (4, 0x111, 0) := by decide
/-- V-GP-5b: the first candidate is 3127 -/
theorem test_genprime_draw : loopVars (exec (.genprime 0 1 2) (runningOn [0x436] (.genprime 0 1 2) 12 2 0 (.pg .draw))) =
    some (.pg (.test 3127 .check)) := by decide
/-- V-GP-9: the first check wins -/
theorem test_genprime_bits : flags (exec (.genprime 0 1 2) (runs (.genprime 0 1 2) 1 0 0 (.pg .check))) = some (4, 0x110, 0) := by decide

/-! ### The host -/

/-- V-LB-1 -/
theorem test_opw : opw Params.reference 3 1 = 0x101C ∧ Params.reference.spaceBytes = 0x1040 := by decide
/-- V-LB-2 -/
theorem test_opw_wide : opw { Params.reference with extraLimbs := 62 } 7 63 = 0x17FC := by decide
/-- V-LB-3 -/
theorem test_limbs : limbsOf 2 0xDEADBEEF12345678 = [0x12345678, 0xDEADBEEF] := by decide
/-- V-LB-5: an operand write while a command runs is ignored -/
theorem test_write_while_busy : flags (step { runs (.modmul 0 1 2 3) 7 9 13 .start with inbox := [.write 0x1000 4 9] }) =
    some (9, 0, 0) := by decide
/-- P5: an illegal word faults at the write itself -/
theorem test_illegal_word : flags (step { State.reset with inbox := [.write 0 4 0x00100001] }) = some (4, 0x501, 0) := by decide
/-- P5: `CLR 0xC` clears `ERR`, `DROP` and `CAUSE` -/
theorem test_clear : flags (step { faulted State.reset .primeBitsTooSmall with
    status := { done := false, err := true, drop := true }, inbox := [.write 4 4 0xC] }) = some (0, 0, 0) := by decide
/-- P6: at the loop head a requested cancellation ends the search -/
theorem test_cancel : flags (exec (.genprime 0 1 2) { running Params.allHooks (.genprime 0 1 2) 12 2 0 (.pg .head) with
    ctrl := { cancel := true } }) = some (4, 0x503, 0) := by decide
/-- R81 -/
theorem test_asm : asmText (.modmul 3 3 3 2) = "MODMUL x3, x3, x3, x2" := by decide +kernel

/-- R202 by hand: the repeated events begin again when the list is exhausted, and the host reads `BUSY = 1` -/
theorem test_again : (match step { runs (.modmul 0 1 2 3) 7 9 13 .start with tail := .again [.read 4 4, .engineTurn] } with
    | .next t => some (t.outbox, t.inbox)
    | _ => none) = some ([1], [.engineTurn]) := by decide

/-! ### What the witnesses are made of -/

theorem reset_inv (p : Params) : (State.resetAt p 0 []).Inv where
  limbs i := by rw [State.resetAt_operand, length_resetOperand]; rfl
  busyQuiet h := by cases h
  notBoth := by simp [State.resetAt]
  causeErr := by simp [State.resetAt, Cause.word]
  cancelBusy h := by cases h
  latched r h := by cases h

theorem running_inv (p : Params) (i : Instr) (a b c : Nat) (mu : Mu) (hd : decode (encode i) = .command i)
    (h : a < 2 ^ p.width ∧ b < 2 ^ p.width ∧ c < 2 ^ p.width) : (running p i a b c mu).Inv where
  limbs := (reset_inv p).limbs
  busyQuiet _ := ⟨rfl, rfl⟩
  notBoth := (reset_inv p).notBoth
  causeErr := (reset_inv p).causeErr
  cancelBusy h := by cases h
  latched r hr := Engine.run.inj hr ▸ ⟨⟨i, hd⟩, h⟩

theorem running_accepted (p : Params) (i : Instr) (a b c : Nat) (hd : decode (encode i) = .command i)
    (h : a < 2 ^ p.width ∧ b < 2 ^ p.width ∧ c < 2 ^ p.width) :
    (running p i a b c (startMu i)).Accepted i { word := encode i, a := a, b := b, c := c, mu := startMu i } :=
  ⟨running_inv p i a b c _ hd h, rfl, hd, rfl, rfl, rfl⟩

/-- A given stream does not matter for being accepted. -/
theorem accepted_injected {s : State} {i : Instr} {r : Running} (h : s.Accepted i r) (g : Injected) :
    State.Accepted { s with injected := g } i r :=
  ⟨⟨h.1.1, h.1.2, h.1.3, h.1.4, h.1.5, h.1.6⟩, h.2⟩

/-- A state whose stream repeats one chunk for ever. -/
def constantly (v : Nat) (s : State) : State := { s with injected := { first := [], cycle := [v] } }

theorem constantly_xi (v : Nat) (s : State) (i : Nat) : (constantly v s).xi i = v % 2 ^ s.params.chunkBits := by
  simp [constantly, State.xi, injectedAt, Nat.mod_one]

theorem concatChunks_zero (cw : Nat) (xi : Nat → Nat) (h : ∀ i, xi i = 0) (n c : Nat) : concatChunks cw xi n c 0 = 0 := by
  induction n generalizing c with
  | zero => rfl
  | succ n ih => simp [concatChunks, h, ih]

theorem randomBits_zero (cw : Nat) (xi : Nat → Nat) (h : ∀ i, xi i = 0) (k c : Nat) : (randomBits cw xi k c).1 = 0 := by
  simp [randomBits, concatChunks_zero cw xi h]

theorem constantly_zero_fair (s : State) : RngFair (constantly 0 s).params.chunkBits (constantly 0 s).xi := by
  intro c b range _ h _
  refine ⟨0, ?_⟩
  rw [randomBits_zero _ _ (fun i => by rw [constantly_xi, Nat.zero_mod])]
  exact Nat.lt_of_le_of_lt (Nat.zero_le _) h

/-- Every candidate is 9 on the stream of zeros (V-GP-10). -/
theorem primeLoop_nines (cw : Nat) (xi : Nat → Nat) (h : ∀ i, xi i = 0) (fuel n c : Nat) : primeLoop cw xi 4 1 fuel n c = none := by
  induction n generalizing c with
  | zero => rfl
  | succ n ih =>
    have hc : (drawCandidate cw xi 4 c).1 = 9 := by simp [drawCandidate, randomBits_zero cw xi h, forceCandidate]
    have hm (c' : Nat) : isProbablePrime cw xi 9 1 fuel c' = some (false, c') := by
      simp [isProbablePrime, show trialDivide 9 smallPrimes = some false by decide]
    simp only [primeLoop, hc, hm, ih]

/-! ### Witnesses: for every statement with hypotheses, a state and operands that meet them, clause by clause -/

theorem witness_EncodeOfDecodeIsTheWord : decode 0x0001FF21 = .command (.genprime 7 7 7) := by decide

theorem witness_LegalExactlyWhenOneRowMatches :
    ((0x0001FF21 : CmdWord) &&& (Mnemonic.genprime).format.mask = (Mnemonic.genprime).pattern) ∧
    State.reset.busy = false ∧ State.reset.status.err = false ∧
    ∀ m ∈ Mnemonic.all, (0x00100001 : CmdWord) &&& m.format.mask ≠ m.pattern := by decide

theorem witness_StepRunsTheLatchedCommand :
    (∃ (s : State) (r : Running), s.eng = .run r ∧ decode r.word = .command (.modmul 0 1 2 3) ∧ s.inbox = [] ∧
      s.tail = .silent) ∧
    (∃ (s : State) (r : Running), s.eng = .run r ∧ decode r.word = .command (.modmul 0 1 2 3) ∧ s.inbox = [.engineTurn]) ∧
    (∃ (s : State) (r : Running), s.eng = .run r ∧ decode r.word = .command (.modmul 0 1 2 3) ∧ s.inbox = [.waitIdle]) ∧
    decodeTableWord 32 0x00068801 = some (.modmul 0 1 2 3) ∧ State.reset.eng = .idle ∧
    (State.reset.inbox = [] ∧ State.reset.tail = .silent) ∧ (∃ s : State, s.inbox = [] ∧ s.tail = .again [.waitIdle]) ∧
    (∃ s : State, s.inbox = [] ∧ s.tail = .free 7) :=
  ⟨⟨runs (.modmul 0 1 2 3) 7 9 13 .start, _, rfl, by decide, rfl, rfl⟩,
    ⟨{ runs (.modmul 0 1 2 3) 7 9 13 .start with inbox := [.engineTurn] }, _, rfl, by decide, rfl⟩,
    ⟨{ runs (.modmul 0 1 2 3) 7 9 13 .start with inbox := [.waitIdle] }, _, rfl, by decide, rfl⟩, by decide, rfl, ⟨rfl, rfl⟩,
    ⟨{ State.reset with tail := .again [.waitIdle] }, rfl, rfl⟩, ⟨{ State.reset with tail := .free 7 }, rfl, rfl⟩⟩

theorem witness_IssueOfACommandWord :
    (∃ s : State, s.inbox = [.write s.params.base 4 0x00068801] ∧ s.busy = true) ∧
    (∃ s : State, s.inbox = [.write s.params.base 4 0x00068801] ∧ s.status.err = true) ∧
    (∃ s : State, s.inbox = [.write s.params.base 4 0] ∧ s.busy = false ∧ s.status.err = false ∧
      decode 0 = .illegal .unallocatedOpcode) ∧
    (∃ s : State, s.inbox = [.write s.params.base 4 0x00068801] ∧ s.busy = false ∧ s.status.err = false ∧
      decode 0x00068801 = .command (.modmul 0 1 2 3)) :=
  ⟨⟨{ runs (.modmul 0 1 2 3) 7 9 13 .start with inbox := [.write 0 4 0x00068801] }, rfl, rfl⟩,
    ⟨{ faulted State.reset .zeroModulus with inbox := [.write 0 4 0x00068801] }, rfl, rfl⟩,
    ⟨{ State.reset with inbox := [.write 0 4 0] }, rfl, rfl, rfl, by decide⟩,
    ⟨{ State.reset with inbox := [.write 0 4 0x00068801] }, rfl, rfl, rfl, by decide⟩⟩

theorem witness_OperandWindowsFillTheSpace : 1 < Params.reference.limbs ∧
    0x1000 ≤ 0x1000 ∧ 0x103C < 0x1000 + Params.reference.width ∧ 0x103C % 4 = 0 := by decide

theorem witness_ControlRegistersAreAtTheirOffsets : 0x010 ≤ 0xFFC ∧ 0xFFC ≤ 0xFFC ∧ 0xFFC % 4 = 0 ∧ 0x010 % 4 = 0 := by decide

theorem witness_OnlyAlignedWordAccessesAreDefined :
    (State.reset.params.base ≤ 0x103C ∧ 0x103C < State.reset.params.base + State.reset.params.spaceBytes ∧ 0x103C % 4 = 0) ∧
    ¬(4 = 4 ∧ 2 % 4 = 0) ∧ ¬(8 = 4 ∧ 0 % 4 = 0) ∧
    (0x1040 % 4 = 0 ∧ ¬(State.reset.params.base ≤ 0x1040 ∧ 0x1040 < State.reset.params.base + State.reset.params.spaceBytes)) := by decide

theorem witness_LimbsAreLittleEndian : State.reset.Inv ∧ 1 < State.reset.params.limbs ∧ State.reset.busy = false ∧ (1 : Reg) ≠ 0 ∧ 3 ≤ 3 :=
  ⟨reset_inv _, by decide⟩

theorem witness_AccessesWhileACommandRuns :
    (runs (.modmul 0 1 2 3) 7 9 13 .start).busy = true ∧
    ((faulted State.reset .zeroModulus).busy = false ∧ (faulted State.reset .zeroModulus).status.err = true) ∧
    ∃ (s t : State) (r : Running), s.eng = .run r ∧ exec (.genprime 0 1 2) s = .next t ∧ t.busy = true :=
  ⟨rfl, ⟨rfl, rfl⟩, runs (.genprime 0 1 2) 2 1 0 (.pg .check), _, _, rfl, rfl, rfl⟩

theorem witness_StatusRegisterBits : 4 ≤ 31 ∧ (runs (.modmul 0 1 2 3) 7 9 13 .start).Inv ∧
    (runs (.modmul 0 1 2 3) 7 9 13 .start).busy = true :=
  ⟨by decide, running_inv _ _ _ _ _ _ (by decide) (by decide), rfl⟩

theorem witness_CauseRegisterLayout : (4 : Limb).getLsbD 2 = true ∧ State.reset.Inv ∧ State.reset.status.err = false ∧
    ∃ s t : State, exec (.modmul 0 1 2 3) s = .next t ∧ s.status.err = false ∧ t.status.err = true :=
  ⟨by decide, reset_inv _, rfl, runs (.modmul 0 1 2 3) 5 6 0 .start, _, rfl, rfl, rfl⟩

theorem witness_CtrlRegisterCancelBit :
    State.reset.params.hasCancel = false ∧ Params.allHooks.hasCancel = true ∧
    (1 : Limb).getLsbD 0 = true ∧ (0 : Limb).getLsbD 0 = false ∧
    (running Params.allHooks (.genprime 0 1 2) 12 2 0 (.pg .head)).busy = true ∧ (State.resetAt Params.allHooks 0 []).busy = false ∧
    (∃ t, exec (.modmul 0 1 2 3) (runs (.modmul 0 1 2 3) 7 9 13 .start) = .next t ∧ t.busy = false) ∧ State.reset.Inv :=
  ⟨rfl, rfl, by decide, by decide, rfl, rfl, ⟨_, rfl, rfl⟩, reset_inv _⟩

theorem witness_SideEffectsOfAccesses :
    (∃ s t : State, s.inbox = [.read 0x004 4] ∧ step s = .next t) ∧ (Region.status ≠ .cmd ∧ Region.window 7 1 ≠ .cmd) :=
  ⟨⟨{ State.reset with inbox := [.read 0x004 4] }, _, rfl, rfl⟩, by decide⟩

theorem witness_HostCannotReachTheEngine :
    Region.ctrl ≠ .cmd ∧ (runs (.modmul 0 1 2 3) 7 9 13 .start).busy = true ∧ (∀ j, Region.window 1 1 ≠ .window 0 j) ∧
    ∃ r, (runs (.modmul 0 1 2 3) 7 9 13 .start).eng = .run r :=
  ⟨by decide, rfl, by simp, _, rfl⟩

theorem witness_WrAndRdReachTheRegister :
    (∃ s : State, s.Inv ∧ s.busy = false ∧ 2 ^ 64 - 1 < 2 ^ s.params.width ∧ s.inbox = wrEvents s.params 7 (2 ^ 64 - 1)) ∧
    (∃ s : State, s.Inv ∧ s.inbox = rdEvents s.params 7) :=
  ⟨⟨(State.reset).popInbox (wrEvents Params.reference 7 (2 ^ 64 - 1)), (reset_inv _).popInbox _, rfl, by decide, rfl⟩,
    ⟨(State.reset).popInbox (rdEvents Params.reference 7), (reset_inv _).popInbox _, rfl⟩⟩

theorem witness_FaultTable :
    (∃ s t : State, exec (.modmul 0 1 2 3) s = .next t ∧ s.status.err = false ∧ t.status.err = true) ∧
    (∃ s t : State, step s = .next t ∧ s.inbox = []) :=
  ⟨⟨runs (.modmul 0 1 2 3) 5 6 0 .start, _, rfl, rfl, rfl⟩, ⟨State.reset, _, rfl, rfl⟩⟩

theorem witness_FaultEntry :
    (∃ s t : State, s.Inv ∧ exec (.montmul 0 1 2 3) s = .next t ∧ s.status.err = false ∧ t.status.err = true) ∧
    State.reset.busy = false ∧ State.reset.status.err = false ∧ decode 0 = .illegal .unallocatedOpcode :=
  ⟨⟨runs (.montmul 0 1 2 3) 13 5 13 .start, _, running_inv _ _ _ _ _ _ (by decide) (by decide), rfl, rfl, rfl⟩, rfl, rfl, by decide⟩

theorem witness_ChecksReportTheFirstFault :
    (∃ (s : State) (r : Running), s.eng = .run r ∧ r.mu = startMu (.genprime 0 1 2) ∧
      firstFault s.params (.genprime 0 1 2) r = some .primeBitsTooSmall) ∧
    (∃ (s : State) (r : Running), s.eng = .run r ∧ r.mu = startMu (.montmul 0 1 2 3) ∧
      firstFault s.params (.montmul 0 1 2 3) r = none) ∧
    (∃ (s t : State) (r : Running), s.eng = .run r ∧ unitOk s.params (.genprime 0 1 2) r ∧ r.mu ≠ startMu (.genprime 0 1 2) ∧
      exec (.genprime 0 1 2) s = .next t ∧ s.status.err = false ∧ t.status.err = true) ∧
    (State.reset.busy = false ∧ State.reset.status.err = false ∧ decode 0 = .illegal .unallocatedOpcode ∧
      decode 0x00068801 = .command (.modmul 0 1 2 3)) ∧ (runs (.modmul 0 1 2 3) 7 9 13 .start).busy = true :=
  ⟨⟨runs (.genprime 0 1 2) 1 0 0 (.pg .check), _, rfl, rfl, by decide⟩,
    ⟨runs (.montmul 0 1 2 3) 12 12 13 .start, _, rfl, rfl, by decide⟩,
    ⟨{ running Params.allHooks (.genprime 0 1 2) 12 2 0 (.pg .head) with ctrl := { cancel := true } }, _, _, rfl,
      by unfold unitOk pgOk; decide, by decide, rfl, rfl, rfl⟩, ⟨rfl, rfl, by decide, by decide⟩, rfl⟩

theorem witness_RecordedFaultStays : ∃ s t : State, s.Inv ∧ s.status.err = true ∧ step s = .next t ∧ (∀ rest, s.refill.inbox ≠ .reset :: rest) ∧
    (∀ addr size v rest, s.refill.inbox = .write addr size v :: rest → locate s.params addr size = .found .status → v.getLsbD 2 = false) :=
  ⟨(faulted State.reset .zeroModulus).popInbox [.write 4 4 0xA], _, ((reset_inv _).raise rfl _).popInbox _, rfl, rfl,
    (fun rest h => by cases h), (fun addr size v rest h _ => by cases h; decide)⟩

theorem witness_StepKeepsStateInvariant : ∃ s t : State, s.Inv ∧ step s = .next t ∧ t.busy = true :=
  ⟨runs (.genprime 0 1 2) 12 2 0 (.pg .check), _, running_inv _ _ _ _ _ _ (by decide) (by decide), rfl, rfl⟩

theorem witness_StepKeepsEngineInvariant : ∃ s t : State, s.EngineInv ∧ step s = .next t ∧ t.busy = true :=
  ⟨runs (.genprime 0 1 2) 12 2 0 (.pg .head), _, fun r hr =>
    Engine.run.inj hr ▸ ⟨.genprime 0 1 2, by decide, by unfold unitOk pgOk; decide⟩, rfl, rfl⟩

theorem witness_ResetFromAnyState :
    (∃ s : State, s.inbox = [.reset] ∧ s.busy = true) ∧ (∃ s t : State, step s = .next t ∧ ∀ rest, s.refill.inbox ≠ .reset :: rest) :=
  ⟨⟨(runs (.modmul 0 1 2 3) 7 9 13 .start).popInbox [.reset], rfl, rfl⟩, ⟨State.reset, _, rfl, by intro rest h; cases h⟩⟩

theorem witness_EngineStepFrame :
    (∃ s t : State, exec (.modmul 0 1 2 3) s = .next t ∧ t.cause ≠ s.cause) ∧ (∃ s t : State, exec (.modexp 0 1 2 3) s = .next t ∧ t.busy = true) ∧
    (∃ s t : State, exec (.montr2 0 1) s = .next t) ∧ (1 : Reg) ≠ (Instr.modmul 0 1 2 3).rd :=
  ⟨⟨runs (.modmul 0 1 2 3) 5 6 0 .start, _, rfl, by decide⟩, ⟨runs (.modexp 0 1 2 3) 2 10 1000 .start, _, rfl, rfl⟩,
    ⟨runs (.montr2 0 1) 13 0 0 .start, _, rfl⟩, by decide⟩

/-- The two states differ in `DROP`, in what the host does next and in every chunk but the one the step draws (V-RW-3). -/
theorem witness_ResultDependsOnLatchesAndChunksOnly :
    ∃ s s' t t' : State, exec (.randbtw 0 1 2) s = .next t ∧ exec (.randbtw 0 1 2) s' = .next t' ∧ s'.params = s.params ∧
      s'.eng = s.eng ∧ s'.rngpos = s.rngpos ∧ s'.ctrl = s.ctrl ∧ (∀ j, s.rngpos ≤ j → j < t.rngpos → s'.xi j = s.xi j) ∧
      s.status.err = false ∧ s'.status.err = false ∧ s'.status ≠ s.status ∧ s'.xi 1 ≠ s.xi 1 ∧ t.busy = false ∧
      t.status.err = false := by
  refine ⟨runningOn [0x31, 5] (.randbtw 0 1 2) 2 51 0 .start, { runningOn [0x31, 6] (.randbtw 0 1 2) 2 51 0 .start with
    status := { done := false, err := false, drop := true }, inbox := [.waitIdle] }, _, _, rfl, rfl, rfl, rfl, rfl, rfl, ?_, rfl, rfl,
    by decide, by decide, rfl, rfl⟩
  intro j _ hj
  obtain rfl : j = 0 := Nat.lt_one_iff.mp hj
  rfl

/-- The same where the command faults. -/
theorem witness_ResultDependsOnLatchesAndChunksOnly_fault :
    ∃ s s' t t' : State, exec (.modmul 0 1 2 3) s = .next t ∧ exec (.modmul 0 1 2 3) s' = .next t' ∧ s'.params = s.params ∧
      s'.eng = s.eng ∧ s'.rngpos = s.rngpos ∧ s'.ctrl = s.ctrl ∧ (∀ j, s.rngpos ≤ j → j < t.rngpos → s'.xi j = s.xi j) ∧
      s.status.err = false ∧ s'.status.err = false ∧ s'.status ≠ s.status ∧ t.status.err = true :=
  ⟨runs (.modmul 0 1 2 3) 7 9 0 .start,
    { runs (.modmul 0 1 2 3) 7 9 0 .start with status := { done := false, err := false, drop := true }, inbox := [.waitIdle] },
    _, _, rfl, rfl, rfl, rfl, rfl, rfl, (fun _ _ _ => rfl), rfl, rfl, by decide, rfl⟩

theorem witness_BlocksShareNothing : ∃ (q u : Platform) (s : State), platformStep q 1 = .next u ∧ q[1]? = some s ∧ platformDistinct q = true ∧
    (0 : Nat) ≠ 1 :=
  ⟨[State.reset, State.resetAt { Params.reference with blockId := 1 } 0 []], _, _, rfl, rfl, by decide, by decide⟩

theorem witness_ModmulCompletes : ∃ (s z : State) (r q : Running), s.Inv ∧ s.eng = .run r ∧ r.c ≠ 0 ∧ z.Inv ∧ z.eng = .run q ∧ q.c = 0 :=
  ⟨runs (.modmul 0 1 2 3) 5 6 1 .start, runs (.modmul 0 1 2 3) 5 6 0 .start, _, _, running_inv _ _ _ _ _ _ (by decide) (by decide), rfl,
    by decide, running_inv _ _ _ _ _ _ (by decide) (by decide), rfl, rfl⟩

/-- A state with 1 in every limb, the host about to issue `MODMUL x3, x3, x3, x2`. -/
def onesIssuing : State :=
  { State.reset with
    regs := Vector.replicate 8 [1, 1]
    inbox := [.write 0 4 (encode (.modmul 3 3 3 2))] }

theorem witness_IssuedModmulWritesTheProduct : onesIssuing.Inv ∧ onesIssuing.busy = false ∧ onesIssuing.status.err = false ∧
    onesIssuing.x 2 ≠ 0 ∧ onesIssuing.tail = .silent ∧ onesIssuing.inbox = [.write onesIssuing.params.base 4 (encode (.modmul 3 3 3 2))] :=
  ⟨⟨by decide, (fun h => by cases h), by decide, by decide, (fun h => by cases h), (fun r h => by cases h)⟩, rfl, rfl, by decide, rfl, rfl⟩

theorem witness_MontkIsTheLimbRoundedLength : 1 ≤ 2 ^ 32 - 1 ∧ 64 % 32 = 0 ∧ 2 ^ 32 < 2 ^ 64 ∧ 2 ^ 32 - 1 < 2 ^ 32 ∧
    2 ^ 64 - 1 < 2 ^ 64 := by decide

theorem witness_MontmulFunction : (1000 ≠ 0 ∧ 1000 % 2 = 0) ∧ (13 % 2 = 1 ∧ 13 ≤ 13) ∧ (13 % 2 = 1 ∧ 12 < 13) ∧
    (7 < 13 ∧ 7 * 2 ^ montk 13 % 13 = 7 * 9 % 13) := by decide

theorem witness_MontmulCompletes :
    (∃ (s : State) (r : Running) (v : MontVars), s.Inv ∧ s.eng = .run r ∧ r.mu = .mont v ∧ montOk r.a r.b r.c v ∧ v.i = montk r.c) ∧
    (∃ (s : State) (r : Running) (v : MontVars), s.Inv ∧ s.eng = .run r ∧ r.mu = .mont v ∧ montOk r.a r.b r.c v ∧ v.i < montk r.c) :=
  ⟨⟨runs (.montmul 4 1 2 3) 7 9 13 (.mont { i := 32, acc := 20 }), _, _, running_inv _ _ _ _ _ _ (by decide) (by decide), rfl, rfl,
      by unfold montOk; decide, by decide⟩,
    ⟨runs (.montmul 4 1 2 3) 7 9 13 (.mont { i := 31, acc := 14 }), _, _, running_inv _ _ _ _ _ _ (by decide) (by decide), rfl, rfl,
      by unfold montOk; decide, by decide⟩⟩

theorem witness_MontmulRunEnds : ∃ (s : State) (r : Running), s.Accepted (.montmul 4 1 2 3) r ∧ r.c % 2 = 1 ∧ r.a < r.c ∧ r.b < r.c :=
  ⟨_, _, running_accepted Params.reference _ 12 12 13 (by decide) (by decide), by decide⟩

theorem witness_MontrTwoCompletes : (∃ (s : State) (r : Running), s.Inv ∧ s.eng = .run r ∧ r.a % 2 = 1 ∧ r.a = 1) ∧
    (1000 ≠ 0 ∧ 1000 % 2 = 0) ∧ (13 % 2 = 1 ∧ 12 < 13) :=
  ⟨⟨runs (.montr2 4 3) 1 0 0 .start, _, running_inv _ _ _ _ _ _ (by decide) (by decide), rfl, by decide⟩, by decide⟩

theorem witness_MontgomeryLaws : 13 % 2 = 1 ∧ 3 ≤ 13 ∧ 7 < 13 ∧ 12 < 13 ∧ montr2 13 = .ok 3 := by decide

theorem witness_ModexpFunction : ((0 : Int) ≤ 0) ∧ ((1 : Int) ≤ 1 ∧ (-1 : Int) < 0) ∧ ((1 : Int) ≤ 1 ∧ true = true) ∧
    ((1 : Int) ≤ 1 ∧ (0 : Int) ≤ 0 ∧ ¬((0 : Int) = 0 ∧ false = true)) ∧ 1 ≤ 1 := by decide

theorem witness_ModexpCompletes :
    (∃ (s : State) (r : Running) (v : ExpVars), s.Inv ∧ s.eng = .run r ∧ r.mu = .exp v ∧ expOk r.a r.b r.c v ∧ v.exp = 0) ∧
    (∃ (s : State) (r : Running) (v : ExpVars), s.Inv ∧ s.eng = .run r ∧ r.mu = .exp v ∧ expOk r.a r.b r.c v ∧ v.exp ≠ 0) ∧
    (∃ (s : State) (r : Running), s.Inv ∧ s.eng = .run r ∧ r.mu = .start ∧ r.c = 1 ∧ ¬(r.b = 0 ∧ s.params.zeroExpFaults = true)) :=
  ⟨⟨runs (.modexp 0 1 2 3) 2 10 1000 (.exp { result := 24, base := 536, exp := 0 }), _, _,
      running_inv _ _ _ _ _ _ (by decide) (by decide), rfl, rfl, by unfold expOk; decide, rfl⟩,
    ⟨runs (.modexp 0 1 2 3) 2 10 1000 (.exp { result := 4, base := 256, exp := 1 }), _, _,
      running_inv _ _ _ _ _ _ (by decide) (by decide), rfl, rfl, by unfold expOk; decide, by decide⟩,
    ⟨runs (.modexp 0 1 2 3) 5 0 1 .start, _, running_inv _ _ _ _ _ _ (by decide) (by decide), rfl, rfl, rfl, by decide⟩⟩

theorem witness_ModexpRunEnds : ∃ (s : State) (r : Running), s.Accepted (.modexp 0 1 2 3) r ∧ r.c ≠ 0 ∧
    ¬(r.b = 0 ∧ s.params.zeroExpFaults = true) :=
  ⟨_, _, running_accepted Params.allHooks _ 5 1 1 (by decide) (by decide), by decide⟩

theorem witness_ModexpLaws : 2 ≤ 2 ∧ 2 % 2 = 0 ∧ 2 ≤ 3 ∧ 3 % 2 = 1 ∧ ¬(1 = 0 ∧ true = true) ∧ ¬(0 = 0 ∧ false = true) := by decide

theorem witness_RandomBitsConcatenatesChunks : 1 ≤ 1 ∧ ∀ i : Nat, (fun _ => 1 : Nat → Nat) i < 2 ^ 1 := ⟨le_rfl, fun _ => Nat.one_lt_two⟩

theorem witness_RandbitsCompletes : (∃ (s : State) (r : Running), s.Inv ∧ s.eng = .run r ∧ r.a ≤ s.params.width ∧ r.a = 64) ∧
    (∃ (s : State) (r : Running), s.Inv ∧ s.eng = .run r ∧ r.a ≤ s.params.width ∧ r.a = 0) :=
  ⟨⟨runs (.randbits 0 1) 64 0 0 .start, _, running_inv _ _ _ _ _ _ (by decide) (by decide), rfl, by decide, rfl⟩,
    ⟨runs (.randbits 0 1) 0 0 0 .start, _, running_inv _ _ _ _ _ _ (by decide) (by decide), rfl, by decide, rfl⟩⟩

theorem witness_RejectionLoopTakesTheFirstAcceptedDraw :
    5 ≤ 5 ∧ betweenRange 5 5 ≤ 2 ^ 0 ∧ betweenLoop 32 (fun i => [0x3, 0x7, 0x2].getD i 0) 10 12 3 0 = some (12, 3) := by decide

theorem witness_RandbtwCompletesOnAnAcceptedDraw :
    (∃ (s : State) (r : Running), s.Inv ∧ s.eng = .run r ∧ r.a ≤ r.b ∧
      (betweenDraw s.params.chunkBits s.xi r.a r.b s.rngpos).1 < r.b - r.a + 1) ∧
    (∃ (s : State) (r : Running), s.Inv ∧ s.eng = .run r ∧ r.a ≤ r.b ∧
      r.b - r.a + 1 ≤ (betweenDraw s.params.chunkBits s.xi r.a r.b s.rngpos).1) :=
  ⟨⟨runningOn [0x31] (.randbtw 0 1 2) 2 51 0 .start, _,
      (accepted_injected (running_accepted Params.reference (.randbtw 0 1 2) 2 51 0 (by decide) (by decide)) _).1, rfl, by decide⟩,
    ⟨runningOn [0x32] (.randbtw 0 1 2) 2 51 0 .start, _,
      (accepted_injected (running_accepted Params.reference (.randbtw 0 1 2) 2 51 0 (by decide) (by decide)) _).1, rfl, by decide⟩⟩

/-- V-RW-10 -/
theorem witness_RandbtwHangs : ∃ (s : State) (r : Running), s.Accepted (.randbtw 0 1 2) r ∧ r.a ≤ r.b ∧ ∀ k, r.b - r.a + 1 ≤
    (betweenDraw s.params.chunkBits s.xi r.a r.b (s.rngpos + k * ceilDiv (betweenBits r.a r.b) s.params.chunkBits)).1 := by
  refine ⟨constantly 3 (runs (.randbtw 0 1 2) 10 12 0 .start), _, accepted_injected
    (running_accepted Params.reference (.randbtw 0 1 2) 10 12 0 (by decide) (by decide)) _, by decide, fun k => ?_⟩
  simp only [betweenDraw, randomBits, show betweenBits 10 12 = 2 by decide,
    show ceilDiv 2 (constantly 3 (runs (.randbtw 0 1 2) 10 12 0 .start)).params.chunkBits = 1 by decide, concatChunks, constantly_xi]
  decide

theorem witness_RandbtwEndsUnderFairness : ∃ (s : State) (r : Running), s.Accepted (.randbtw 0 1 2) r ∧ r.a ≤ r.b ∧
    RngFair s.params.chunkBits s.xi :=
  ⟨constantly 0 (runs (.randbtw 0 1 2) 10 12 0 .start), _, accepted_injected
    (running_accepted Params.reference (.randbtw 0 1 2) 10 12 0 (by decide) (by decide)) _, by decide, constantly_zero_fair _⟩

theorem witness_MrtestDecidesSmallNumbers : ∃ (s : State) (r : Running), s.Accepted (.mrtest 0 1 2) r ∧ r.b ≠ 0 ∧ r.a ≤ 52 ∧ r.a = 52 :=
  ⟨_, _, running_accepted Params.reference (.mrtest 0 1 2) 52 1 0 (by decide) (by decide), by decide⟩

theorem witness_WitnessPassesExactly : 3 ≤ 53 ∧ 1 ≤ 2 ∧ witnessPasses 53 13 2 2 = true := by decide

theorem witness_DecompositionIsExact : 2 ≤ 53 ∧ 53 % 2 = 1 ∧ 13 * 2 ^ 2 = 53 - 1 ∧ 13 % 2 = 1 := by decide

theorem witness_MrtestCompletes :
    (∃ (s : State) (r : Running) (m : MrState), s.Inv ∧ s.eng = .run r ∧ r.mu = .mr m ∧ m = .ret true) ∧
    (∃ (s : State) (r : Running) (m : MrState), s.Inv ∧ s.eng = .run r ∧ r.mu = .mr m ∧ (∀ v, m ≠ .ret v) ∧ r.b ≠ 0 ∧
      ∀ d q n, m ≠ .draw d q n) :=
  ⟨⟨runs (.mrtest 0 1 2) 53 2 0 (.mr (.ret true)), _, _, running_inv _ _ _ _ _ _ (by decide) (by decide), rfl, rfl, rfl⟩,
    ⟨runs (.mrtest 0 1 2) 53 2 0 (.mr .check), _, _, running_inv _ _ _ _ _ _ (by decide) (by decide), rfl, rfl, by simp, by decide, by simp⟩⟩

/-- V-MR-4 -/
theorem witness_MrtestRunReturnsTheFunction : ∃ (s : State) (r : Running), s.Accepted (.mrtest 0 1 2) r ∧ r.b ≠ 0 ∧
    isProbablePrime s.params.chunkBits s.xi r.a r.b 1 s.rngpos = some (true, 2) :=
  ⟨runningOn [0x0, 0x5] (.mrtest 0 1 2) 53 2 0 (.mr .check), _, accepted_injected
    (running_accepted Params.reference (.mrtest 0 1 2) 53 2 0 (by decide) (by decide)) _, by decide, by decide⟩

theorem witness_MrtestZeroMeansNotPrime : ∃ (s t : State) (r : Running) (n : Nat), s.Accepted (.mrtest 0 1 2) r ∧ r.b ≠ 0 ∧
    Host.Core.run Sys2Proof.core n s = .next t ∧ t.busy = false ∧ t.x 0 = 0 :=
  ⟨_, _, _, 3, running_accepted Params.reference (.mrtest 0 1 2) 4 1 0 (by decide) (by decide), by decide, rfl, rfl, by decide⟩

/-- V-MR-12: 63 is at least 50 -/
theorem witness_MrtestHangs : ∃ (s : State) (r : Running), s.Accepted (.mrtest 0 1 2) r ∧ r.b ≠ 0 ∧ survivesTable r.a ∧
    ∀ k, r.a - 3 ≤ (randomBits s.params.chunkBits s.xi (bitlen (r.a - 4))
      (s.rngpos + k * ceilDiv (bitlen (r.a - 4)) s.params.chunkBits)).1 := by
  refine ⟨constantly 0x3F (runs (.mrtest 0 1 2) 53 1 0 (.mr .check)), _, accepted_injected
    (running_accepted Params.reference (.mrtest 0 1 2) 53 1 0 (by decide) (by decide)) _, by decide, by unfold survivesTable; decide,
    fun k => ?_⟩
  simp only [randomBits, show bitlen (53 - 4) = 6 by decide,
    show ceilDiv 6 (constantly 0x3F (runs (.mrtest 0 1 2) 53 1 0 (.mr .check))).params.chunkBits = 1 by decide, concatChunks, constantly_xi]
  decide

theorem witness_MrtestEndsUnderFairness : ∃ (s : State) (r : Running), s.Accepted (.mrtest 0 1 2) r ∧ r.b ≠ 0 ∧
    RngFair s.params.chunkBits s.xi :=
  ⟨constantly 0 (runs (.mrtest 0 1 2) 53 2 0 (.mr .check)), _, accepted_injected
    (running_accepted Params.reference (.mrtest 0 1 2) 53 2 0 (by decide) (by decide)) _, by decide, constantly_zero_fair _⟩

theorem witness_CandidateHasExactlyTheBits : 2 ≤ 2 ∧ 3 < 2 ^ 2 ∧ 1 ≤ 1 ∧ 1 ≤ 3 - 2 := by decide

theorem witness_GenprimeCompletes : ∃ (s : State) (r : Running), s.Inv ∧ s.eng = .run r ∧ r.mu = .pg (.ret 3) ∧ pgOk s.params r.a r.b (.ret 3) :=
  ⟨runs (.genprime 0 1 2) 2 1 0 (.pg (.ret 3)), _, running_inv _ _ _ _ _ _ (by decide) (by decide), rfl, rfl,
    by decide, by decide, by decide, by unfold candidateOk; decide, .inl (by decide)⟩

/-- V-GP-2 -/
theorem witness_GenprimeRunReturnsTheFunction : ∃ (s : State) (r : Running), s.Accepted (.genprime 0 1 2) r ∧ s.ctrl.cancel = false ∧
    2 ≤ r.a ∧ r.a ≤ s.params.width ∧ r.b ≠ 0 ∧ generatePrime s.params.chunkBits s.xi r.a r.b 1 s.rngpos = .ok (some (3, 1)) :=
  ⟨runningOn [0xAAAAAAAA] (.genprime 0 1 2) 2 1 0 (.pg .check), _, accepted_injected
    (running_accepted Params.reference (.genprime 0 1 2) 2 1 0 (by decide) (by decide)) _, rfl, by decide, by decide, by decide, by decide⟩

/-- V-GP-10 -/
theorem witness_GenprimeHangs : ∃ (s : State) (r : Running), s.Accepted (.genprime 0 1 2) r ∧ s.ctrl.cancel = false ∧
    2 ≤ r.a ∧ r.a ≤ s.params.width ∧ r.b ≠ 0 ∧
    ∀ fuel, generatePrime s.params.chunkBits s.xi r.a r.b fuel s.rngpos = .ok none :=
  ⟨constantly 0 (runs (.genprime 0 1 2) 4 1 0 (.pg .check)), _, accepted_injected
    (running_accepted Params.reference (.genprime 0 1 2) 4 1 0 (by decide) (by decide)) _, rfl, by decide, by decide, by decide, fun fuel => by
    rw [generatePrime, if_neg (by decide), primeLoop_nines _ _ (fun i => by rw [constantly_xi, Nat.zero_mod])]⟩

theorem witness_GenprimeEndsUnderFairness : ∃ (s : State) (r : Running), s.Accepted (.genprime 0 1 2) r ∧ s.ctrl.cancel = false ∧
    2 ≤ r.a ∧ r.a ≤ s.params.width ∧ r.b ≠ 0 ∧ PrimeFair s.params.chunkBits s.xi r.a r.b s.rngpos :=
  ⟨runningOn [0xAAAAAAAA] (.genprime 0 1 2) 2 1 0 (.pg .check), _, accepted_injected
    (running_accepted Params.reference (.genprime 0 1 2) 2 1 0 (by decide) (by decide)) _, rfl, by decide, by decide, by decide,
    1, (3, 1), by decide⟩

theorem witness_CancelIsSampledAtTheLoopHeadOnly :
    (∃ (s : State) (r : Running), s.eng = .run r ∧ r.mu = .pg .head ∧ s.params.hasCancel = true ∧ s.ctrl.cancel = true) ∧
    (∃ (s : State) (r : Running), s.eng = .run r ∧ r.mu = .pg .head ∧ s.params.hasCancel = false) ∧
    (∃ (s : State) (r : Running), s.eng = .run r ∧ r.mu = .pg .head ∧ s.params.hasCancel = true ∧ s.ctrl.cancel = false) ∧
    (∃ (s t t' : State) (r : Running), s.eng = .run r ∧ (∀ rd ra rb, Instr.genprime 0 1 2 = .genprime rd ra rb → r.mu ≠ .pg .head) ∧
      exec (.genprime 0 1 2) s = .next t ∧ exec (.genprime 0 1 2) { s with ctrl := { cancel := true } } = .next t') :=
  ⟨⟨{ running Params.allHooks (.genprime 0 1 2) 12 2 0 (.pg .head) with ctrl := { cancel := true } }, _, rfl, rfl, rfl, rfl⟩,
    ⟨runs (.genprime 0 1 2) 12 2 0 (.pg .head), _, rfl, rfl, rfl⟩,
    ⟨running Params.allHooks (.genprime 0 1 2) 12 2 0 (.pg .head), _, rfl, rfl, rfl, rfl⟩,
    ⟨running Params.allHooks (.genprime 0 1 2) 12 2 0 (.pg .check), _, _, _, rfl, (fun _ _ _ _ h => by cases h), rfl, rfl⟩⟩

end Sys2Proof.Machine
end

section
/-! The invariants of the state (R39): every operation of the host and of the engine keeps them, so every step does, and a reset
establishes them. -/

namespace Sys2Proof.Machine

/-- The reset state meets the invariants of R39. -/
theorem State.resetAt_inv (p : Params) (e : Nat) (old : List Operand) : (State.resetAt p e old).Inv where
  limbs i := by rw [State.resetAt_operand]; exact length_resetOperand p e old i.val
  busyQuiet h := nomatch h
  notBoth h := nomatch h.1
  causeErr := ⟨fun h => absurd noCause_word h, fun h => nomatch h⟩
  cancelBusy h := nomatch h
  latched r h := nomatch h

/-- After a reset no command runs, so there is no loop invariant to meet. -/
theorem State.resetAt_engineInv (p : Params) (e : Nat) (old : List Operand) : (State.resetAt p e old).EngineInv :=
  fun _ h => nomatch h

/-- Settles O22: a reset state holds no command, no fault and no request, and its registers have `W/32` limbs (R38, R39). -/
theorem resetMeetsTheInvariants : Obligations.ResetMeetsTheInvariants :=
  fun p e old => ⟨State.resetAt_inv p e old, State.resetAt_engineInv p e old⟩

theorem State.Inv.assertReset (s : State) : s.assertReset.Inv :=
  let h := State.resetAt_inv s.params (s.epoch + 1) s.regs.toList
  ⟨h.limbs, h.busyQuiet, h.notBoth, h.causeErr, h.cancelBusy, h.latched⟩

theorem State.Inv.done_of_busy {s : State} (h : s.Inv) (hb : s.busy = true) : s.status.done = false := (h.busyQuiet hb).1

theorem State.Inv.err_of_busy {s : State} (h : s.Inv) (hb : s.busy = true) : s.status.err = false := (h.busyQuiet hb).2

/-- `CANCEL` is set only while a command runs (R39 item 5). -/
theorem State.Inv.cancel_of_idle {s : State} (h : s.Inv) (hb : s.busy = false) : s.ctrl.cancel = false := by
  cases hc : s.ctrl.cancel with
  | false => rfl
  | true => exact absurd (h.cancelBusy hc).1 (by simp [hb])

/-- `CAUSE` reads 0 while no fault is recorded (R39 item 4). -/
theorem State.Inv.cause_of_no_err {s : State} (h : s.Inv) (he : s.status.err = false) : s.cause.word = 0 := by
  by_contra hc
  exact absurd (h.causeErr.mp hc) (by simp [he])

/-- A register source is below `2^W`, and so is the 0 of a source the format does not have (R33). -/
theorem State.Inv.latch_lt {s : State} (h : s.Inv) (i : Instr) :
    s.operandA i < 2 ^ s.params.width ∧ s.operandB i < 2 ^ s.params.width ∧ s.operandC i < 2 ^ s.params.width := by
  have hx (q : Reg) : s.x q < 2 ^ s.params.width := State.x_lt (h.limbs q)
  refine ⟨hx _, ?_, ?_⟩
  · unfold State.operandB
    split
    · exact hx _
    · exact Nat.two_pow_pos _
  · unfold State.operandC
    split
    · exact hx _
    · exact Nat.two_pow_pos _

theorem State.Inv.accept {s : State} (h : s.Inv) (hb : s.busy = false) (he : s.status.err = false) {w : CmdWord} {i : Instr}
    (hd : decode w = .command i) : (s.accept w i).Inv where
  limbs := h.limbs
  busyQuiet _ := ⟨rfl, he⟩
  notBoth := by simp
  causeErr := h.causeErr
  cancelBusy := by simp [h.cancel_of_idle hb]
  latched r hr := by
    rw [State.accept_eng, Engine.run.injEq] at hr
    subst hr
    exact ⟨⟨i, hd⟩, h.latch_lt i⟩

theorem State.Inv.clearDone {s : State} (h : s.Inv) : s.clearDone.Inv where
  limbs := h.limbs
  busyQuiet hb := ⟨rfl, h.err_of_busy hb⟩
  notBoth := by simp
  causeErr := h.causeErr
  cancelBusy := h.cancelBusy
  latched := h.latched

theorem State.Inv.issue {s : State} (h : s.Inv) (w : CmdWord) : (s.issue w).Inv := by
  unfold State.issue
  split
  case isTrue => exact h.markDrop
  case isFalse hfree =>
    simp only [Bool.or_eq_true, not_or, Bool.not_eq_true] at hfree
    obtain ⟨hb, he⟩ := hfree
    split
    next i hd => exact h.accept hb he hd
    next => exact h.clearDone.raise rfl .illegalCommand

/-- Clearing `ERR` clears `CAUSE` with it (R27, R30), so the two stay together. -/
theorem State.Inv.writeStatus {s : State} (h : s.Inv) (v : Limb) : (s.writeStatus v).Inv where
  limbs := h.limbs
  busyQuiet hb := by simp [h.done_of_busy hb, h.err_of_busy hb]
  notBoth hbad := by
    simp only [State.writeStatus_status, Bool.and_eq_true] at hbad
    exact h.notBoth ⟨hbad.1.1, hbad.2.1⟩
  causeErr := by
    simp only [State.writeStatus_cause, State.writeStatus_status]
    cases v.getLsbD 2 with
    | true => simp [noCause_word]
    | false => simpa using h.causeErr
  cancelBusy := h.cancelBusy
  latched := h.latched

/-- What the invariants need of a write to `CTRL`: `CANCEL` is set only with `HAS_CANCEL` and while a command runs (R31). -/
theorem State.writeCtrl_cancel {s : State} {v : Limb} (h : (s.writeCtrl v).ctrl.cancel = true) :
    s.ctrl.cancel = true ∨ (s.busy = true ∧ s.params.hasCancel = true) := by
  unfold State.writeCtrl at h
  split at h
  case isTrue hp =>
    split at h
    · split at h
      · next hb => exact .inr ⟨hb, hp⟩
      · exact .inl h
    · cases h
  case isFalse => exact .inl h

theorem State.Inv.writeCtrl {s : State} (h : s.Inv) (v : Limb) : (s.writeCtrl v).Inv where
  limbs := by simpa using h.limbs
  busyQuiet := by simpa using h.busyQuiet
  notBoth := by simpa using h.notBoth
  causeErr := by simpa using h.causeErr
  cancelBusy hc := by
    rw [State.writeCtrl_busy, State.writeCtrl_params]
    exact (State.writeCtrl_cancel hc).elim h.cancelBusy id
  latched := by simpa using h.latched

theorem State.Inv.setOperand {s : State} (h : s.Inv) (i : Reg) {o : Operand} (ho : o.length = s.params.limbs) :
    (s.setOperand i o).Inv where
  limbs q := by
    by_cases hq : q = i
    · subst hq; simpa using ho
    · simpa [State.setOperand_operand_other hq] using h.limbs q
  busyQuiet := h.busyQuiet
  notBoth := h.notBoth
  causeErr := h.causeErr
  cancelBusy := h.cancelBusy
  latched := h.latched

theorem State.Inv.writeWindow {s : State} (h : s.Inv) (i : Reg) (j : Nat) (v : Limb) : (writeWindow s i j v).Inv := by
  unfold Machine.writeWindow
  split
  · exact h.markDrop
  · exact h.setOperand i (by rw [length_limbSet, h.limbs])

/-- Every write the register space defines keeps the invariants (R32, R51, R52). -/
theorem State.Inv.writeRegion {s : State} (h : s.Inv) (region : Region) (v : Limb) : (writeRegion s region v).Inv := by
  cases region with
  | cmd => exact h.issue v
  | status => exact h.writeStatus v
  | cause => exact h
  | ctrl => exact h.writeCtrl v
  | reserved => exact h
  | window i j => exact h.writeWindow i j v

/-- A running command's step keeps the invariants: while it runs `DONE = ERR = 0`, so neither end leaves both set. -/
theorem State.Inv.exec {s t : State} {i : Instr} (h : s.Inv) (ht : exec i s = .next t) : t.Inv := by
  obtain ⟨r, hr⟩ := (exec_next_iff i s).mp ⟨t, ht⟩
  have hb := State.busy_of_run hr
  obtain ⟨f, rfl⟩ | ⟨c, v, rfl⟩ | ⟨c, r', mu, rfl, hr'⟩ := exec_moves ht
  · exact h.raise (h.done_of_busy hb) f
  · exact (h.setCursor c).complete (h.err_of_busy hb) i.rd v
  · exact (h.setCursor c).goOn hr' mu

theorem State.Inv.engineStep {s t : State} (h : s.Inv) (ht : engineStep s = .next t) : t.Inv := by
  obtain ⟨-, rfl⟩ | ⟨r, i, -, -, hx⟩ | ⟨r, why, hr, -, rfl⟩ := engineStep_cases ht
  · exact h
  · exact h.exec hx
  · exact h.raise (h.done_of_busy (State.busy_of_run hr)) .illegalCommand

theorem State.Inv.turnStep {s t : State} (h : s.Inv) (ht : turnStep s = .next t) : t.Inv := by
  obtain ⟨-, hx⟩ | ⟨_, _, rest, _, -, -, rfl⟩ | ⟨_, _, v, rest, region, -, -, rfl⟩ | ⟨rest, -, rfl⟩ | ⟨rest, -, hx⟩ |
    ⟨rest, -, -, hx⟩ | ⟨rest, -, -, rfl⟩ := turnStep_cases ht
  · exact h.engineStep hx
  · exact (h.popInbox rest).respond _
  · exact (h.popInbox rest).writeRegion region v
  · exact State.Inv.assertReset _
  · exact (h.popInbox rest).engineStep hx
  · exact h.engineStep hx
  · exact (h.popInbox rest).respond _

/-- Settles O23: the host's list is filled without touching the block, and every kind of turn keeps the invariants. -/
theorem stepKeepsStateInvariant : Obligations.StepKeepsStateInvariant :=
  fun _ _ h ht => h.refill.turnStep ht

end Sys2Proof.Machine
end

section
/-! What an engine step depends on, and what it leaves unchanged (R22, R34, R121). Two states that agree on the parameters, the engine, the
cursor and `CTRL` take the same move as long as they agree on the chunks that move draws (`exec_alike`). Read with the same state twice, it
says that the cursor never moves back. -/

namespace Sys2Proof.Machine

/-- Two streams agree on the chunks from cursor `c` up to cursor `c'`. -/
def ChunksAgree (xi xi' : Nat → Nat) (c c' : Nat) : Prop := ∀ j, c ≤ j → j < c' → xi' j = xi j

theorem concatChunks_congr {cw : Nat} {xi xi' : Nat → Nat} {n c : Nat} (v : Nat) (h : ChunksAgree xi xi' c (c + n)) :
    concatChunks cw xi' n c v = concatChunks cw xi n c v := by
  induction n generalizing c v with
  | zero => rfl
  | succ n ih =>
    have hrest : ChunksAgree xi xi' (c + 1) (c + 1 + n) := fun j hj hj' => h j (by omega) (by omega)
    rw [concatChunks, concatChunks, ih _ hrest, h c le_rfl (by omega)]

theorem randomBits_congr {cw : Nat} {xi xi' : Nat → Nat} {k c : Nat} (h : ChunksAgree xi xi' c (randomBits cw xi k c).2) :
    randomBits cw xi' k c = randomBits cw xi k c := by
  rw [randomBits, randomBits, concatChunks_congr 0 h]

theorem le_randomBits_cursor (cw : Nat) (xi : Nat → Nat) (k c : Nat) : c ≤ (randomBits cw xi k c).2 := Nat.le_add_right _ _

theorem drawCandidate_congr {cw : Nat} {xi xi' : Nat → Nat} {k c : Nat} (h : ChunksAgree xi xi' c (drawCandidate cw xi k c).2) :
    drawCandidate cw xi' k c = drawCandidate cw xi k c := by
  rw [drawCandidate, drawCandidate, randomBits_congr h]

theorem le_drawCandidate_cursor (cw : Nat) (xi : Nat → Nat) (k c : Nat) : c ≤ (drawCandidate cw xi k c).2 := Nat.le_add_right _ _

/-- Only `MR_DRAW` draws (R145), so a transition depends on the chunks between its two cursors only. -/
theorem mrStep_congr {cw : Nat} {xi xi' : Nat → Nat} {n rounds c : Nat} {m : MrState}
    (h : ChunksAgree xi xi' c (mrStep cw xi n rounds m c).2) : mrStep cw xi' n rounds m c = mrStep cw xi n rounds m c := by
  cases m with
  | draw d s r => rw [mrStep, mrStep, randomBits_congr h]
  | _ => rfl

theorem le_mrStep_cursor (cw : Nat) (xi : Nat → Nat) (n rounds : Nat) (m : MrState) (c : Nat) : c ≤ (mrStep cw xi n rounds m c).2 := by
  cases m with
  | draw d s r => exact le_randomBits_cursor cw xi _ c
  | _ => exact le_rfl

/-- `mrtestStep` in the states of the machine other than its entry and its verdict (R145). -/
theorem mrtestStep_of_running {rd : Reg} {r : Running} {s : State} (hc : mrOf r.mu ≠ .check) (hv : ∀ v, mrOf r.mu ≠ .ret v) :
    mrtestStep rd r s = mrtestGoOn r s (mrStep s.params.chunkBits s.xi r.a r.b (mrOf r.mu) s.rngpos) := by
  unfold mrtestStep
  split
  next h => exact absurd h hc
  next v h => exact absurd h (hv v)
  next => rfl

/-- `genprimeTest` while the machine has no verdict (R162). -/
theorem genprimeTest_of_running {m : MrState} (hv : ∀ v, m ≠ .ret v) (r : Running) (s : State) (c : Nat) (next : MrState × Nat) :
    genprimeTest r s c m next = (s.setCursor next.2).goOn r (.pg (.test c next.1)) := by
  unfold genprimeTest
  split
  next => exact absurd rfl (hv true)
  next => exact absurd rfl (hv false)
  next => rfl

/-- Two states agree on what a command may look at besides the chunk stream: nothing of the register file, the status bits or the host. -/
structure EngineAgree (s s' : State) : Prop where
  params : s'.params = s.params
  eng : s'.eng = s.eng
  rngpos : s'.rngpos = s.rngpos
  ctrl : s'.ctrl = s.ctrl

theorem EngineAgree.refl (s : State) : EngineAgree s s := ⟨rfl, rfl, rfl, rfl⟩

/-- The move that takes `s` to `t`, with the cursor not before that of `s`, takes `s'` to `t'`, if the streams agree on the chunks it
draws. -/
inductive MovesAlike (rd : Reg) (s s' t t' : State) : Prop where
  | faults (f : FaultCause) (h : t = s.raise f) (h' : t' = s'.raise f)
  | completes (c v : Nat) (hc : s.rngpos ≤ c) (h : t = (s.setCursor c).complete rd v)
      (h' : ChunksAgree s.xi s'.xi s.rngpos c → t' = (s'.setCursor c).complete rd v)
  | goesOn (c : Nat) (r : Running) (mu : Mu) (hc : s.rngpos ≤ c) (h : t = (s.setCursor c).goOn r mu)
      (h' : ChunksAgree s.xi s'.xi s.rngpos c → t' = (s'.setCursor c).goOn r mu)

section
variable {rd : Reg} {r : Running} {s s' : State}

theorem MovesAlike.raise (f : FaultCause) : MovesAlike rd s s' (s.raise f) (s'.raise f) := .faults f rfl rfl

/-- A test that both states decide alike. -/
theorem MovesAlike.ite {p : Prop} [Decidable p] {t t' u u' : State} (ht : p → MovesAlike rd s s' t t')
    (hu : ¬p → MovesAlike rd s s' u u') : MovesAlike rd s s' (if p then t else u) (if p then t' else u') := by
  split
  next hp => exact ht hp
  next hp => exact hu hp

variable (h : EngineAgree s s')
include h

theorem EngineAgree.setCursor_self : s'.setCursor s.rngpos = s' := by
  rw [← h.rngpos]
  rfl

/-- A completion that draws nothing. -/
theorem EngineAgree.complete_alike (v : Nat) : MovesAlike rd s s' (s.complete rd v) (s'.complete rd v) :=
  .completes s.rngpos v le_rfl rfl fun _ => by rw [h.setCursor_self]

/-- Going on without a draw. -/
theorem EngineAgree.goOn_alike (mu : Mu) : MovesAlike rd s s' (s.goOn r mu) (s'.goOn r mu) :=
  .goesOn s.rngpos r mu le_rfl rfl fun _ => by rw [h.setCursor_self]

theorem modmulStep_alike : MovesAlike rd s s' (modmulStep rd r s) (modmulStep rd r s') :=
  .ite (fun _ => .raise _) (fun _ => h.complete_alike _)

theorem montmulEntry_alike : MovesAlike rd s s' (montmulEntry r s) (montmulEntry r s') :=
  .ite (fun _ => .raise _) fun _ => .ite (fun _ => .raise _) fun _ => .ite (fun _ => .raise _) fun _ => h.goOn_alike _

theorem montmulStep_alike : MovesAlike rd s s' (montmulStep rd r s) (montmulStep rd r s') := by
  unfold montmulStep
  cases r.mu with
  | mont v => exact .ite (fun _ => h.goOn_alike _) (fun _ => h.complete_alike _)
  | _ => exact montmulEntry_alike h

theorem montr2Step_alike : MovesAlike rd s s' (montr2Step rd r s) (montr2Step rd r s') :=
  .ite (fun _ => .raise _) fun _ => .ite (fun _ => .raise _) fun _ => h.complete_alike _

theorem modexpEntry_alike : MovesAlike rd s s' (modexpEntry rd r s) (modexpEntry rd r s') := by
  unfold modexpEntry
  rw [h.params]
  exact .ite (fun _ => .raise _) fun _ => .ite (fun _ => .raise _) fun _ => .ite (fun _ => h.complete_alike _) fun _ => h.goOn_alike _

theorem modexpStep_alike : MovesAlike rd s s' (modexpStep rd r s) (modexpStep rd r s') := by
  unfold modexpStep
  cases r.mu with
  | exp v => exact .ite (fun _ => h.complete_alike _) (fun _ => h.goOn_alike _)
  | _ => exact modexpEntry_alike h

theorem randbitsStep_alike : MovesAlike rd s s' (randbitsStep rd r s) (randbitsStep rd r s') := by
  unfold randbitsStep
  rw [h.params, h.rngpos]
  exact .ite (fun _ => .raise _) fun _ =>
    .completes _ _ (le_randomBits_cursor ..) rfl fun hx => by rw [randomBits_congr hx]

/-- The same draw is accepted, or rejected, in both states (R126). -/
theorem randbtwDraw_alike (hr : s.eng = .run r) {draw draw' : Nat × Nat} (hle : s.rngpos ≤ draw.2)
    (same : ChunksAgree s.xi s'.xi s.rngpos draw.2 → draw' = draw) :
    MovesAlike rd s s' (randbtwDraw rd r s draw) (randbtwDraw rd r s' draw') := by
  have hrej : (s.setCursor draw.2).goOn r r.mu = s.setCursor draw.2 := goOn_self (s := s.setCursor draw.2) hr
  have hrej' : (s'.setCursor draw.2).goOn r r.mu = s'.setCursor draw.2 := goOn_self (s := s'.setCursor draw.2) (h.eng.trans hr)
  unfold randbtwDraw
  split
  next hacc =>
    refine .completes draw.2 (r.a + draw.1) hle rfl fun hx => ?_
    rw [same hx, if_pos hacc]
  next hacc =>
    refine .goesOn draw.2 r r.mu hle hrej.symm fun hx => ?_
    rw [same hx, if_neg hacc, hrej']

theorem randbtwStep_alike (hr : s.eng = .run r) : MovesAlike rd s s' (randbtwStep rd r s) (randbtwStep rd r s') := by
  unfold randbtwStep
  rw [h.params, h.rngpos]
  exact .ite (fun _ => .raise _) fun _ => randbtwDraw_alike h hr (le_randomBits_cursor ..) fun hx => randomBits_congr hx

/-- A transition of the Miller-Rabin machine on any candidate, stored under any loop variables. -/
theorem mrStep_alike (n : Nat) (m : MrState) (mu : MrState → Mu) :
    MovesAlike rd s s'
      ((s.setCursor (mrStep s.params.chunkBits s.xi n r.b m s.rngpos).2).goOn r (mu (mrStep s.params.chunkBits s.xi n r.b m s.rngpos).1))
      ((s'.setCursor (mrStep s'.params.chunkBits s'.xi n r.b m s'.rngpos).2).goOn r
        (mu (mrStep s'.params.chunkBits s'.xi n r.b m s'.rngpos).1)) := by
  rw [h.params, h.rngpos]
  exact .goesOn _ r _ (le_mrStep_cursor ..) rfl fun hx => by rw [mrStep_congr hx]

theorem mrtestStep_alike : MovesAlike rd s s' (mrtestStep rd r s) (mrtestStep rd r s') := by
  by_cases hc : mrOf r.mu = .check
  · simp only [mrtestStep, hc]
    exact .ite (fun _ => .raise _) fun _ => mrStep_alike h r.a .check .mr
  by_cases hv : ∃ v, mrOf r.mu = .ret v
  · obtain ⟨v, hv⟩ := hv
    simp only [mrtestStep, hv]
    exact h.complete_alike _
  · rw [mrtestStep_of_running hc (not_exists.mp hv), mrtestStep_of_running hc (not_exists.mp hv)]
    exact mrStep_alike h r.a (mrOf r.mu) .mr

theorem genprimeCheck_alike : MovesAlike rd s s' (genprimeCheck r s) (genprimeCheck r s') := by
  unfold genprimeCheck
  rw [h.params]
  exact .ite (fun _ => .raise _) fun _ => .ite (fun _ => .raise _) fun _ => .ite (fun _ => .raise _) fun _ => h.goOn_alike _

/-- The loop head looks at `CANCEL` (R161), on which the two states agree. -/
theorem genprimeHead_alike : MovesAlike rd s s' (genprimeHead r s) (genprimeHead r s') := by
  unfold genprimeHead
  rw [h.params, h.ctrl]
  exact .ite (fun _ => .raise _) fun _ => h.goOn_alike _

theorem genprimeDraw_alike :
    MovesAlike rd s s' (genprimeDraw r s (drawCandidate s.params.chunkBits s.xi r.a s.rngpos))
      (genprimeDraw r s' (drawCandidate s'.params.chunkBits s'.xi r.a s'.rngpos)) := by
  rw [h.params, h.rngpos]
  exact .goesOn _ r _ (le_drawCandidate_cursor ..) rfl fun hx => by rw [drawCandidate_congr hx]; rfl

theorem genprimeTest_alike (c : Nat) (m : MrState) :
    MovesAlike rd s s' (genprimeTest r s c m (mrStep s.params.chunkBits s.xi c r.b m s.rngpos))
      (genprimeTest r s' c m (mrStep s'.params.chunkBits s'.xi c r.b m s'.rngpos)) := by
  by_cases hv : ∃ v, m = .ret v
  · obtain ⟨v, rfl⟩ := hv
    cases v <;> exact h.goOn_alike _
  · rw [genprimeTest_of_running (not_exists.mp hv), genprimeTest_of_running (not_exists.mp hv)]
    exact mrStep_alike h c m fun m' => .pg (.test c m')

theorem genprimeStep_alike : MovesAlike rd s s' (genprimeStep rd r s) (genprimeStep rd r s') := by
  unfold genprimeStep
  cases pgOf r.mu with
  | check => exact genprimeCheck_alike h
  | head => exact genprimeHead_alike h
  | draw => exact genprimeDraw_alike h
  | test c m => exact genprimeTest_alike h c m
  | ret c => exact h.complete_alike _

/-- Two states that agree on what an engine step may look at make the same move (R34, R60 item 2). -/
theorem exec_alike {i : Instr} {t t' : State} (ht : exec i s = .next t) (ht' : exec i s' = .next t') :
    MovesAlike i.rd s s' t t' := by
  obtain ⟨r, hr⟩ := (exec_next_iff i s).mp ⟨t, ht⟩
  have hr' : s'.eng = .run r := h.eng.trans hr
  cases i <;> cases (onRunning_eq hr _).symm.trans ht <;> cases (onRunning_eq hr' _).symm.trans ht'
  · exact modmulStep_alike h
  · exact montmulStep_alike h
  · exact modexpStep_alike h
  · exact montr2Step_alike h
  · exact randbitsStep_alike h
  · exact randbtwStep_alike h hr
  · exact mrtestStep_alike h
  · exact genprimeStep_alike h

end

/-- Settles O27: the two states make the same move by `exec_alike`, and what a move leaves in the fields named depends on the move alone
(R34, R60 item 2). -/
theorem resultDependsOnLatchesAndChunksOnly : Obligations.ResultDependsOnLatchesAndChunksOnly := by
  intro s s' t t' i ht ht' hparams heng hpos hctrl hchunks herr herr'
  obtain ⟨f, rfl, rfl⟩ | ⟨c, v, -, rfl, h'⟩ | ⟨c, r, mu, -, rfl, h'⟩ := exec_alike ⟨hparams, heng, hpos, hctrl⟩ ht ht'
  · simp [hpos]
  · obtain rfl := h' hchunks
    simp [herr, herr', hparams]
  · obtain rfl := h' hchunks
    simp [herr, herr']

/-- The cursor never moves back (R35, R121). -/
theorem exec_rngpos_le {i : Instr} {s t : State} (ht : exec i s = .next t) : s.rngpos ≤ t.rngpos := by
  obtain ⟨f, rfl, -⟩ | ⟨c, v, hc, rfl, -⟩ | ⟨c, r, mu, hc, rfl, -⟩ := exec_alike (.refl s) ht ht
  · exact le_rfl
  · exact hc
  · exact hc

@[simp] theorem modmulStep_rngpos (rd : Reg) (r : Running) (s : State) : (modmulStep rd r s).rngpos = s.rngpos := by
  unfold modmulStep; split <;> rfl

@[simp] theorem montmulEntry_rngpos (r : Running) (s : State) : (montmulEntry r s).rngpos = s.rngpos := by
  unfold montmulEntry; repeat' split
  all_goals rfl

@[simp] theorem montmulStep_rngpos (rd : Reg) (r : Running) (s : State) : (montmulStep rd r s).rngpos = s.rngpos := by
  unfold montmulStep montmulLoopStep
  cases r.mu with
  | mont v => dsimp only; split <;> rfl
  | _ => exact montmulEntry_rngpos r s

@[simp] theorem montr2Step_rngpos (rd : Reg) (r : Running) (s : State) : (montr2Step rd r s).rngpos = s.rngpos := by
  unfold montr2Step; repeat' split
  all_goals rfl

@[simp] theorem modexpEntry_rngpos (rd : Reg) (r : Running) (s : State) : (modexpEntry rd r s).rngpos = s.rngpos := by
  unfold modexpEntry; repeat' split
  all_goals rfl

@[simp] theorem modexpStep_rngpos (rd : Reg) (r : Running) (s : State) : (modexpStep rd r s).rngpos = s.rngpos := by
  unfold modexpStep modexpLoopStep
  cases r.mu with
  | exp v => dsimp only; split <;> rfl
  | _ => exact modexpEntry_rngpos rd r s

/-- An engine step touches the register file only by completing, and then the destination only (R22). -/
theorem exec_operand_other {i : Instr} {s t : State} (ht : exec i s = .next t) {q : Reg} (hq : q ≠ i.rd) : t.operand q = s.operand q := by
  obtain ⟨f, rfl⟩ | ⟨c, v, rfl⟩ | ⟨c, r, mu, rfl, -⟩ := exec_moves ht
  · rfl
  · exact State.complete_operand_other hq v (s.setCursor c)
  · rfl

/-- The commands of the multiplier and of the exponentiation draw nothing. -/
theorem exec_rngpos_of_format_q {s t : State} {rd ra rb rc : Reg} {i : Instr}
    (hi : i = .modmul rd ra rb rc ∨ i = .montmul rd ra rb rc ∨ i = .modexp rd ra rb rc) (ht : exec i s = .next t) :
    t.rngpos = s.rngpos := by
  obtain rfl | rfl | rfl := hi <;> obtain ⟨r, -, rfl⟩ := onRunning_next.mp ht
  · exact modmulStep_rngpos rd r s
  · exact montmulStep_rngpos rd r s
  · exact modexpStep_rngpos rd r s

theorem exec_rngpos_of_montr2 {s t : State} {rd ra : Reg} (ht : exec (.montr2 rd ra) s = .next t) : t.rngpos = s.rngpos := by
  obtain ⟨r, -, rfl⟩ := onRunning_next.mp ht
  exact montr2Step_rngpos rd r s

/-- A fault and an iteration write no operand register (R22, R173). -/
theorem exec_regs_of_not_completed {i : Instr} {s t : State} (ht : exec i s = .next t) (h : t.busy = true ∨ t.cause ≠ s.cause) :
    t.regs = s.regs := by
  obtain ⟨f, rfl⟩ | ⟨c, v, rfl⟩ | ⟨c, r, mu, rfl, -⟩ := exec_moves ht
  · rfl
  · simp at h
  · rfl

/-- Nothing the host can read changes while the command goes on (R36). -/
theorem exec_visible_of_busy {i : Instr} {s t : State} (ht : exec i s = .next t) (h : t.busy = true) :
    t.status = s.status ∧ t.cause = s.cause ∧ t.ctrl = s.ctrl := by
  obtain ⟨f, rfl⟩ | ⟨c, v, rfl⟩ | ⟨c, r, mu, rfl, -⟩ := exec_moves ht
  · simp at h
  · simp at h
  · exact ⟨rfl, rfl, rfl⟩

/-- What no engine step touches: `DROP`, the parameters, the stream and the host. -/
theorem exec_keeps {i : Instr} {s t : State} (ht : exec i s = .next t) :
    t.status.drop = s.status.drop ∧ t.params = s.params ∧ t.epoch = s.epoch ∧ t.injected = s.injected ∧ t.inbox = s.inbox ∧
      t.tail = s.tail ∧ t.outbox = s.outbox := by
  obtain ⟨f, rfl⟩ | ⟨c, v, rfl⟩ | ⟨c, r, mu, rfl, -⟩ := exec_moves ht
  all_goals exact ⟨rfl, rfl, rfl, rfl, rfl, rfl, rfl⟩

/-- Settles O26: each part is a frame lemma above, read off the moves of `exec_moves` (R22, R34, R174). -/
theorem engineStepFrame : Obligations.EngineStepFrame := by
  intro s t i ht
  obtain ⟨hdrop, hparams, hepoch, hinjected, hinbox, htail, houtbox⟩ := exec_keeps ht
  exact ⟨fun q hq => exec_operand_other ht hq, exec_regs_of_not_completed ht, exec_visible_of_busy ht, hdrop, hparams, hepoch,
    hinjected, hinbox, htail, houtbox, exec_rngpos_le ht, fun _ _ _ _ hi => exec_rngpos_of_format_q hi ht,
    fun _ _ hi => exec_rngpos_of_montr2 (hi ▸ ht)⟩

end Sys2Proof.Machine
end

section
/-! The register space and the control registers (R26 to R33, R51): where the four registers lie, what they read, what a write does, and
that a word written to `CMD` runs as its command. -/

namespace Sys2Proof

/-- Decoding undoes encoding (R79). -/
theorem decode_encode (i : Instr) : decode (encode i) = .command i := by
  have enc : Laws.Encoded.Statement i := by cases i <;> exact ⟨rfl, rfl⟩
  rw [decode, encode, fieldsOf_wordOf, decodeFields_command_iff]
  exact ⟨i.mnemonic, enc.2, enc.1, by cases i <;> rfl⟩

/-- A table word that is a command decodes to it. -/
theorem decode_of_decodeTableWord {n w : Nat} {i : Instr} (h : decodeTableWord n w = some i) :
    decode (Machine.tableWord n w) = .command i := by
  unfold decodeTableWord at h
  split at h
  next j hj => exact hj.trans (congrArg _ (Option.some.inj h))
  next => cases h

namespace Machine

/-! ### The address map -/

/-- An aligned 32-bit access at an offset inside the space is defined (R53, R55). -/
theorem locate_offset {p : Params} {off : Nat} (ha : off % 4 = 0) (hlt : off < p.spaceBytes) :
    locate p (p.base + off) 4 = .found (regionAt p off) := by
  have hb : p.base % 4 = 0 := Nat.mul_mod_right 4 p.baseWord
  rw [locate, if_pos ⟨rfl, by omega⟩, if_pos ⟨by omega, by omega⟩, Nat.add_sub_cancel_left]

/-- An aligned offset below the operand windows is inside the space (R50). -/
theorem locate_low {p : Params} {off : Nat} (ha : off % 4 = 0) (hlt : off < 0x1000) :
    locate p (p.base + off) 4 = .found (regionAt p off) :=
  locate_offset ha (Nat.lt_of_lt_of_le hlt (Nat.le_add_right _ _))

theorem locate_cmd (p : Params) : locate p p.base 4 = .found .cmd := locate_low (off := 0) rfl (by decide)

theorem regionAt_reserved {p : Params} {off : Nat} (h : 0x010 ≤ off) (h' : off < 0x1000) : regionAt p off = .reserved := by
  rw [regionAt, if_neg (by omega), if_neg (by omega), if_neg (by omega), if_neg (by omega), if_pos h']

/-- Settles O8: the four offsets and the reserved ones are aligned and below the windows (R32, R51). -/
theorem controlRegistersAreAtTheirOffsets : Obligations.ControlRegistersAreAtTheirOffsets := by
  refine ⟨fun p => ⟨locate_cmd p, locate_low rfl (by decide), locate_low rfl (by decide), locate_low rfl (by decide), ?_⟩,
    fun s v => ⟨rfl, rfl, rfl⟩⟩
  intro off hlo hhi ha
  rw [locate_low ha (by omega), regionAt_reserved hlo (by omega)]

/-! ### The views of the control registers -/

/-- Bit `k` of a word whose value is below `2^n` is 0 from bit `n` on. -/
theorem getLsbD_ofNat_eq_false {v n k : Nat} (hv : v < 2 ^ n) (hk : n ≤ k) : (BitVec.ofNat 32 v).getLsbD k = false := by
  rw [BitVec.getLsbD_ofNat, Nat.testBit_lt_two_pow (hv.trans_le (Nat.pow_le_pow_right (by decide) hk)), Bool.and_false]

/-- The four bits of `STATUS` and the zeros above them (R27). -/
theorem State.statusWord_bits (s : State) :
    s.statusWord.getLsbD 0 = s.busy ∧ s.statusWord.getLsbD 1 = s.status.done ∧ s.statusWord.getLsbD 2 = s.status.err ∧
      s.statusWord.getLsbD 3 = s.status.drop ∧ ∀ k, 4 ≤ k → s.statusWord.getLsbD k = false := by
  unfold State.statusWord
  refine ⟨?_, ?_, ?_, ?_, fun k hk => getLsbD_ofNat_eq_false ?_ hk⟩ <;>
    cases s.busy <;> cases s.status.done <;> cases s.status.err <;> cases s.status.drop <;> decide

/-- `CODE` in bits 7:0, `KIND` in bits 11:8, zeros above (R30). -/
theorem Cause.word_getLsbD (c : Cause) (k : Nat) :
    c.word.getLsbD k = if k < 8 then c.code.getLsbD k else if k < 12 then c.kind.getLsbD (k - 8) else false := by
  have hcode := c.code.isLt
  have hkind := c.kind.isLt
  by_cases hk : k < 12
  · rw [Cause.word, BitVec.getLsbD_ofNat, Nat.add_comm, Nat.mul_comm, Nat.testBit_two_pow_mul_add _ hcode, if_pos hk,
      decide_eq_true (by omega : k < 32), Bool.true_and]
    rfl
  · rw [if_neg (by omega), if_neg hk]
    exact getLsbD_ofNat_eq_false (n := 12) (by omega) (by omega)

/-- What the host reads of a recorded fault (R166, R167). -/
theorem FaultCause.recorded_word_toNat (f : FaultCause) : f.recorded.word.toNat = f.code.toNat + 2 ^ 8 * f.kind.code.toNat := by
  cases f <;> rfl

/-- `CTRL` reads `CANCEL` in bit 0 where the block has it, and zeros above (R31). -/
theorem State.ctrlWord_getLsbD (s : State) (k : Nat) :
    s.ctrlWord.getLsbD k = (decide (k = 0) && (s.params.hasCancel && s.ctrl.cancel)) := by
  unfold State.ctrlWord
  cases k with
  | zero => cases s.params.hasCancel && s.ctrl.cancel <;> rfl
  | succ k => exact getLsbD_ofNat_eq_false (n := 1) (Bool.toNat_lt _) (by omega)

theorem State.ctrlWord_eq_zero {s : State} (h : (s.params.hasCancel && s.ctrl.cancel) = false) : s.ctrlWord = 0 := by
  rw [State.ctrlWord, h]
  rfl

/-! ### Writes to the control registers -/

theorem State.busy_iff_eng_ne_idle (s : State) : s.busy = true ↔ s.eng ≠ .idle := by
  rw [ne_eq, ← State.busy_eq_false_iff, Bool.not_eq_false]

/-- While a command runs `DONE` and `ERR` are 0, so clearing them changes nothing, and `CAUSE` reads 0 before and after. -/
theorem State.Inv.writeStatus_of_busy {s : State} (h : s.Inv) (hb : s.busy = true) (v : Limb) :
    (s.writeStatus v).status = { s.status with drop := if v.getLsbD 3 then false else s.status.drop } ∧
      (s.writeStatus v).cause.word = s.cause.word := by
  have herr := h.err_of_busy hb
  constructor
  · cases hv : v.getLsbD 3 <;> simp only [State.writeStatus_status, h.done_of_busy hb, herr, hv] <;> simp
  · rw [h.cause_of_no_err herr]
    exact (h.writeStatus v).cause_of_no_err (by simp [herr])

/-- Settles O12: the bits as read, and the write-one-to-clear write (R27). -/
theorem statusRegisterBits : Obligations.StatusRegisterBits := by
  refine ⟨State.statusWord_bits, State.busy_iff_eng_ne_idle, fun s v => ?_, fun s v h hb => h.writeStatus_of_busy hb v⟩
  have clear (b m : Bool) : (b && !m) = if m then false else b := by cases m <;> simp
  simp only [writeRegion, State.writeStatus, clear, noCause]

/-- Settles O13: the layout is `Cause.word_getLsbD`, and of the moves of an engine step a fault alone sets `ERR` (R30, R173). -/
theorem causeRegisterLayout : Obligations.CauseRegisterLayout := by
  refine ⟨fun s k => s.cause.word_getLsbD k, fun s v => rfl, fun s v hv => ?_, fun s h he => h.cause_of_no_err he, ?_,
    fun p e old => noCause_word⟩
  · rw [readRegion, writeRegion, State.writeStatus_cause, if_pos hv, noCause_word]
  · intro s t i ht hs herr
    obtain ⟨f, rfl⟩ | ⟨c, v, rfl⟩ | ⟨c, r, mu, rfl, -⟩ := exec_moves ht
    · exact ⟨f, f.recorded_word_toNat⟩
    · simp [hs] at herr
    · simp [hs] at herr

/-- A command that ends, by completing or by a fault, clears `CANCEL` (R31). -/
theorem exec_cancel_of_ended {i : Instr} {s t : State} (ht : exec i s = .next t) (hb : t.busy = false) : t.ctrl.cancel = false := by
  obtain ⟨f, rfl⟩ | ⟨c, v, rfl⟩ | ⟨c, r, mu, rfl, -⟩ := exec_moves ht
  · rfl
  · rfl
  · simp at hb

/-- Settles O14: the write's cases, and that every end of a command clears the bit (R31). -/
theorem ctrlRegisterCancelBit : Obligations.CtrlRegisterCancelBit := by
  refine ⟨fun s hp => ⟨State.ctrlWord_eq_zero (by simp [hp]), fun v => ?_⟩, fun s hp => ⟨fun k => ?_, fun v hv hb => ?_, fun v hv hb => ?_,
    fun v hv => ?_⟩, fun s t i => exec_cancel_of_ended, fun s h hb => h.cancel_of_idle hb,
    fun p e old => State.ctrlWord_eq_zero (Bool.and_false _)⟩
  · simp [writeRegion, State.writeCtrl, hp]
  · rw [readRegion, State.ctrlWord_getLsbD, hp, Bool.true_and]
  · rw [writeRegion, State.writeCtrl, if_pos hp, if_pos hv, if_pos hb]
  · rw [writeRegion, State.writeCtrl, if_pos hp, if_pos hv, if_neg (by simp [hb])]
  · rw [writeRegion, State.writeCtrl, if_pos hp, if_neg (by rw [hv]; decide)]

/-! ### Issue and the step -/

theorem State.issue_of_not_free {s : State} (h : s.busy = true ∨ s.status.err = true) (w : CmdWord) : s.issue w = s.markDrop :=
  if_pos (by simpa using h)

theorem State.issue_of_illegal {s : State} (hb : s.busy = false) (he : s.status.err = false) {w : CmdWord} {why : Illegal}
    (hd : decode w = .illegal why) : s.issue w = s.clearDone.raise .illegalCommand := by
  simp [State.issue, hb, he, hd]

theorem State.issue_of_command {s : State} (hb : s.busy = false) (he : s.status.err = false) {w : CmdWord} {i : Instr}
    (hd : decode w = .command i) : s.issue w = s.accept w i := by
  simp [State.issue, hb, he, hd]

theorem State.operandB_of_some {i : Instr} {q : Reg} (s : State) (h : i.rb = some q) : s.operandB i = s.x q := by
  simp [State.operandB, h]

theorem State.operandC_of_some {i : Instr} {q : Reg} (s : State) (h : i.rc = some q) : s.operandC i = s.x q := by
  simp [State.operandC, h]

/-- A step whose event is a write to `CMD` is the issue of the word (R33). -/
theorem step_of_cmd_write {s : State} {w : CmdWord} {rest : List HostEvent} (h : s.inbox = .write s.params.base 4 w :: rest) :
    step s = .next ((s.popInbox rest).issue w) := by
  rw [step_of_events h]
  simp [hostStep, hostWrite, locate_cmd, writeRegion]

/-- Settles O6: the write lands in `CMD`, and each case of the issue is a lemma above (R33). -/
theorem issueOfACommandWord : Obligations.IssueOfACommandWord := by
  intro s w rest hin
  have hstep := step_of_cmd_write hin
  refine ⟨fun h => ?_, fun hb he why hd => ?_, fun hb he i hd => ?_⟩
  · exact hstep.trans (congrArg _ (State.issue_of_not_free (s := s.popInbox rest) h w))
  · exact hstep.trans (congrArg _ (State.issue_of_illegal (s := s.popInbox rest) hb he hd))
  · exact ⟨_, hstep.trans (congrArg _ (State.issue_of_command (s := s.popInbox rest) hb he hd)), rfl, rfl,
      fun q hq => s.operandB_of_some hq, fun q hq => s.operandC_of_some hq, rfl⟩

theorem engineStep_of_run {s : State} {r : Running} {i : Instr} (hr : s.eng = .run r) (hd : decode r.word = .command i) :
    engineStep s = exec i s := by
  simp [engineStep, hr, hd]

theorem engineStep_of_idle {s : State} (h : s.eng = .idle) : engineStep s = .next s := by simp [engineStep, h]

theorem step_of_engineTurn {s : State} {rest : List HostEvent} (h : s.inbox = .engineTurn :: rest) :
    step s = engineStep (s.popInbox rest) := step_of_events h

/-- A host that polls lets the engine move while it runs (R80 `WAIT`). -/
theorem step_of_waitIdle_of_busy {s : State} {rest : List HostEvent} (h : s.inbox = .waitIdle :: rest) (hb : s.busy = true) :
    step s = engineStep s := (step_of_events h).trans (if_pos hb)

theorem State.refill_of_free {s : State} {n : Nat} (h : s.inbox = []) (ht : s.tail = .free n) :
    s.refill = { s with inbox := [Config.hostEvent s.params.blockId n], tail := .free (n + 1) } := by
  simp [State.refill, h, ht]

/-- Filling the host's list a second time adds nothing. -/
@[simp] theorem State.refill_refill (s : State) : s.refill.refill = s.refill := by
  cases hi : s.inbox with
  | cons e rest => rw [State.refill_of_events hi, State.refill_of_events hi]
  | nil =>
    cases ht : s.tail with
    | silent => rw [State.refill_of_silent hi ht, State.refill_of_silent hi ht]
    | free n => rw [State.refill_of_free hi ht, State.refill_of_events rfl]
    | again events =>
      rw [State.refill_of_again hi ht]
      cases events with
      | nil => exact State.refill_of_again rfl ht
      | cons e rest => exact State.refill_of_events rfl

theorem step_refill (s : State) : step s.refill = step s := by rw [step_eq, State.refill_refill, step_eq]

/-- The state `withFetchWord` leaves for a legal word: the command accepted, the host silent (log 8). -/
theorem State.withFetchWord_eq {s : State} {n w : Nat} {i : Instr} (h : decodeTableWord n w = some i) :
    s.withFetchWord n w = { s.accept (tableWord n w) i with inbox := [], tail := .silent } := by
  rw [State.withFetchWord, placeWord, decode_of_decodeTableWord h]

/-- Settles O5: each kind of turn is the engine's step, which runs the latched word's command (R33, R191, R202). -/
theorem stepRunsTheLatchedCommand : Obligations.StepRunsTheLatchedCommand := by
  refine ⟨fun s r i hr hd => ⟨fun hi ht => step_of_running hi ht hr hd, fun rest h => ?_, fun rest h => ?_⟩, fun s n w i h => ?_,
    fun s he => ⟨fun hi ht => step_of_idle hi ht he, fun rest h => ?_⟩, fun s hi => ⟨fun events ht => ?_, fun n ht => ?_⟩⟩
  · exact (step_of_engineTurn h).trans (engineStep_of_run (s := s.popInbox rest) hr hd)
  · exact (step_of_waitIdle_of_busy h (State.busy_of_run hr)).trans (engineStep_of_run hr hd)
  · rw [State.withFetchWord_eq h]
    exact step_of_running rfl rfl rfl (decode_of_decodeTableWord h)
  · exact (step_of_engineTurn h).trans (engineStep_of_idle (s := s.popInbox rest) he)
  · rw [← State.refill_of_again hi ht, step_refill]
  · rw [← State.refill_of_free hi ht, step_refill]

/-- The step that accepts a command: the host writes its encoding to a free block (R33, R82). -/
theorem step_of_issued_command {s : State} {i : Instr} {rest : List HostEvent} (hb : s.busy = false) (he : s.status.err = false)
    (hin : s.inbox = .write s.params.base 4 (encode i) :: rest) : step s = .next ((s.popInbox rest).accept (encode i) i) := by
  rw [step_of_cmd_write hin]
  exact congrArg _ (State.issue_of_command (s := s.popInbox rest) hb he (decode_encode i))

/-- Two steps of a free block whose host writes a command and nothing more: the acceptance, then one step of the command. -/
theorem run_two_of_issued_command {s t : State} {i : Instr} (hb : s.busy = false) (he : s.status.err = false) (ht : s.tail = .silent)
    (hin : s.inbox = [.write s.params.base 4 (encode i)]) (hx : exec i ((s.popInbox []).accept (encode i) i) = .next t) :
    Host.Core.run Sys2Proof.core 2 s = .next t := by
  have hexec : step ((s.popInbox []).accept (encode i) i) = .next t :=
    (step_of_running (s := (s.popInbox []).accept (encode i) i) rfl ht rfl (decode_encode i)).trans hx
  rw [run_succ 1 (step_of_issued_command hb he hin), run_succ 0 hexec, run_zero]

/-- `MODMUL` with a non-zero modulus completes in its one step with the product (R92). -/
theorem exec_modmul_of_ne_zero {s : State} {r : Running} (rd ra rb rc : Reg) (hr : s.eng = .run r) (hc : r.c ≠ 0) :
    exec (.modmul rd ra rb rc) s = .next (s.complete rd (r.a * r.b % r.c)) :=
  (onRunning_eq hr _).trans (congrArg _ (if_neg hc))

/-- Settles O30: the first step accepts the command with the sources latched, the second completes it, so that a repeated field reads the
value its register had at acceptance (R33, R34, R92). -/
theorem issuedModmulWritesTheProduct : Obligations.IssuedModmulWritesTheProduct := by
  intro s rd ra rb rc h hb he hc ht hin
  have hfits : s.x ra * s.x rb % s.x rc < 2 ^ s.params.width :=
    (Nat.mod_lt _ (Nat.pos_of_ne_zero hc)).trans (State.x_lt (h.limbs rc))
  have hrun := run_two_of_issued_command hb he ht hin (exec_modmul_of_ne_zero rd ra rb rc rfl hc)
  obtain ⟨hbusy, hdone, herr, -, -⟩ := State.statusWord_bits (State.complete rd (s.x ra * s.x rb % s.x rc)
    ((s.popInbox []).accept (encode (.modmul rd ra rb rc)) (.modmul rd ra rb rc)))
  exact ⟨_, hrun, State.complete_x_same hfits, fun q hq => State.complete_x_other hq _ _, hbusy, hdone, herr.trans he, rfl⟩

end Machine
end Sys2Proof
end

section
/-! Host accesses to the register space (R52 to R59): where the operand windows lie, what limbs say of a register, which accesses have a
step, and what each access does while a command runs or a fault is recorded. -/

namespace Sys2Proof.Machine

/-! ### The operand windows -/

/-- The windows are the words from `0x1000` on, register by register: limb `j` of register `i` is word number `i * (W/32) + j` (R52). -/
theorem opw_eq (p : Params) (i : Reg) (j : Nat) : opw p i j = 0x1000 + 4 * (i.val * p.limbs + j) := by
  have hbytes : p.width / 8 = 4 * p.limbs := by unfold Params.width; omega
  rw [opw, hbytes, Nat.mul_left_comm]
  omega

/-- Eight registers of `W/32` words fill the `W` bytes from `0x1000` on (R50, R52). -/
theorem opw_lt_spaceBytes {p : Params} (i : Reg) {j : Nat} (hj : j < p.limbs) : opw p i j < p.spaceBytes := by
  have hi : i.val * p.limbs ≤ 7 * p.limbs := Nat.mul_le_mul_right _ (Nat.le_of_lt_succ i.isLt)
  rw [opw_eq, Params.spaceBytes, Params.width]
  omega

/-- The address decoder finds limb `j` of register `i` at `OPW(i, j)`: dividing the word number by `W/32` gives back `i` and `j`. -/
theorem regionAt_opw {p : Params} (i : Reg) {j : Nat} (hj : j < p.limbs) : regionAt p (opw p i j) = .window i j := by
  have hword : (opw p i j - 0x1000) / 4 = j + p.limbs * i.val := by rw [opw_eq, Nat.mul_comm p.limbs]; omega
  have hreg : (j + p.limbs * i.val) / p.limbs % 8 = i.val := by
    rw [Nat.add_mul_div_left _ _ (by omega), Nat.div_eq_of_lt hj, Nat.zero_add, Nat.mod_eq_of_lt i.isLt]
  have hlimb : (j + p.limbs * i.val) % p.limbs = j := by rw [Nat.add_mul_mod_self_left, Nat.mod_eq_of_lt hj]
  have hlow : 0x1000 ≤ opw p i j := by rw [opw_eq]; omega
  rw [regionAt, if_neg (by omega), if_neg (by omega), if_neg (by omega), if_neg (by omega), if_neg (by omega)]
  simp only [hword, hreg, hlimb]

theorem locate_opw {p : Params} (i : Reg) {j : Nat} (hj : j < p.limbs) : locate p (p.base + opw p i j) 4 = .found (.window i j) := by
  rw [locate_offset (by rw [opw_eq]; omega) (opw_lt_spaceBytes i hj), regionAt_opw i hj]

/-- Every aligned offset of the `W` bytes from `0x1000` on is `OPW(i, j)` of the register and limb its word number divides into. -/
theorem exists_opw_eq {p : Params} {off : Nat} (hlo : 0x1000 ≤ off) (hhi : off < 0x1000 + p.width) (ha : off % 4 = 0) :
    ∃ (i : Reg) (j : Nat), j < p.limbs ∧ off = opw p i j := by
  have hword : (off - 0x1000) / 4 < p.limbs * 8 := by unfold Params.width at hhi; omega
  refine ⟨⟨(off - 0x1000) / 4 / p.limbs, Nat.div_lt_of_lt_mul hword⟩, (off - 0x1000) / 4 % p.limbs,
    Nat.mod_lt _ (Nat.succ_pos _), ?_⟩
  rw [opw_eq, Nat.div_add_mod']
  omega

/-- Settles O7: the address decoder inverts `OPW`, and division finds the limb of an offset (R52). -/
theorem operandWindowsFillTheSpace : Obligations.OperandWindowsFillTheSpace :=
  ⟨fun _ i _ hj => locate_opw i hj, fun _ _ hlo hhi ha => exists_opw_eq hlo hhi ha⟩

/-! ### Limbs -/

/-- The integer of a register is the little-endian sum of its limbs (R54). -/
theorem limbsValue_eq_sum (o : Operand) :
    limbsValue o = ((List.range o.length).map (fun k => (limbAt o k).toNat * 2 ^ (32 * k))).sum := by
  induction o with
  | nil => rfl
  | cons l rest ih =>
    have hshift (k : Nat) : (limbAt (l :: rest) (k + 1)).toNat * 2 ^ (32 * (k + 1)) = 2 ^ 32 * ((limbAt rest k).toNat * 2 ^ (32 * k)) := by
      have hlimb : limbAt (l :: rest) (k + 1) = limbAt rest k := rfl
      rw [hlimb, Nat.mul_succ, Nat.pow_add]
      ring
    rw [limbsValue, ih, List.length_cons, List.range_succ_eq_map, List.map_cons, List.sum_cons, List.map_map, ← List.sum_map_mul_left]
    simp only [Function.comp_def, Nat.succ_eq_add_one, hshift, Nat.mul_zero, Nat.pow_zero, Nat.mul_one]
    rfl

theorem State.Inv.x_eq_sum {s : State} (h : s.Inv) (i : Reg) :
    s.x i = ((List.range s.params.limbs).map (fun k => (readRegion s (.window i k)).toNat * 2 ^ (32 * k))).sum := by
  rw [← h.limbs i]
  exact limbsValue_eq_sum (s.operand i)

theorem readRegion_window_toNat (s : State) (i : Reg) (j : Nat) :
    (readRegion s (.window i j)).toNat = bits (s.x i) (32 * j + 31) (32 * j) := by
  have hwidth : 32 * j + 31 - 32 * j + 1 = 32 := by omega
  rw [bits, hwidth]
  exact toNat_limbAt (s.operand i) j

/-- A limb's contribution is part of its register's value. -/
theorem toNat_limbAt_mul_le (o : Operand) (j : Nat) : (limbAt o j).toNat * 2 ^ (32 * j) ≤ limbsValue o := by
  rw [toNat_limbAt]
  exact (Nat.mul_le_mul_right _ (Nat.mod_le _ _)).trans (Nat.div_mul_le_self _ _)

theorem writeWindow_of_idle {s : State} (h : s.busy = false) (i : Reg) (j : Nat) (v : Limb) :
    writeWindow s i j v = s.setOperand i (limbSet (s.operand i) j v) := if_neg (by simp [h])

theorem writeWindow_of_busy {s : State} (h : s.busy = true) (i : Reg) (j : Nat) (v : Limb) : writeWindow s i j v = s.markDrop := if_pos h

/-- An honoured write exchanges the limb's contribution to the value (R54). -/
theorem writeWindow_x_same {s : State} {i : Reg} {j : Nat} (h : s.Inv) (hj : j < s.params.limbs) (hb : s.busy = false) (v : Limb) :
    (writeWindow s i j v).x i = s.x i - (limbAt (s.operand i) j).toNat * 2 ^ (32 * j) + v.toNat * 2 ^ (32 * j) := by
  have hset := limbsValue_limbSet (by rwa [h.limbs i] : j < (s.operand i).length) v
  have hle := toNat_limbAt_mul_le (s.operand i) j
  rw [writeWindow_of_idle hb, State.setOperand_x_same, State.x]
  omega

theorem State.setOperand_x_other {s : State} {i q : Reg} (h : q ≠ i) (o : Operand) : (s.setOperand i o).x q = s.x q := by
  rw [State.x, State.setOperand_operand_other h, State.x]

theorem writeWindow_x_other (s : State) {i q : Reg} (h : q ≠ i) (j : Nat) (v : Limb) : (writeWindow s i j v).x q = s.x q := by
  unfold writeWindow
  split
  · exact State.markDrop_x s q
  · exact State.setOperand_x_other h _

theorem busByte_toNat (v : Limb) (k : Nat) : (busByte v k).toNat = bits v.toNat (8 * k + 7) (8 * k) := by
  have hwidth : 8 * k + 7 - 8 * k + 1 = 8 := by omega
  rw [busByte, BitVec.toNat_ofNat, bits, hwidth, Nat.mod_mod]

/-- Settles O10: the sum, the slice and the exchanged contribution of a limb (R54). -/
theorem limbsAreLittleEndian : Obligations.LimbsAreLittleEndian :=
  ⟨fun s i j h hj => ⟨h.x_eq_sum i, readRegion_window_toNat s i j,
    fun v hb => ⟨writeWindow_x_same h hj hb v, fun _ hq => writeWindow_x_other s hq j v⟩⟩, fun v k _ => busByte_toNat v k⟩

/-! ### Which accesses have a step -/

theorem locate_of_inside {p : Params} {addr size : Nat} (ha : size = 4 ∧ addr % 4 = 0)
    (hin : p.base ≤ addr ∧ addr < p.base + p.spaceBytes) : locate p addr size = .found (regionAt p (addr - p.base)) := by
  rw [locate, if_pos ha, if_pos hin]

theorem locate_of_outside {p : Params} {addr size : Nat} (ha : size = 4 ∧ addr % 4 = 0)
    (hout : ¬(p.base ≤ addr ∧ addr < p.base + p.spaceBytes)) : locate p addr size = .nowhere .accessOutside := by
  rw [locate, if_pos ha, if_neg hout]

theorem locate_of_undefined {p : Params} {addr size : Nat} (ha : ¬(size = 4 ∧ addr % 4 = 0)) :
    locate p addr size = .nowhere .accessUndefined := by rw [locate, if_neg ha]

/-- Taking the event off the host's list changes nothing the host can read. -/
theorem readRegion_popInbox (s : State) (rest : List HostEvent) (g : Region) : readRegion (s.popInbox rest) g = readRegion s g := by
  cases g <;> rfl

section
variable {s : State} {addr size : Nat} {v : Limb} {rest : List HostEvent} {g : Region} {why : Refusal}

theorem step_of_read_found (hin : s.inbox = .read addr size :: rest) (hl : locate s.params addr size = .found g) :
    step s = .next ((s.popInbox rest).respond (readRegion s g)) := by
  rw [step_of_events hin, hostStep, hostRead, State.popInbox_params, hl, ← readRegion_popInbox s rest g]

theorem step_of_read_nowhere (hin : s.inbox = .read addr size :: rest) (hl : locate s.params addr size = .nowhere why) :
    step s = .refused why := by
  rw [step_of_events hin, hostStep, hostRead, State.popInbox_params, hl]

theorem step_of_write_found (hin : s.inbox = .write addr size v :: rest) (hl : locate s.params addr size = .found g) :
    step s = .next (writeRegion (s.popInbox rest) g v) := by
  rw [step_of_events hin, hostStep, hostWrite, State.popInbox_params, hl]

theorem step_of_write_nowhere (hin : s.inbox = .write addr size v :: rest) (hl : locate s.params addr size = .nowhere why) :
    step s = .refused why := by
  rw [step_of_events hin, hostStep, hostWrite, State.popInbox_params, hl]

end

/-- Settles O9: an access steps or is refused as `locate` answers, which has one answer for each of the three kinds (R53, R55, R56). -/
theorem onlyAlignedWordAccessesAreDefined : Obligations.OnlyAlignedWordAccessesAreDefined := by
  refine fun s addr size v rest => ⟨fun ha hlo hhi => ?_, fun ha => ?_, fun ha hout => ?_⟩
  · have hl := locate_of_inside (p := s.params) ha ⟨hlo, hhi⟩
    exact ⟨⟨_, step_of_read_found rfl hl⟩, ⟨_, step_of_write_found rfl hl⟩⟩
  · have hl := locate_of_undefined (p := s.params) ha
    exact ⟨step_of_read_nowhere rfl hl, step_of_write_nowhere rfl hl⟩
  · have hl := locate_of_outside ha hout
    exact ⟨step_of_read_nowhere rfl hl, step_of_write_nowhere rfl hl⟩

/-! ### Accesses while a command runs, and while a fault is recorded -/

/-- A command that goes on changes no limb as read (R22, R59). -/
theorem exec_readRegion_window_of_busy {i : Instr} {s t : State} (ht : exec i s = .next t) (hb : t.busy = true) (q : Reg) (j : Nat) :
    readRegion t (.window q j) = readRegion s (.window q j) := by
  simp only [readRegion, State.operand, exec_regs_of_not_completed ht (.inl hb)]

/-- Settles O11: `BUSY` decides a limb write, `BUSY` or `ERR` a write to `CMD`, and nothing else depends on either (R59). -/
theorem accessesWhileACommandRuns : Obligations.AccessesWhileACommandRuns :=
  ⟨fun _ i j v hb => ⟨writeWindow_of_busy hb i j v, State.issue_of_not_free (.inl hb) v, rfl, rfl, rfl, rfl, rfl, rfl⟩,
    fun _ i j v hb he => ⟨writeWindow_of_idle hb i j v, rfl, State.issue_of_not_free (.inr he) v⟩,
    fun _ _ _ _ q j _ ht hb => exec_readRegion_window_of_busy ht hb q j⟩

/-! ### Side effects and repeated writes -/

/-- A cleared bit stays cleared, and a second clearing of `CAUSE` with `ERR` finds it clear (R27, R30). -/
theorem State.writeStatus_writeStatus (s : State) (v : Limb) : (s.writeStatus v).writeStatus v = s.writeStatus v := by
  simp only [State.writeStatus, Bool.and_assoc, Bool.and_self]
  split <;> rfl

theorem State.writeCtrl_of_no_hasCancel {s : State} (hp : s.params.hasCancel = false) (v : Limb) : s.writeCtrl v = s := by
  simp [State.writeCtrl, hp]

section
variable {s : State} {v : Limb} (hp : s.params.hasCancel = true)
include hp

theorem State.writeCtrl_clear (hv : v.getLsbD 0 = false) : s.writeCtrl v = { s with ctrl := { cancel := false } } := by
  rw [State.writeCtrl, if_pos hp, if_neg (Bool.eq_false_iff.mp hv)]

theorem State.writeCtrl_set_of_busy (hv : v.getLsbD 0 = true) (hb : s.busy = true) :
    s.writeCtrl v = { s with ctrl := { cancel := true } } := by rw [State.writeCtrl, if_pos hp, if_pos hv, if_pos hb]

theorem State.writeCtrl_set_of_idle (hv : v.getLsbD 0 = true) (hb : s.busy = false) : s.writeCtrl v = s := by
  rw [State.writeCtrl, if_pos hp, if_pos hv, if_neg (Bool.eq_false_iff.mp hb)]

end

/-- What a write to `CTRL` does depends on `HAS_CANCEL` and `BUSY`, which it does not change (R31). -/
theorem State.writeCtrl_writeCtrl (s : State) (v : Limb) : (s.writeCtrl v).writeCtrl v = s.writeCtrl v := by
  cases hp : s.params.hasCancel with
  | false => rw [State.writeCtrl_of_no_hasCancel hp, State.writeCtrl_of_no_hasCancel hp]
  | true =>
    cases hv : v.getLsbD 0 with
    | false =>
      rw [State.writeCtrl_clear hp hv]
      exact State.writeCtrl_clear (s := { s with ctrl := { cancel := false } }) hp hv
    | true =>
      cases hb : s.busy with
      | false => rw [State.writeCtrl_set_of_idle hp hv hb, State.writeCtrl_set_of_idle hp hv hb]
      | true =>
        rw [State.writeCtrl_set_of_busy hp hv hb]
        exact State.writeCtrl_set_of_busy (s := { s with ctrl := { cancel := true } }) hp hv hb

theorem State.setOperand_setOperand (s : State) (i : Reg) (o o' : Operand) : (s.setOperand i o).setOperand i o' = s.setOperand i o' := by
  simp [State.setOperand]

theorem writeWindow_writeWindow (s : State) (i : Reg) (j : Nat) (v : Limb) :
    writeWindow (writeWindow s i j v) i j v = writeWindow s i j v := by
  cases hb : s.busy with
  | true => rw [writeWindow_of_busy hb, writeWindow_of_busy (s := s.markDrop) hb]; rfl
  | false =>
    rw [writeWindow_of_idle hb, writeWindow_of_idle (s := s.setOperand i _) hb, State.setOperand_operand_same,
      State.setOperand_setOperand, limbSet, limbSet, List.set_set]

/-- Settles O15: a read only answers, and each writable part but `CMD` takes a repeated write as one (R57). -/
theorem sideEffectsOfAccesses : Obligations.SideEffectsOfAccesses := by
  refine ⟨fun s t addr size rest hin ht => ?_, fun s g v hg => ?_⟩
  · cases hl : locate s.params addr size with
    | found g => exact ⟨g, rfl, Host.Outcome.next.inj (ht.symm.trans (step_of_read_found hin hl))⟩
    | nowhere why => cases ht.symm.trans (step_of_read_nowhere hin hl)
  · cases g with
    | cmd => exact absurd rfl hg
    | status => exact s.writeStatus_writeStatus v
    | cause => rfl
    | ctrl => exact s.writeCtrl_writeCtrl v
    | reserved => rfl
    | window i j => exact writeWindow_writeWindow s i j v

end Sys2Proof.Machine
end

section
/-! Encoding and decoding (R71 to R79): a legal word and its command determine each other, and the mask of a row keeps exactly the fields
that row fixes. -/

namespace Sys2Proof

/-! ### Commands and the fields of their words -/

/-- Every command is well formed and its opcode leads back to its row (R74, R76). -/
theorem encoded_all (i : Instr) : Laws.Encoded.Statement i :=
  match i with
  | .modmul .. => Laws.Encoded.modmul ..
  | .montmul .. => Laws.Encoded.montmul ..
  | .modexp .. => Laws.Encoded.modexp ..
  | .montr2 .. => Laws.Encoded.montr2 ..
  | .randbits .. => Laws.Encoded.randbits ..
  | .randbtw .. => Laws.Encoded.randbtw ..
  | .mrtest .. => Laws.Encoded.mrtest ..
  | .genprime .. => Laws.Encoded.genprime ..

/-- Settles O1: every command is well formed, so its word, taken apart again, passes the checks of its own row (R79). -/
theorem decodeOfEncodeIsTheCommand : Obligations.DecodeOfEncodeIsTheCommand :=
  fun i => ⟨(encoded_all i).1, decode_encode i⟩

theorem mnemonic_build (m : Mnemonic) (x : Fields) : (m.build x).mnemonic = m := by cases m <;> rfl

theorem Mnemonic.mem_all (m : Mnemonic) : m ∈ Mnemonic.all := by cases m <;> decide

/-- The opcode determines the row (R74). -/
theorem ofOpcode_eq_some_iff {op : BitVec 8} {m : Mnemonic} : Mnemonic.ofOpcode op = some m ↔ op = m.opcode :=
  ⟨fun h => (opcode_of_ofOpcode h).symm, fun h => h ▸ ofOpcode_opcode m⟩

theorem Mnemonic.opcode_injective : Function.Injective Mnemonic.opcode := fun m _ h =>
  Option.some.inj ((ofOpcode_opcode m).symm.trans (ofOpcode_eq_some_iff.mpr h))

/-- `z` is zero, and so are the register fields the format does not use (R72, R76). -/
theorem Fields.wellFormed_iff {f : Format} {x : Fields} :
    x.wellFormed f = true ↔ x.z = 0 ∧ (f ≠ .q → x.rc = 0) ∧ (f = .p → x.rb = 0) := by
  cases f <;> simp [Fields.wellFormed, Fields.zClear, Fields.rcClear, Fields.rbClear, and_assoc]

/-- A command keeps the register fields its format uses and has 0 in the others (R72, R79). -/
theorem fields_build (m : Mnemonic) (x : Fields) : (m.build x).fields =
    { op := m.opcode, rd := x.rd, ra := x.ra, rb := if m.format = .p then 0 else x.rb,
      rc := if m.format = .q then x.rc else 0, z := 0 } := by
  cases m <;> rfl

/-- Fields that are well formed for a row are 0 where its command has 0, so nothing of them is lost (R76, R79). -/
theorem fields_build_of_wellFormed {m : Mnemonic} {x : Fields} (hop : x.op = m.opcode) (hw : x.wellFormed m.format = true) :
    (m.build x).fields = x := by
  obtain ⟨hz, hrc, hrb⟩ := Fields.wellFormed_iff.mp hw
  rw [fields_build, ite_eq_right_iff.mpr fun h => (hrb h).symm, ite_eq_left_iff.mpr fun h => (hrc h).symm, ← hop, ← hz]

/-- What the decoder accepts: the command is built from the fields of the word, which fit its row (R75, R79). -/
theorem decode_command_iff {w : CmdWord} {i : Instr} :
    decode w = .command i ↔
      ∃ m : Mnemonic, (fieldsOf w).op = m.opcode ∧ (fieldsOf w).wellFormed m.format = true ∧ m.build (fieldsOf w) = i := by
  simp only [decode, decodeFields_command_iff, ofOpcode_eq_some_iff]

/-- Settles O2: the fields of the decoded command are those of the word, and the fields of a word determine it (R79). -/
theorem encodeOfDecodeIsTheWord : Obligations.EncodeOfDecodeIsTheWord := by
  intro w i h
  obtain ⟨m, hop, hw, rfl⟩ := decode_command_iff.mp h
  rw [encode, fields_build_of_wellFormed hop hw, wordOf_fieldsOf]

/-! ### Masks -/

/-- The bitwise and, field by field. -/
def Fields.and (x y : Fields) : Fields where
  op := x.op &&& y.op
  rd := x.rd &&& y.rd
  ra := x.ra &&& y.ra
  rb := x.rb &&& y.rb
  rc := x.rc &&& y.rc
  z := x.z &&& y.z

theorem bits_and (a b hi lo : Nat) : bits (a &&& b) hi lo = bits a hi lo &&& bits b hi lo := by
  simp only [bits, Nat.and_div_two_pow, Nat.and_mod_two_pow]

theorem regOfBits_and (a b : Nat) : regOfBits (a &&& b) = regOfBits a &&& regOfBits b := by
  apply Fin.ext
  rw [regOfBits, Fin.and_val]
  exact Nat.and_mod_two_pow (n := 3)

theorem fieldsOf_and (w u : CmdWord) : fieldsOf (w &&& u) = (fieldsOf w).and (fieldsOf u) := by
  simp only [fieldsOf, Fields.and, BitVec.toNat_and, bits_and, regOfBits_and, BitVec.ofNat_and]

/-- A word is determined by its fields (R71). -/
theorem fieldsOf_inj {w u : CmdWord} : fieldsOf w = fieldsOf u ↔ w = u :=
  ⟨fun h => by rw [← wordOf_fieldsOf w, h, wordOf_fieldsOf], fun h => h ▸ rfl⟩

/-- The row's value under its mask is its opcode alone (R74). -/
theorem fieldsOf_pattern (m : Mnemonic) : fieldsOf m.pattern = { op := m.opcode, rd := 0, ra := 0, rb := 0, rc := 0, z := 0 } := by
  cases m <;> decide

/-- A mask has ones in the opcode, in `z`, and in the register fields the format does not use (R72). -/
theorem fieldsOf_mask (f : Format) : fieldsOf f.mask =
    { op := .allOnes 8, rd := 0, ra := 0, rb := if f = .p then 7 else 0, rc := if f = .q then 0 else 7, z := .allOnes 12 } := by
  cases f <;> decide

theorem Reg.and_zero (r : Reg) : r &&& 0 = 0 := by fin_cases r <;> rfl

theorem Reg.and_seven (r : Reg) : r &&& 7 = r := by fin_cases r <;> rfl

/-- A word matches a row exactly when it has the row's opcode and is well formed for its format (R75, R76). -/
theorem and_mask_eq_pattern_iff {w : CmdWord} {m : Mnemonic} :
    w &&& m.format.mask = m.pattern ↔ (fieldsOf w).op = m.opcode ∧ (fieldsOf w).wellFormed m.format = true := by
  rw [← fieldsOf_inj, fieldsOf_and, fieldsOf_mask, fieldsOf_pattern, Fields.wellFormed_iff, Fields.and,
    BitVec.and_allOnes, BitVec.and_allOnes]
  cases m.format <;> simp [Reg.and_zero, Reg.and_seven, and_comm, and_assoc]

/-- The rows a word can match all have its opcode, so there is at most one (R75). -/
theorem matching_row_unique {w : CmdWord} {m k : Mnemonic} (hm : w &&& m.format.mask = m.pattern) (hk : w &&& k.format.mask = k.pattern) :
    m = k :=
  Mnemonic.opcode_injective ((and_mask_eq_pattern_iff.mp hm).1.symm.trans (and_mask_eq_pattern_iff.mp hk).1)

theorem decode_command_iff_matches {w : CmdWord} {i : Instr} :
    decode w = .command i ↔ ∃ m : Mnemonic, w &&& m.format.mask = m.pattern ∧ m.build (fieldsOf w) = i := by
  simp only [decode_command_iff, and_mask_eq_pattern_iff, and_assoc]

theorem exists_decode_command_iff {w : CmdWord} :
    (∃ i, decode w = .command i) ↔ ∃ m ∈ Mnemonic.all, w &&& m.format.mask = m.pattern := by
  simp only [decode_command_iff_matches]
  exact ⟨fun ⟨_, m, hm, _⟩ => ⟨m, m.mem_all, hm⟩, fun ⟨m, _, hm⟩ => ⟨_, m, hm, rfl⟩⟩

/-- The command decoded from a word is of the row the word matches (R75). -/
theorem decoded_row_matches {w : CmdWord} {i : Instr} (h : decode w = .command i) :
    w &&& i.mnemonic.format.mask = i.mnemonic.pattern := by
  obtain ⟨m, hm, rfl⟩ := decode_command_iff_matches.mp h
  rwa [mnemonic_build]

/-- A word that matches no row is rejected (R75). -/
theorem decode_illegal_of_no_match {w : CmdWord} (h : ∀ m ∈ Mnemonic.all, w &&& m.format.mask ≠ m.pattern) :
    ∃ why, decode w = .illegal why := by
  cases hd : decode w with
  | illegal why => exact ⟨why, rfl⟩
  | command i => exact absurd (decoded_row_matches hd) (h _ i.mnemonic.mem_all)

/-- Settles O3: matching a row is having its opcode and being well formed for it, which is what the decoder checks, and issuing a word it
rejects is the fault `IllegalCommand` (R33, R75). -/
theorem legalExactlyWhenOneRowMatches : Obligations.LegalExactlyWhenOneRowMatches := by
  refine ⟨fun w => exists_decode_command_iff, fun w m k => matching_row_unique, fun w i => decoded_row_matches, ?_, ?_⟩
  · intro s w hb he hno
    obtain ⟨why, hd⟩ := decode_illegal_of_no_match hno
    rw [Machine.State.issue_of_illegal hb he hd]
    exact ⟨rfl, rfl, rfl, rfl, rfl⟩
  · intro m
    cases m <;> decide

end Sys2Proof
end

section
/-! The host's `WR` and `RD` (R80): each is a run of one access per limb, in ascending order. -/

namespace Sys2Proof.Machine

/-- A run along a sequence of states, each of which steps to the next one. -/
theorem run_of_step_seq {n : Nat} {f : Nat → State} (h : ∀ k < n, step (f k) = .next (f (k + 1))) :
    Host.Core.run Sys2Proof.core n (f 0) = .next (f n) := by
  induction n with
  | zero => rfl
  | succ n ih =>
    rw [run_add 1 (ih fun k hk => h k (Nat.lt_succ_of_lt hk)), run_succ 0 (h n (Nat.lt_succ_self n)), run_zero]

/-- The next of a list of accesses, one per limb. -/
theorem drop_map_range {α : Type} (g : Nat → α) {n k : Nat} (hk : k < n) :
    ((List.range n).map g).drop k = g k :: ((List.range n).map g).drop (k + 1) := by
  rw [List.drop_eq_getElem_cons (by simpa using hk)]
  simp

/-! ### `WR` -/

/-- The limb `WR` writes at position `j` is that of the value (R54, R80). -/
theorem limbAt_limbsOf {n v : Nat} (h : v < 2 ^ (32 * n)) (j : Nat) :
    limbAt (limbsOf n v) j = BitVec.ofNat 32 (bits v (32 * j + 31) (32 * j)) := by
  have hwidth : 32 * j + 31 - 32 * j + 1 = 32 := by omega
  apply BitVec.eq_of_toNat_eq
  rw [toNat_limbAt, limbsValue_limbsOf h, BitVec.toNat_ofNat, bits, hwidth, Nat.mod_mod]

/-- Limb `k` written where the limbs below it are already those of `o`. -/
theorem limbSet_take_append_drop {o old : Operand} {k : Nat} (hk : k < o.length) (hk' : k < old.length) :
    limbSet (o.take k ++ old.drop k) k (limbAt o k) = o.take (k + 1) ++ old.drop (k + 1) := by
  have hlen : (o.take k).length = k := List.length_take_of_le hk.le
  rw [limbSet, limbAt, List.drop_eq_getElem_cons hk', List.set_append_right _ _ hlen.le, hlen, Nat.sub_self, List.set_cons_zero,
    List.getD_eq_getElem _ _ hk, List.append_cons, List.take_append_getElem hk]

/-- The state in which `k` limbs of register `i` have been replaced by those of `o`, the accesses that did so taken off the list. -/
def State.afterWrites (s : State) (i : Reg) (o : Operand) (k : Nat) : State :=
  (s.setOperand i (o.take k ++ (s.operand i).drop k)).popInbox (s.inbox.drop k)

theorem State.setOperand_operand (s : State) (i : Reg) : s.setOperand i (s.operand i) = s := by
  simp [State.setOperand, State.operand]

theorem State.afterWrites_zero (s : State) (i : Reg) (o : Operand) : s.afterWrites i o 0 = s :=
  congrArg (fun t : State => t.popInbox s.inbox) (s.setOperand_operand i)

theorem State.afterWrites_all {s : State} {i : Reg} {o : Operand} {n : Nat} (ho : o.length ≤ n) (hold : (s.operand i).length ≤ n)
    (hin : s.inbox.length ≤ n) : s.afterWrites i o n = (s.setOperand i o).popInbox [] := by
  rw [State.afterWrites, List.take_of_length_le ho, List.drop_eq_nil_of_le hold, List.append_nil, List.drop_eq_nil_of_le hin]

/-- One write of `WR` (R54, R80). -/
theorem step_afterWrites {s : State} {i : Reg} {o : Operand} {k : Nat} (hb : s.busy = false)
    (hlen : (s.operand i).length = s.params.limbs) (ho : o.length = s.params.limbs) (hk : k < s.params.limbs)
    (hin : s.inbox.drop k = .write (s.params.base + opw s.params i k) 4 (limbAt o k) :: s.inbox.drop (k + 1)) :
    step (s.afterWrites i o k) = .next (s.afterWrites i o (k + 1)) := by
  rw [step_of_write_found (s := s.afterWrites i o k) hin (locate_opw i hk), writeRegion,
    writeWindow_of_idle (s := (s.afterWrites i o k).popInbox _) hb, State.popInbox_operand, State.afterWrites, State.popInbox_operand,
    State.setOperand_operand_same, limbSet_take_append_drop (ho ▸ hk) (hlen ▸ hk)]
  exact congrArg (fun t : State => Host.Outcome.next (t.popInbox (s.inbox.drop (k + 1)))) (s.setOperand_setOperand i _ _)

theorem drop_wrEvents {p : Params} (i : Reg) {v k : Nat} (hv : v < 2 ^ p.width) (hk : k < p.limbs) :
    (wrEvents p i v).drop k = .write (p.base + opw p i k) 4 (limbAt (limbsOf p.limbs v) k) :: (wrEvents p i v).drop (k + 1) := by
  rw [limbAt_limbsOf hv]
  exact drop_map_range _ hk

/-- `WR` on an idle block gives the register the limbs of the value (R80). -/
theorem run_wrEvents {s : State} {i : Reg} {v : Nat} (hlen : (s.operand i).length = s.params.limbs) (hb : s.busy = false)
    (hv : v < 2 ^ s.params.width) (hin : s.inbox = wrEvents s.params i v) :
    Host.Core.run Sys2Proof.core s.params.limbs s = .next ((s.setOperand i (limbsOf s.params.limbs v)).popInbox []) := by
  have hstep (k : Nat) (hk : k < s.params.limbs) := step_afterWrites (o := limbsOf s.params.limbs v) hb hlen (length_limbsOf _ v) hk
    (hin ▸ drop_wrEvents i hv hk)
  have hrun := run_of_step_seq hstep
  rwa [State.afterWrites_zero, State.afterWrites_all (length_limbsOf _ v).le hlen.le (by simp [hin, wrEvents])] at hrun

/-! ### `RD` -/

/-- The state in which `k` limbs of register `i` have been read, the accesses that did so taken off the list. -/
def State.afterReads (s : State) (i : Reg) (k : Nat) : State :=
  { s with inbox := s.inbox.drop k, outbox := s.outbox ++ (s.operand i).take k }

/-- One read of `RD` (R54, R80). -/
theorem step_afterReads {s : State} {i : Reg} {k : Nat} (hlen : (s.operand i).length = s.params.limbs) (hk : k < s.params.limbs)
    (hin : s.inbox.drop k = .read (s.params.base + opw s.params i k) 4 :: s.inbox.drop (k + 1)) :
    step (s.afterReads i k) = .next (s.afterReads i (k + 1)) := by
  have hread : readRegion (s.afterReads i k) (.window i k) = (s.operand i)[k] := List.getD_eq_getElem _ _ (hlen ▸ hk)
  rw [step_of_read_found (s := s.afterReads i k) hin (locate_opw i hk), hread, State.afterReads, State.afterReads,
    ← List.take_append_getElem (hlen ▸ hk), ← List.append_assoc]
  rfl

theorem State.afterReads_zero (s : State) (i : Reg) : s.afterReads i 0 = s := by simp [State.afterReads]

theorem State.afterReads_all {s : State} {i : Reg} {n : Nat} (hold : (s.operand i).length ≤ n) (hin : s.inbox.length ≤ n) :
    s.afterReads i n = { s with inbox := [], outbox := s.outbox ++ s.operand i } := by
  rw [State.afterReads, List.drop_eq_nil_of_le hin, List.take_of_length_le hold]

/-- `RD` returns the limbs of the register, whether or not a command runs (R54, R80). -/
theorem run_rdEvents {s : State} {i : Reg} (hlen : (s.operand i).length = s.params.limbs) (hin : s.inbox = rdEvents s.params i) :
    Host.Core.run Sys2Proof.core s.params.limbs s = .next { s with inbox := [], outbox := s.outbox ++ s.operand i } := by
  have hstep (k : Nat) (hk : k < s.params.limbs) := step_afterReads hlen hk (hin ▸ drop_map_range _ hk)
  have hrun := run_of_step_seq hstep
  rwa [State.afterReads_zero, State.afterReads_all hlen.le (by simp [hin, rdEvents])] at hrun

/-- Settles O17: `W/32` writes put the limbs of the value, which fits the register, in place of the old ones, and `W/32` reads return
them all (R80). -/
theorem wrAndRdReachTheRegister : Obligations.WrAndRdReachTheRegister := by
  refine ⟨fun s i v h hb hv hin => ⟨_, run_wrEvents (h.limbs i) hb hv hin, ?_, fun q hq => ?_, rfl, rfl,
    s.busy_eq_false_iff.mp hb, rfl, rfl, rfl, rfl⟩, fun s i h hin => run_rdEvents (h.limbs i) hin⟩
  · rw [State.popInbox_x, State.setOperand_x_same, limbsValue_limbsOf hv]
  · rw [State.popInbox_x, State.setOperand_x_other hq]

end Sys2Proof.Machine
end

section
/-! The function layer of units U1 and U2 settled: what `montk`, the Montgomery product and the square-and-multiply loop compute (R94, R95,
R97, R99, R113). The Montgomery product is characterised once (`montmul_eq_ok_iff`); the loop of R99 and the laws of R100 are read off it. -/

namespace Sys2Proof.Machine

/-! ### The power -/

/-- The whole loop of R113 keeps its invariant. -/
theorem expLoop_ok {a e m : Nat} (n : Nat) {v : ExpVars} (h : expOk a e m v) : expOk a e m (expLoop m n v) := by
  induction n generalizing v with
  | zero => exact h
  | succ n ih =>
    rw [expLoop]
    split
    · exact h
    · exact ih (expIter_ok h)

/-- Each iteration halves the exponent, so `n` of them exhaust one of `n` bits (R113). -/
theorem expLoop_exp_eq_zero {m n : Nat} {v : ExpVars} (h : v.exp < 2 ^ n) : (expLoop m n v).exp = 0 := by
  induction n generalizing v with
  | zero => exact Nat.lt_one_iff.mp h
  | succ n ih =>
    rw [expLoop]
    split
    next hzero => exact hzero
    next => exact ih (Nat.div_lt_of_lt_mul (by rwa [pow_succ'] at h))

/-- The loop of R113 computes the power (R111). -/
theorem powMod_eq (base exp : Nat) {m : Nat} (hm : 1 ≤ m) : powMod base exp m = base ^ exp % m := by
  unfold powMod
  split
  next hone => rw [hone, Nat.mod_one]
  next hone =>
    obtain ⟨-, hlt, -, hmod⟩ := expLoop_ok (bitlen exp) (expStart_ok (a := base) (e := exp) (m := m) (by omega))
    have hend : (expLoop m (bitlen exp) (expStart base exp m)).exp = 0 := expLoop_exp_eq_zero (lt_two_pow_bitlen exp)
    rwa [hend, pow_zero, mul_one, Nat.mod_eq_of_lt hlt] at hmod

/-! ### `montk` -/

/-- `montk(m)` is the least multiple of 32 above the bit length (R94). -/
theorem montk_le_iff {m k : Nat} (hk : k % 32 = 0) : montk m ≤ k ↔ m < 2 ^ k := by
  rw [← bitlen_le_iff, montk, ceilDiv]
  omega

theorem montk_mod (m : Nat) : montk m % 32 = 0 := Nat.mul_mod_right ..

/-- Settles O31: the named values are the least multiples of 32 their ranges allow (R94). -/
theorem montkIsTheLimbRoundedLength : Obligations.MontkIsTheLimbRoundedLength := by
  intro m hm
  have hmul := montk_mod m
  have hpos : ¬montk m ≤ 0 := by rw [montk_le_iff rfl]; omega
  have h32 := montk_le_iff (m := m) (k := 32) rfl
  have h64 := montk_le_iff (m := m) (k := 64) rfl
  exact ⟨hmul, lt_two_pow_montk m, fun k hk => (montk_le_iff hk).mpr, by omega, by omega⟩

/-! ### The Montgomery product -/

theorem coprime_two_pow_of_odd {m : Nat} (hm : m % 2 = 1) (k : Nat) : Nat.Coprime m (2 ^ k) :=
  (Nat.coprime_two_right.mpr (Nat.odd_iff.mpr hm)).pow_right k

/-- `montInv(m)` is the inverse of the radix (R95): `(m + 1) / 2` is that of 2. -/
theorem montInv_mul_two_pow {m : Nat} (hm : m % 2 = 1) : montInv m * 2 ^ montk m ≡ 1 [MOD m] := by
  have hhalf : (m + 1) / 2 * 2 = m + 1 := by omega
  have hinv : montInv m ≡ ((m + 1) / 2) ^ montk m [MOD m] := by
    rw [montInv, powMod_eq _ _ (by omega)]
    exact Nat.mod_modEq _ m
  calc montInv m * 2 ^ montk m
      ≡ ((m + 1) / 2) ^ montk m * 2 ^ montk m [MOD m] := hinv.mul_right _
    _ = (m + 1) ^ montk m := by rw [← mul_pow, hhalf]
    _ ≡ 1 ^ montk m [MOD m] := Nat.ModEq.pow _ (by simp [Nat.ModEq])
    _ = 1 := one_pow _

section
variable {a b m t : Nat}

theorem montmul_zero : montmul a b 0 = .err .zeroModulus := rfl

theorem montmul_of_even (hz : m ≠ 0) (hm : m % 2 = 0) : montmul a b m = .err .evenModulus := by
  rw [montmul, if_neg hz, if_pos hm]

theorem montmul_of_out_of_range (hm : m % 2 = 1) (h : m ≤ a ∨ m ≤ b) : montmul a b m = .err .operandOutOfRange := by
  rw [montmul, if_neg (by omega), if_neg (by omega), if_pos h]

theorem montmul_of_legal (hm : m % 2 = 1) (ha : a < m) (hb : b < m) : montmul a b m = .ok (a * b * montInv m % m) := by
  rw [montmul, if_neg (by omega), if_neg (by omega), if_neg (by omega)]

/-- The Montgomery product on legal operands: the one residue that the radix takes to `a * b` (R95). -/
theorem montmul_eq_ok_iff (hm : m % 2 = 1) (ha : a < m) (hb : b < m) :
    montmul a b m = .ok t ↔ t < m ∧ t * 2 ^ montk m ≡ a * b [MOD m] := by
  have hval : a * b * montInv m % m * 2 ^ montk m ≡ a * b [MOD m] :=
    calc a * b * montInv m % m * 2 ^ montk m
        ≡ a * b * montInv m * 2 ^ montk m [MOD m] := (Nat.mod_modEq _ m).mul_right _
      _ = a * b * (montInv m * 2 ^ montk m) := mul_assoc ..
      _ ≡ a * b * 1 [MOD m] := (montInv_mul_two_pow hm).mul_left _
      _ = a * b := mul_one _
  have hlt : a * b * montInv m % m < m := Nat.mod_lt _ (by omega)
  rw [montmul_of_legal hm ha hb, Res.ok.injEq]
  constructor
  · rintro rfl
    exact ⟨hlt, hval⟩
  · rintro ⟨htm, ht⟩
    exact (((hval.trans ht.symm).cancel_right_of_coprime (coprime_two_pow_of_odd hm _)).eq_of_lt_of_lt hlt htm)

/-! ### The loop of R99 -/

/-- The loop of `MONTMUL` starts within its invariant (R99). -/
theorem montStart_ok (hm : m % 2 = 1) (ha : a < m) (hb : b < m) : montOk a b m { i := 0, acc := 0 } :=
  ⟨hm, ha, hb, Nat.zero_le _, by dsimp only; omega, by simp [Nat.mod_one]⟩

/-- At the end of the loop the conditional subtraction leaves the Montgomery product (R99). -/
theorem montmul_eq_montFinish {v : MontVars} (h : montOk a b m v) (hi : v.i = montk m) : montmul a b m = .ok (montFinish m v) := by
  obtain ⟨hm, ha, hb, -, hacc, hmod⟩ := h
  have hfinish : montFinish m v < m ∧ montFinish m v ≡ v.acc [MOD m] := by
    unfold montFinish
    split
    next hle => exact ⟨by omega, (Nat.mod_eq_sub_mod hle).symm⟩
    next hlt => exact ⟨by omega, rfl⟩
  rw [hi, Nat.mod_eq_of_lt (ha.trans (lt_two_pow_montk m))] at hmod
  exact (montmul_eq_ok_iff hm ha hb).mpr ⟨hfinish.1, (hfinish.2.mul_right _).trans hmod⟩

/-- `n` iterations, where as many are left, keep the invariant (R99). -/
theorem montLoop_ok {n : Nat} {v : MontVars} (h : montOk a b m v) (hn : v.i + n ≤ montk m) :
    montOk a b m (montLoop a b m n v) ∧ (montLoop a b m n v).i = v.i + n := by
  induction n generalizing v with
  | zero => exact ⟨h, rfl⟩
  | succ n ih =>
    have hi : (montIter a b m v).i = v.i + 1 := rfl
    obtain ⟨hok, hend⟩ := ih (montIter_ok h (by omega)) (by omega)
    exact ⟨hok, by rw [montLoop, hend]; omega⟩

/-- The whole loop returns the Montgomery product (R99). -/
theorem montmul_eq_montLoop (hm : m % 2 = 1) (ha : a < m) (hb : b < m) :
    montmul a b m = .ok (montFinish m (montLoop a b m (montk m) { i := 0, acc := 0 })) := by
  obtain ⟨hok, hend⟩ := montLoop_ok (montStart_ok hm ha hb) (n := montk m) (by simp)
  exact montmul_eq_montFinish hok (by simpa using hend)

end

/-- Settles O32: the checks are the branches of `montmul`, its value is the one residue of `montmul_eq_ok_iff`, and the loop returns it
(R95, R99). -/
theorem montmulFunction : Obligations.MontmulFunction := by
  intro a b m
  refine ⟨fun hz => hz ▸ montmul_zero, montmul_of_even, montmul_of_out_of_range, fun hm ha hb => ?_⟩
  have hloop := montmul_eq_montLoop hm ha hb
  obtain ⟨hlt, hmod⟩ := (montmul_eq_ok_iff hm ha hb).mp hloop
  refine ⟨_, hloop, hlt, hmod, fun u hu hu' => ?_, rfl⟩
  exact Res.ok.inj (((montmul_eq_ok_iff hm ha hb).mpr ⟨hu, hu'⟩).symm.trans hloop)

/-! ### `montr2` and the laws of R100 -/

section
variable {a b m : Nat}

theorem montr2_of_odd (hm : m % 2 = 1) : montr2 m = .ok (2 ^ (2 * montk m) % m) := by
  rw [montr2, if_neg (by omega), if_neg (by omega)]

/-- The Montgomery product with `montr2(m)` is the product with the radix: it converts into Montgomery form (R97, R100 law 1). -/
theorem montmul_montr2 (hm : m % 2 = 1) (ha : a < m) : montmul a (2 ^ (2 * montk m) % m) m = .ok (a * 2 ^ montk m % m) := by
  have hpos : 0 < m := by omega
  rw [montmul_eq_ok_iff hm ha (Nat.mod_lt _ hpos)]
  refine ⟨Nat.mod_lt _ hpos, ?_⟩
  calc a * 2 ^ montk m % m * 2 ^ montk m
      ≡ a * 2 ^ montk m * 2 ^ montk m [MOD m] := (Nat.mod_modEq _ m).mul_right _
    _ = a * 2 ^ (2 * montk m) := by rw [mul_assoc, ← pow_add, two_mul]
    _ ≡ a * (2 ^ (2 * montk m) % m) [MOD m] := (Nat.mod_modEq _ m).symm.mul_left _

/-- The Montgomery product of two forms is the form of the product (R100 law 2). -/
theorem montmul_forms (hm : m % 2 = 1) :
    montmul (a * 2 ^ montk m % m) (b * 2 ^ montk m % m) m = .ok (a * b * 2 ^ montk m % m) := by
  have hpos : 0 < m := by omega
  rw [montmul_eq_ok_iff hm (Nat.mod_lt _ hpos) (Nat.mod_lt _ hpos)]
  refine ⟨Nat.mod_lt _ hpos, ?_⟩
  calc a * b * 2 ^ montk m % m * 2 ^ montk m
      ≡ a * b * 2 ^ montk m * 2 ^ montk m [MOD m] := (Nat.mod_modEq _ m).mul_right _
    _ = a * 2 ^ montk m * (b * 2 ^ montk m) := by ring
    _ ≡ a * 2 ^ montk m % m * (b * 2 ^ montk m % m) [MOD m] := ((Nat.mod_modEq _ m).mul (Nat.mod_modEq _ m)).symm

/-- The Montgomery product with 1 takes a form back (R100 law 3). -/
theorem montmul_form_one (hm : m % 2 = 1) (hone : 1 < m) (ha : a < m) : montmul (a * 2 ^ montk m % m) 1 m = .ok a := by
  rw [montmul_eq_ok_iff hm (Nat.mod_lt _ (by omega)) hone, mul_one]
  exact ⟨ha, (Nat.mod_modEq _ m).symm⟩

/-- The exact product through the Montgomery unit (R100 law 4). -/
theorem montmul_montmul_montr2 (hm : m % 2 = 1) (ha : a < m) (hb : b < m) :
    ∃ t, montmul a b m = .ok t ∧ montmul t (2 ^ (2 * montk m) % m) m = modmul a b m := by
  have hval := montmul_of_legal hm ha hb
  obtain ⟨hlt, hmod⟩ := (montmul_eq_ok_iff hm ha hb).mp hval
  refine ⟨_, hval, ?_⟩
  rw [montmul_montr2 hm hlt, modmul, if_neg (by omega)]
  exact congrArg _ hmod

theorem montmul_comm : montmul a b m = montmul b a m := by
  simp only [montmul, or_comm (a := m ≤ a), mul_comm a b]

end

/-- Settles O36: each law is a lemma above, with `r2` the value of `montr2` (R100). -/
theorem montgomeryLaws : Obligations.MontgomeryLaws := by
  intro a b m r2 hm hthree ha hb hr2
  obtain rfl : 2 ^ (2 * montk m) % m = r2 := Res.ok.inj ((montr2_of_odd hm).symm.trans hr2)
  exact ⟨montmul_montr2 hm ha, montmul_forms hm, montmul_form_one hm (by omega) ha, montmul_montmul_montr2 hm ha hb, montmul_comm⟩

end Sys2Proof.Machine
end

section
/-! The commands of unit U1: `MODMUL` and `MONTR2` complete in their first step, `MONTMUL` at the end of its loop (R92, R96, R98, R99). -/

namespace Sys2Proof.Machine

/-- A command that completes in this step draws nothing and leaves what R29 says. -/
theorem completed_complete_here {s : State} {rd : Reg} {v : Nat} (h : v < 2 ^ s.params.width) : Completed s (s.complete rd v) rd v :=
  completed_complete s.rngpos h

section
variable {s : State} {r : Running} {rd ra rb rc : Reg}

/-! ### `MODMUL` -/

theorem exec_modmul_of_eq_zero (hr : s.eng = .run r) (hc : r.c = 0) :
    exec (.modmul rd ra rb rc) s = .next (faulted s .zeroModulus) :=
  (onRunning_eq hr _).trans (congrArg _ (if_pos hc))

theorem modmul_of_ne_zero {a b m : Nat} (hm : m ≠ 0) : modmul a b m = .ok (a * b % m) := if_neg hm

/-! ### `MONTR2` -/

/-- `MONTR2` with an odd modulus completes in its one step (R98). -/
theorem exec_montr2_of_odd (hr : s.eng = .run r) (ha : r.a % 2 = 1) :
    exec (.montr2 rd ra) s = .next (s.complete rd (2 ^ (2 * montk r.a) % r.a)) := by
  have hstep : montr2Step rd r s = s.complete rd (2 ^ (2 * montk r.a) % r.a) := by
    rw [montr2Step, if_neg (by omega), if_neg (by omega)]
  exact (onRunning_eq hr _).trans (congrArg _ hstep)

/-! ### `MONTMUL` -/

variable (hr : s.eng = .run r)
include hr

/-- The entry of `MONTMUL` with legal operands starts the loop (R96, R99). -/
theorem exec_montmul_of_start (hmu : r.mu = .start) (hm : r.c % 2 = 1) (ha : r.a < r.c) (hb : r.b < r.c) :
    exec (.montmul rd ra rb rc) s = .next (s.goOn r (.mont { i := 0, acc := 0 })) := by
  have hstep : montmulStep rd r s = s.goOn r (.mont { i := 0, acc := 0 }) := by
    rw [montmulStep, hmu]
    dsimp only
    rw [montmulEntry, if_neg (by omega), if_neg (by omega), if_neg (by omega)]
  exact (onRunning_eq hr _).trans (congrArg _ hstep)

theorem exec_montmul_of_mont {v : MontVars} (hmu : r.mu = .mont v) :
    exec (.montmul rd ra rb rc) s = .next (montmulLoopStep rd v r s) := by
  have hstep : montmulStep rd r s = montmulLoopStep rd v r s := by rw [montmulStep, hmu]
  exact (onRunning_eq hr _).trans (congrArg _ hstep)

/-- A loop step of `MONTMUL` before the end is one iteration (R99). -/
theorem exec_montmul_of_lt {v : MontVars} (hmu : r.mu = .mont v) (hi : v.i < montk r.c) :
    exec (.montmul rd ra rb rc) s = .next (s.goOn r (.mont (montIter r.a r.b r.c v))) :=
  (exec_montmul_of_mont hr hmu).trans (congrArg _ (if_pos hi))

/-- The loop step of `MONTMUL` at the end completes it (R99). -/
theorem exec_montmul_of_end {v : MontVars} (hmu : r.mu = .mont v) (hi : v.i = montk r.c) :
    exec (.montmul rd ra rb rc) s = .next (s.complete rd (montFinish r.c v)) :=
  (exec_montmul_of_mont hr hmu).trans (congrArg _ (if_neg (by omega)))

/-- The rest of the loop, with a silent host: the iterations that are left, then the completion (R99). -/
theorem run_montmul_of_mont (hi : s.inbox = []) (ht : s.tail = .silent) (hd : decode r.word = .command (.montmul rd ra rb rc))
    {n : Nat} {v : MontVars} (hmu : r.mu = .mont v) (hn : v.i + n = montk r.c) :
    Host.Core.run Sys2Proof.core (n + 1) s = .next (s.complete rd (montFinish r.c (montLoop r.a r.b r.c n v))) := by
  induction n generalizing s r v with
  | zero => rw [run_succ 0 ((step_of_running hi ht hr hd).trans (exec_montmul_of_end hr hmu hn)), run_zero]; rfl
  | succ n ih =>
    have hi' : (montIter r.a r.b r.c v).i = v.i + 1 := rfl
    rw [run_succ _ ((step_of_running hi ht hr hd).trans (exec_montmul_of_lt hr hmu (by omega))),
      ih (s := s.goOn r (.mont (montIter r.a r.b r.c v))) (State.goOn_eng ..) hi ht hd rfl (by dsimp only; omega)]
    rfl

/-- A whole run of `MONTMUL` with legal operands: the entry, the loop, the completion (R96, R99). -/
theorem run_montmul_of_start (hi : s.inbox = []) (ht : s.tail = .silent) (hd : decode r.word = .command (.montmul rd ra rb rc))
    (hmu : r.mu = .start) (hm : r.c % 2 = 1) (ha : r.a < r.c) (hb : r.b < r.c) :
    Host.Core.run Sys2Proof.core (montk r.c + 2) s =
      .next (s.complete rd (montFinish r.c (montLoop r.a r.b r.c (montk r.c) { i := 0, acc := 0 }))) := by
  rw [run_succ _ ((step_of_running hi ht hr hd).trans (exec_montmul_of_start hr hmu hm ha hb)),
    run_montmul_of_mont (s := s.goOn r (.mont { i := 0, acc := 0 })) (State.goOn_eng ..) hi ht hd rfl (Nat.zero_add _)]
  rfl

end

/-- Settles O29: the one step of `MODMUL` is the product reduced, which is below the modulus and so fits the register (R29, R91, R92). -/
theorem modmulCompletes : Obligations.ModmulCompletes := by
  refine ⟨fun a b m => ⟨fun hm => if_pos hm, fun hm => ⟨a * b % m, modmul_of_ne_zero (by omega), Nat.mod_lt _ hm, rfl, ?_⟩⟩,
    fun s r rd ra rb rc h hr => ⟨fun hc => ?_, exec_modmul_of_eq_zero hr⟩⟩
  · rintro rfl
    exact Nat.mod_one _
  · obtain ⟨-, -, -, hcw⟩ := h.latched r hr
    have hlt : r.a * r.b % r.c < r.c := Nat.mod_lt _ (Nat.pos_of_ne_zero hc)
    exact ⟨_, _, exec_modmul_of_ne_zero rd ra rb rc hr hc, modmul_of_ne_zero hc, completed_complete_here (hlt.trans hcw), rfl⟩

/-- Settles O33: the end of the loop is `montmul_eq_montFinish`, and an iteration keeps the loop invariant by `montIter_ok` (R96, R99). -/
theorem montmulCompletes : Obligations.MontmulCompletes := by
  intro s r v rd ra rb rc h hr hmu hok
  refine ⟨fun hi => ?_, fun hi => ⟨_, exec_montmul_of_lt hr hmu hi, rfl, montIter_ok hok hi⟩⟩
  have hval := montmul_eq_montFinish hok hi
  obtain ⟨hm, ha, hb, -⟩ := hok
  obtain ⟨hlt, hmod⟩ := (montmul_eq_ok_iff hm ha hb).mp hval
  obtain ⟨-, -, -, hcw⟩ := h.latched r hr
  exact ⟨_, _, exec_montmul_of_end hr hmu hi, completed_complete_here (hlt.trans hcw), hlt, hmod, rfl⟩

/-- Settles O34: the run is `run_montmul_of_start`, and the loop returns the value of `montmul` (R96, R99). -/
theorem montmulRunEnds : Obligations.MontmulRunEnds := by
  intro s r rd ra rb rc hacc hm ha hb
  obtain ⟨h, hr, hd, hmu, hi, ht⟩ := hacc
  have hval := montmul_eq_montLoop hm ha hb
  obtain ⟨hlt, -⟩ := (montmul_eq_ok_iff hm ha hb).mp hval
  obtain ⟨-, -, -, hcw⟩ := h.latched r hr
  exact ⟨_, _, run_montmul_of_start hr hi ht hd hmu hm ha hb, hval, completed_complete_here (hlt.trans hcw), rfl⟩

/-- Settles O35: the errors are the branches of `montr2`, the conversion is `montmul_montr2`, and the value is below the modulus and so fits
the register (R97, R98). -/
theorem montrTwoCompletes : Obligations.MontrTwoCompletes := by
  refine ⟨fun m => ⟨fun hz => if_pos hz, fun hz hm => (if_neg hz).trans (if_pos hm), fun hm => ⟨montr2_of_odd hm, fun a =>
    montmul_montr2 hm⟩⟩, fun s r rd ra h hr hm => ?_⟩
  obtain ⟨-, haw, -, -⟩ := h.latched r hr
  have hlt : 2 ^ (2 * montk r.a) % r.a < r.a := Nat.mod_lt _ (by omega)
  have hdone : Completed s (s.complete rd (2 ^ (2 * montk r.a) % r.a)) rd (2 ^ (2 * montk r.a) % r.a) :=
    completed_complete_here (hlt.trans haw)
  exact ⟨_, exec_montr2_of_odd hr hm, hdone, rfl, fun hone => by rw [hdone.written, hone, Nat.mod_one]⟩

end Sys2Proof.Machine
end

section
/-! The machines of units U4 and U5 keep their invariants: the Miller-Rabin machine state by state (R138 to R141, R145), with the theorem
that its `false` verdicts are right (R147), and the forced bits of the generator's candidate (R156). -/

namespace Sys2Proof.Machine

/-! ### Trial division -/

theorem two_le_of_mem_smallPrimes {p : Nat} (h : p ∈ smallPrimes) : 2 ≤ p :=
  (by decide : ∀ p ∈ smallPrimes, 2 ≤ p) p h

theorem smallPrimes_getD {i : Nat} (h : i < smallPrimes.length) : smallPrimes.getD i 0 = smallPrimes[i] := List.getD_eq_getElem _ _ h

/-- A number with a proper divisor in the table is not prime (R137). -/
theorem not_prime_of_mem_smallPrimes {n p : Nat} (hp : p ∈ smallPrimes) (hne : n ≠ p) (hdvd : n % p = 0) : ¬n.Prime := by
  intro hn
  have htwo := two_le_of_mem_smallPrimes hp
  obtain h | h := hn.eq_one_or_self_of_dvd p (Nat.dvd_of_mod_eq_zero hdvd)
  · omega
  · exact hne h.symm

theorem survivesTable.odd {n : Nat} (h : survivesTable n) : n % 2 = 1 := by
  have := h.2 2 (by decide)
  omega

section
variable {n rounds : Nat}

theorem mrTrial_ok {i : Nat} (h : mrOk n rounds (.trial i)) : mrOk n rounds (mrTrial n i) := by
  obtain ⟨htwo, hi, hbefore⟩ := h
  have hlen : i < smallPrimes.length := Nat.lt_succ_of_le hi
  have hmem : smallPrimes.getD i 0 ∈ smallPrimes := by rw [smallPrimes_getD hlen]; exact List.getElem_mem hlen
  unfold mrTrial
  split_ifs with heq hdvd hlast
  · exact .inl (heq ▸ hmem)
  · exact not_prime_of_mem_smallPrimes hmem heq hdvd
  all_goals
    have hupto : ∀ p ∈ smallPrimes.take (i + 1), n % p ≠ 0 := by
      rw [List.take_succ_eq_append_getElem hlen, ← smallPrimes_getD hlen]
      simpa [or_imp, forall_and] using ⟨hbefore, hdvd⟩
  · obtain rfl : i = 14 := by omega
    exact ⟨⟨htwo, hupto⟩, by simp⟩
  · exact ⟨htwo, by omega, hupto⟩

/-! ### The decomposition -/

/-- The exponent of 2 in `n - 1` is not 0 once `d` is odd (R139). -/
theorem splitOk.one_le {d s : Nat} (h : splitOk n d s) (hd : d % 2 = 1) : 1 ≤ s := by
  obtain ⟨hsurv, hsplit⟩ := h
  have hn := hsurv.odd
  by_contra hs
  obtain rfl : s = 0 := by omega
  omega

theorem splitOk.halve {d s : Nat} (h : splitOk n d s) (hd : d % 2 = 0) : splitOk n (d / 2) (s + 1) := by
  refine ⟨h.1, ?_⟩
  rw [pow_succ', ← mul_assoc, Nat.div_mul_cancel (Nat.dvd_of_mod_eq_zero hd)]
  exact h.2

/-! ### The rounds -/

theorem mrDrawn_ok {d s r : Nat} (t : Nat) (h : mrOk n rounds (.draw d s r)) : mrOk n rounds (mrDrawn n d s r t) := by
  unfold mrDrawn
  split
  next hacc =>
    obtain ⟨hsplit, hodd, hr, hr'⟩ := h
    exact ⟨hsplit, hodd, hr, hr', by omega, by omega⟩
  next => exact h

theorem mrPowered_ok {d s r a : Nat} (h : mrOk n rounds (.exp d s r a)) : mrOk n rounds (mrPowered n d s r a (powMod a d n)) := by
  obtain ⟨hsplit, hodd, hr, hr', ha, ha'⟩ := h
  rw [powMod_eq a d (by omega)]
  unfold mrPowered
  split
  next => exact ⟨hsplit, hodd, by omega, by omega⟩
  next hfail =>
    obtain ⟨hone, hlast⟩ := not_or.mp hfail
    refine ⟨hsplit, hodd, hr, hr', ha, ha', le_rfl, hsplit.one_le hodd, by simp, hone, fun k hk => ?_⟩
    obtain rfl : k = 0 := by omega
    simpa using hlast

/-- Squaring doubles the exponent (R141). -/
theorem pow_mul_two_pow_succ_mod (a d j n : Nat) :
    a ^ (d * 2 ^ j) % n * (a ^ (d * 2 ^ j) % n) % n = a ^ (d * 2 ^ (j + 1)) % n := by
  rw [← Nat.mul_mod, ← pow_add, ← mul_two, mul_assoc, ← pow_succ]

/-- Modulo a prime, 1 has no square roots but 1 and -1. -/
theorem sqrt_one_of_prime {p y : Nat} (hp : p.Prime) (hy : y < p) (h : y * y % p = 1) : y = 1 ∨ y = p - 1 := by
  cases y with
  | zero => simp at h
  | succ z =>
    have hfactor : (z + 1) * (z + 1) = (z + 2) * z + 1 := by ring
    have hdvd : p ∣ (z + 2) * z := by
      rw [hfactor] at h
      exact Nat.dvd_of_mod_eq_zero (Nat.sub_mod_eq_zero_of_mod_eq (h.trans (Nat.mod_eq_of_lt hp.one_lt).symm))
    obtain hz | hz := hp.dvd_mul.mp hdvd
    · have := Nat.le_of_dvd (by omega) hz
      omega
    · have := Nat.eq_zero_of_dvd_of_lt hz (by omega)
      omega

/-- A witness that fails R141 proves its number composite (R147): were `n` prime, `a^(n-1)` would be 1 modulo `n` and no squaring on the way
to it could reach 1 without having met `n - 1` before. -/
theorem not_prime_of_witness {d s a : Nat} (hsplit : d * 2 ^ s = n - 1) (ha : 2 ≤ a) (ha' : a ≤ n - 2) (hone : a ^ d % n ≠ 1)
    (hlast : ∀ k < s, a ^ (d * 2 ^ k) % n ≠ n - 1) : ¬n.Prime := by
  intro hp
  have hne : ∀ k ≤ s, a ^ (d * 2 ^ k) % n ≠ 1 := by
    intro k
    induction k with
    | zero => simpa using hone
    | succ k ih =>
      intro hk hsq
      rw [← pow_mul_two_pow_succ_mod] at hsq
      obtain h | h := sqrt_one_of_prime hp (Nat.mod_lt _ hp.pos) hsq
      · exact ih (by omega) h
      · exact hlast k (by omega) h
  have hcop : a.Coprime n := (Nat.coprime_of_lt_prime (by omega) (by omega) hp).symm
  have hfermat := Nat.ModEq.pow_totient hcop
  rw [Nat.totient_prime hp, ← hsplit, Nat.ModEq, Nat.mod_eq_of_lt hp.one_lt] at hfermat
  exact hne s le_rfl hfermat

theorem mrSquare_ok {d s r a x j : Nat} (h : mrOk n rounds (.sqr d s r a x j)) : mrOk n rounds (mrSquare n d s r a x j) := by
  obtain ⟨hsplit, hodd, hr, hr', ha, ha', hj, hj', rfl, hone, hlast⟩ := h
  have hsq := pow_mul_two_pow_succ_mod a d (j - 1) n
  rw [Nat.sub_add_cancel hj] at hsq
  unfold mrSquare
  split_ifs with hend hreach
  · obtain rfl : j = s := by omega
    exact not_prime_of_witness hsplit.2 ha ha' hone hlast
  · exact ⟨hsplit, hodd, by omega, by omega⟩
  · refine ⟨hsplit, hodd, hr, hr', ha, ha', by omega, by omega, hsq, hone, fun k hk => ?_⟩
    obtain hk | rfl : k < j ∨ k = j := by omega
    · exact hlast k hk
    · rwa [← hsq]

/-- Every transition of the Miller-Rabin machine keeps its invariant (R145). -/
theorem mrStep_ok (cw : Nat) (xi : Nat → Nat) (c : Nat) {m : MrState} (h : mrOk n rounds m) :
    mrOk n rounds (mrStep cw xi n rounds m c).1 := by
  cases m with
  | check =>
    dsimp only [mrStep]
    split
    next hlt => exact fun hp => absurd hp.two_le (by omega)
    next hge => exact ⟨by omega, by omega, by simp⟩
  | trial i => exact mrTrial_ok h
  | decomp d s =>
    dsimp only [mrStep]
    split
    next heven => exact h.halve heven
    next hodd => exact ⟨h, by omega, le_rfl, by omega⟩
  | round d s r =>
    obtain ⟨hsplit, hodd, hr, -⟩ := h
    dsimp only [mrStep]
    split
    next => exact .inr hsplit.1
    next hle => exact ⟨hsplit, hodd, hr, by omega⟩
  | draw d s r => exact mrDrawn_ok _ h
  | exp d s r a => exact mrPowered_ok h
  | sqr d s r a x j => exact mrSquare_ok h
  | ret v => exact h

end

/-! ### The candidate -/

theorem forceCandidate_ok {bits t : Nat} (hbits : 1 ≤ bits) (ht : t < 2 ^ bits) : candidateOk bits (forceCandidate bits t) := by
  have htop : 2 ^ (bits - 1) < 2 ^ bits := Nat.pow_lt_pow_right (by decide) (by omega)
  have hbottom : 1 < 2 ^ bits := Nat.one_lt_two_pow (by omega)
  exact ⟨Nat.or_lt_two_pow (Nat.or_lt_two_pow ht htop) hbottom, Nat.right_le_or.trans Nat.left_le_or,
    Nat.or_mod_two_eq_one.mpr (.inr rfl)⟩

/-- A drawn candidate is odd and has exactly `bits` bits (R156). -/
theorem drawCandidate_ok (cw : Nat) (xi : Nat → Nat) (c : Nat) {bits : Nat} (hbits : 1 ≤ bits) :
    candidateOk bits (drawCandidate cw xi bits c).1 := forceCandidate_ok hbits (randomBits_lt cw xi bits c)

end Sys2Proof.Machine
end

section
/-! The loop invariants of the running unit (R99, R113, R138 to R141, R147, R156): each unit's step keeps its own, the host cannot touch
them, and a command starts within them, so every step keeps them. -/

namespace Sys2Proof.Machine

/-! ### The invariant of each command with loop variables -/

section
variable {p : Params} {r : Running} {rd ra rb rc : Reg}

theorem unitOk_of_startMu {i : Instr} (h : r.mu = startMu i) : unitOk p i r := by
  unfold unitOk
  rw [h]
  cases i with
  | mrtest rd ra rb => exact ⟨.inl rfl, trivial⟩
  | _ => trivial

theorem unitOk_montmul_iff : unitOk p (.montmul rd ra rb rc) r ↔ r.mu = .start ∨ ∃ v, r.mu = .mont v ∧ montOk r.a r.b r.c v := by
  unfold unitOk
  cases r.mu <;> simp

theorem unitOk_modexp_iff : unitOk p (.modexp rd ra rb rc) r ↔ r.mu = .start ∨ ∃ v, r.mu = .exp v ∧ expOk r.a r.b r.c v := by
  unfold unitOk
  cases r.mu <;> simp

theorem unitOk_mrtest_iff :
    unitOk p (.mrtest rd ra rb) r ↔ ∃ m, r.mu = .mr m ∧ (m = .check ∨ r.b ≠ 0) ∧ mrOk r.a r.b m := by
  unfold unitOk
  cases r.mu <;> simp

theorem unitOk_genprime_iff : unitOk p (.genprime rd ra rb) r ↔ ∃ g, r.mu = .pg g ∧ pgOk p r.a r.b g := by
  unfold unitOk
  cases r.mu <;> simp

end

/-! ### Which states meet the invariant -/

section
variable {s t : State} {r : Running}

theorem State.EngineInv.of_idle (h : s.eng = .idle) : s.EngineInv := fun _ hr => nomatch h.symm.trans hr

theorem State.EngineInv.of_run {i : Instr} (hr : s.eng = .run r) (hd : decode r.word = .command i) (hu : unitOk s.params i r) :
    s.EngineInv := fun _ hr' => Engine.run.inj (hr.symm.trans hr') ▸ ⟨i, hd, hu⟩

/-- The invariant speaks of the engine and the parameters only. -/
theorem State.EngineInv.congr (h : s.EngineInv) (he : t.eng = s.eng) (hp : t.params = s.params) : t.EngineInv :=
  fun r hr => hp ▸ h r (he ▸ hr)

/-- A command that goes on meets the invariant if its new loop variables do. -/
theorem State.EngineInv.goOn {i : Instr} {mu : Mu} (hd : decode r.word = .command i) (hu : unitOk s.params i { r with mu := mu }) :
    (s.goOn r mu).EngineInv := .of_run (State.goOn_eng r mu s) hd hu

/-- An accepted command starts within its invariant (R33). -/
theorem State.EngineInv.accept {w : CmdWord} {i : Instr} (hd : decode w = .command i) : (s.accept w i).EngineInv :=
  .of_run (State.accept_eng w i s) hd (unitOk_of_startMu rfl)

/-! ### The steps of the commands -/

section
variable {rd ra rb rc : Reg}

theorem modmulStep_engineInv : (modmulStep rd r s).EngineInv := by
  unfold modmulStep
  split
  · exact .of_idle rfl
  · exact .of_idle rfl

theorem montr2Step_engineInv : (montr2Step rd r s).EngineInv := by
  unfold montr2Step
  split_ifs
  · exact .of_idle rfl
  · exact .of_idle rfl
  · exact .of_idle rfl

theorem randbitsStep_engineInv : (randbitsStep rd r s).EngineInv := by
  unfold randbitsStep
  split
  · exact .of_idle rfl
  · exact .of_idle rfl

/-- A rejected draw leaves the engine as it is (R126). -/
theorem randbtwStep_engineInv (h : s.EngineInv) : (randbtwStep rd r s).EngineInv := by
  unfold randbtwStep randbtwDraw
  split_ifs
  · exact .of_idle rfl
  · exact .of_idle rfl
  · exact h.congr rfl rfl

theorem montmulStep_engineInv (hd : decode r.word = .command (.montmul rd ra rb rc)) (hu : unitOk s.params (.montmul rd ra rb rc) r) :
    (montmulStep rd r s).EngineInv := by
  obtain hmu | ⟨v, hmu, hok⟩ := unitOk_montmul_iff.mp hu
  · simp only [montmulStep, hmu, montmulEntry]
    split_ifs with hz heven hrange
    · exact .of_idle rfl
    · exact .of_idle rfl
    · exact .of_idle rfl
    · have hstart : montOk r.a r.b r.c { i := 0, acc := 0 } := montStart_ok (by omega) (by omega) (by omega)
      exact .goOn hd hstart
  · simp only [montmulStep, hmu, montmulLoopStep]
    split
    next hi => exact .goOn hd (montIter_ok hok hi)
    next => exact .of_idle rfl

theorem modexpStep_engineInv (hd : decode r.word = .command (.modexp rd ra rb rc)) (hu : unitOk s.params (.modexp rd ra rb rc) r) :
    (modexpStep rd r s).EngineInv := by
  obtain hmu | ⟨v, hmu, hok⟩ := unitOk_modexp_iff.mp hu
  · simp only [modexpStep, hmu, modexpEntry]
    split_ifs with hz hexp hone
    · exact .of_idle rfl
    · exact .of_idle rfl
    · exact .of_idle rfl
    · have hstart : expOk r.a r.b r.c (expStart r.a r.b r.c) := expStart_ok (by omega)
      exact .goOn hd hstart
  · simp only [modexpStep, hmu, modexpLoopStep]
    split
    next => exact .of_idle rfl
    next => exact .goOn hd (expIter_ok hok)

/-- A transition of the Miller-Rabin machine within `MRTEST`. -/
theorem mrtestGoOn_engineInv (hd : decode r.word = .command (.mrtest rd ra rb)) (hb : r.b ≠ 0) {m : MrState} (hm : mrOk r.a r.b m) :
    (mrtestGoOn r s (mrStep s.params.chunkBits s.xi r.a r.b m s.rngpos)).EngineInv :=
  .goOn (s := s.setCursor _) hd ⟨.inr hb, mrStep_ok _ _ _ hm⟩

theorem mrtestStep_engineInv (hd : decode r.word = .command (.mrtest rd ra rb)) (hu : unitOk s.params (.mrtest rd ra rb) r) :
    (mrtestStep rd r s).EngineInv := by
  obtain ⟨m, hmu, hb, hm⟩ := unitOk_mrtest_iff.mp hu
  have hof : mrOf r.mu = m := by rw [hmu]; rfl
  unfold mrtestStep
  split
  next hcheck =>
    unfold mrtestCheck
    split
    next => exact .of_idle rfl
    next hb => exact mrtestGoOn_engineInv hd hb (m := .check) trivial
  next => exact .of_idle rfl
  next hcheck _ =>
    rw [hof] at hcheck ⊢
    exact mrtestGoOn_engineInv hd (hb.resolve_left hcheck) hm

theorem genprimeTest_engineInv (hd : decode r.word = .command (.genprime rd ra rb)) {c : Nat} {m : MrState}
    (hu : pgOk s.params r.a r.b (.test c m)) :
    (genprimeTest r s c m (mrStep s.params.chunkBits s.xi c r.b m s.rngpos)).EngineInv := by
  obtain ⟨hbits, hwidth, hrounds, hc, hm⟩ := hu
  unfold genprimeTest
  split
  next => exact .goOn hd ⟨hbits, hwidth, hrounds, hc, hm⟩
  next => exact .goOn hd ⟨hbits, hwidth, hrounds⟩
  next => exact .goOn (s := s.setCursor _) hd ⟨hbits, hwidth, hrounds, hc, mrStep_ok _ _ _ hm⟩

theorem genprimeStep_engineInv (hd : decode r.word = .command (.genprime rd ra rb)) (hu : unitOk s.params (.genprime rd ra rb) r) :
    (genprimeStep rd r s).EngineInv := by
  obtain ⟨g, hmu, hg⟩ := unitOk_genprime_iff.mp hu
  have hof : pgOf r.mu = g := by rw [hmu]; rfl
  rw [genprimeStep, hof]
  cases g with
  | check =>
    dsimp only [genprimeCheck]
    split_ifs with hsmall hwide hrounds
    · exact .of_idle rfl
    · exact .of_idle rfl
    · exact .of_idle rfl
    · have hhead : pgOk s.params r.a r.b .head := ⟨by omega, by omega, hrounds⟩
      exact .goOn hd hhead
  | head =>
    dsimp only [genprimeHead]
    split
    next => exact .of_idle rfl
    next => exact .goOn hd hg
  | draw =>
    obtain ⟨hbits, hwidth, hrounds⟩ := hg
    have hc := drawCandidate_ok s.params.chunkBits s.xi s.rngpos (bits := r.a) (by omega)
    exact .goOn (s := s.setCursor _) hd ⟨hbits, hwidth, hrounds, hc, trivial⟩
  | test c m => exact genprimeTest_engineInv hd hg
  | ret c => exact .of_idle rfl

end

/-! ### The step -/

/-- One engine step keeps the invariant of the command it runs. -/
theorem State.EngineInv.exec {i : Instr} (h : s.EngineInv) (hr : s.eng = .run r) (hd : decode r.word = .command i)
    (ht : exec i s = .next t) : t.EngineInv := by
  obtain ⟨i', hd', hu⟩ := h r hr
  obtain rfl : i' = i := Decoded.command.inj (hd'.symm.trans hd)
  cases i' <;> cases (onRunning_eq hr _).symm.trans ht
  · exact modmulStep_engineInv
  · exact montmulStep_engineInv hd hu
  · exact modexpStep_engineInv hd hu
  · exact montr2Step_engineInv
  · exact randbitsStep_engineInv
  · exact randbtwStep_engineInv h
  · exact mrtestStep_engineInv hd hu
  · exact genprimeStep_engineInv hd hu

theorem State.EngineInv.engineStep (h : s.EngineInv) (ht : engineStep s = .next t) : t.EngineInv := by
  obtain ⟨-, rfl⟩ | ⟨r, i, hr, hd, hx⟩ | ⟨r, why, -, -, rfl⟩ := engineStep_cases ht
  · exact h
  · exact h.exec hr hd hx
  · exact .of_idle rfl

theorem State.EngineInv.popInbox (h : s.EngineInv) (rest : List HostEvent) : (s.popInbox rest).EngineInv := h.congr rfl rfl

theorem State.EngineInv.respond (h : s.EngineInv) (v : Limb) : (s.respond v).EngineInv := h.congr rfl rfl

theorem State.EngineInv.issue (h : s.EngineInv) (w : CmdWord) : (s.issue w).EngineInv := by
  unfold State.issue
  split
  · exact h.congr rfl rfl
  · split
    next hd => exact .accept hd
    next => exact .of_idle rfl

/-- A write reaches the engine through `CMD` only (R33, R34). -/
theorem State.EngineInv.writeRegion (h : s.EngineInv) (region : Region) (v : Limb) : (writeRegion s region v).EngineInv := by
  cases region with
  | cmd => exact h.issue v
  | status => exact h.congr rfl rfl
  | cause => exact h
  | ctrl => exact h.congr (State.writeCtrl_eng s v) (State.writeCtrl_params s v)
  | reserved => exact h
  | window i j =>
    rw [Machine.writeRegion, writeWindow]
    split
    · exact h.congr rfl rfl
    · exact h.congr rfl rfl

theorem State.EngineInv.turnStep (h : s.EngineInv) (ht : turnStep s = .next t) : t.EngineInv := by
  obtain ⟨-, hx⟩ | ⟨_, _, rest, _, -, -, rfl⟩ | ⟨_, _, v, rest, region, -, -, rfl⟩ | ⟨rest, -, rfl⟩ | ⟨rest, -, hx⟩ |
    ⟨rest, -, -, hx⟩ | ⟨rest, -, -, rfl⟩ := turnStep_cases ht
  · exact h.engineStep hx
  · exact (h.popInbox rest).respond _
  · exact (h.popInbox rest).writeRegion region v
  · exact .of_idle rfl
  · exact (h.popInbox rest).engineStep hx
  · exact h.engineStep hx
  · exact (h.popInbox rest).respond _

end

/-- Settles O24: the engine's own step keeps the invariant of its unit, the host's accesses leave the loop variables alone, and acceptance
establishes the invariant (R33, R99, R113, R138 to R141, R147, R156). -/
theorem stepKeepsEngineInvariant : Obligations.StepKeepsEngineInvariant :=
  fun s _ h ht => (h.congr s.refill_eng s.refill_params).turnStep ht

end Sys2Proof.Machine
end

section
/-! The function layer of unit U2 settled: `modexp` over the integers (R111, R112), its laws, and the loop on Montgomery forms (R116). -/

namespace Sys2Proof.Machine

/-! ### The function over the integers -/

section
variable {z : Bool} {base exp m : Int}

theorem modexp_of_nonpos (hm : m ≤ 0) : modexp z base exp m = .err .zeroModulus := if_pos hm

theorem modexp_of_neg_exp (hm : 1 ≤ m) (he : exp < 0) : modexp z base exp m = .err .negativeExponent := by
  rw [modexp, if_neg (by omega), if_pos he]

theorem modexp_of_zero_exp (hm : 1 ≤ m) (he : exp = 0) (hz : z = true) : modexp z base exp m = .err .zeroExponent := by
  rw [modexp, if_neg (by omega), if_neg (by omega), if_pos ⟨he, hz⟩]

/-- Past the checks `modexp` is the power reduced, also of a negative base (R111). -/
theorem modexp_of_legal (hm : 1 ≤ m) (he : 0 ≤ exp) (hz : ¬(exp = 0 ∧ z = true)) :
    modexp z base exp m = .ok (base ^ exp.toNat % m).toNat := by
  have hbase : ((base % m).toNat : Int) = base % m := Int.toNat_of_nonneg (Int.emod_nonneg _ (by omega))
  have hpow : (((base % m).toNat ^ exp.toNat % m.toNat : Nat) : Int) = base ^ exp.toNat % m := by
    rw [Int.natCast_mod, Int.natCast_pow, hbase, Int.toNat_of_nonneg (by omega)]
    exact (Int.mod_modEq base m).pow _
  rw [modexp, if_neg (by omega), if_neg (by omega), if_neg hz, powMod_eq _ _ (by omega), ← hpow, Int.toNat_natCast]

/-- Reducing the base first changes nothing, not even an error (R116 law 4). -/
theorem modexp_mod_base : modexp z (base % m) exp m = modexp z base exp m := by
  rw [modexp, modexp, Int.emod_emod]

end

/-- Settles O37: the errors are the branches of `modexp`, its value is `modexp_of_legal`, and the loop is `powMod_eq` (R111 to R113). -/
theorem modexpFunction : Obligations.ModexpFunction := by
  refine ⟨fun z base exp m => ⟨modexp_of_nonpos, modexp_of_neg_exp, modexp_of_zero_exp, fun hm he hz => ?_⟩,
    fun base exp m => powMod_eq base exp⟩
  have hval : ((base ^ exp.toNat % m).toNat : Int) = base ^ exp.toNat % m :=
    Int.toNat_of_nonneg (Int.emod_nonneg _ (by omega))
  refine ⟨_, modexp_of_legal hm he hz, ?_, hval, ?_⟩
  · rw [hval]
    exact Int.emod_lt_of_pos _ (by omega)
  · rintro rfl
    rw [Int.emod_one, Int.toNat_zero]

/-! ### The laws of R116 on naturals -/

section
variable {z : Bool} {base e f m : Nat}

/-- `modexp` of operands a register can hold (R111). -/
theorem modexp_natCast (hm : 1 ≤ m) (he : ¬(e = 0 ∧ z = true)) : modexp z base e m = .ok (base ^ e % m) := by
  rw [modexp_of_legal (by omega) (by omega) (by simpa using he), Int.toNat_natCast, ← Int.natCast_pow, ← Int.natCast_mod,
    Int.toNat_natCast]

/-- The power of a sum is the modular product of the powers (R116 law 2). -/
theorem modexp_add (hm : 1 ≤ m) (he : ¬(e = 0 ∧ z = true)) :
    modexp z base (e + f) m = modmul (base ^ e % m) (base ^ f % m) m := by
  have hef : ¬(e + f = 0 ∧ z = true) := fun h => he ⟨by omega, h.2⟩
  rw [← Int.natCast_add, modexp_natCast hm hef, modmul_of_ne_zero (by omega), pow_add, Nat.mul_mod]

/-- The power of a doubled exponent is the modular square of the power (R116 law 3). -/
theorem modexp_two_mul (hm : 1 ≤ m) (he : ¬(e = 0 ∧ z = true)) :
    modexp z base (2 * e) m = modmul (base ^ e % m) (base ^ e % m) m := by
  rw [two_mul, modexp_add hm he]

end

/-! ### The loop on Montgomery forms -/

section
variable {base e m : Nat}

/-- The Montgomery form of a residue (R100 law 1). -/
def montForm (m a : Nat) : Nat := a * 2 ^ montk m % m

/-- The Montgomery product of two forms is the form of the reduced product (R100 law 2). -/
theorem montmul_montForm (hm : m % 2 = 1) (a b : Nat) :
    montmul (montForm m a) (montForm m b) m = .ok (montForm m (a * b % m)) :=
  (montmul_forms hm).trans (congrArg _ ((Nat.mod_modEq (a * b) m).mul_right _).symm)

/-- The loop on forms starts from the forms of the start of R113's loop (R116 law 5). -/
theorem montExpStart_of_odd (hm : m % 2 = 1) (hone : 1 < m) :
    montExpStart base e m = .ok ((expStart base e m).mapForm (montForm m)) := by
  rw [montExpStart, montr2_of_odd hm, Res.bind_ok, montmul_montr2 hm hone, Res.bind_ok,
    montmul_montr2 hm (Nat.mod_lt base (by omega)), Res.bind_ok]
  rfl

/-- The loop on Montgomery forms computes the power (R116 law 5). -/
theorem montModexp_of_odd (hm : m % 2 = 1) (hone : 1 < m) : montModexp base e m = .ok (base ^ e % m) := by
  have hstart : expOk base e m (expStart base e m) := expStart_ok hone
  obtain ⟨-, hlt, -, -⟩ := expLoop_ok (bitlen e) hstart
  obtain ⟨-, hres, hbase, -⟩ := hstart
  have hloop := montExpLoop_form (fun a b _ _ => montmul_montForm hm a b) (bitlen e) _ hres hbase
  have hpow : (expLoop m (bitlen e) (expStart base e m)).result = base ^ e % m := by
    rw [← powMod_eq base e hone.le, powMod, if_neg (by omega)]
  rw [montModexp, montExpStart_of_odd hm hone, Res.bind_ok, hloop, Res.bind_ok, ← hpow]
  exact montmul_form_one hm hone hlt

theorem montr2_of_even (hz : m ≠ 0) (hm : m % 2 = 0) : montr2 m = .err .evenModulus := by rw [montr2, if_neg hz, if_pos hm]

/-- For an even modulus there are no forms (R101). -/
theorem montModexp_of_even (hz : m ≠ 0) (hm : m % 2 = 0) : montModexp base e m = .err .evenModulus := by
  rw [montModexp, montExpStart, montr2_of_even hz hm, Res.bind_err, Res.bind_err]

end

/-- Settles O40: each law is a lemma above, on the value `base ^ e % m` of `modexp_natCast` (R116). -/
theorem modexpLaws : Obligations.ModexpLaws := by
  intro z base e f m htwo
  have hm : 1 ≤ m := by omega
  refine ⟨?_, ?_, fun he hf => ⟨_, _, modexp_natCast hm he, modexp_natCast hm hf, modexp_add hm he⟩,
    fun he => ⟨_, modexp_natCast hm he, modexp_two_mul hm he⟩, modexp_mod_base.symm, fun hodd he => ?_,
    montModexp_of_even (by omega)⟩
  · have hzero := modexp_natCast (z := false) (base := base) (e := 0) hm (by simp)
    rwa [pow_zero, Nat.mod_eq_of_lt htwo] at hzero
  · have hone := modexp_natCast (z := z) (base := base) (e := 1) hm (by simp)
    rwa [pow_one] at hone
  · rw [montModexp_of_odd hodd htwo, modexp_natCast hm he]

end Sys2Proof.Machine
end

section
/-! The command of unit U2: the entry of `MODEXP`, its loop steps and its whole run (R114, R115). -/

namespace Sys2Proof.Machine

/-- Once the exponent is used up the loop holds the power (R113). -/
theorem expOk.result_eq {a e m : Nat} {v : ExpVars} (h : expOk a e m v) (hv : v.exp = 0) : v.result = a ^ e % m := by
  obtain ⟨-, hlt, -, hmod⟩ := h
  rwa [hv, pow_zero, mul_one, Nat.mod_eq_of_lt hlt] at hmod

section
variable {s : State} {r : Running} {rd ra rb rc : Reg}
variable (hr : s.eng = .run r)
include hr

theorem exec_modexp_of_start (hmu : r.mu = .start) : exec (.modexp rd ra rb rc) s = .next (modexpEntry rd r s) := by
  have hstep : modexpStep rd r s = modexpEntry rd r s := by rw [modexpStep, hmu]
  exact (onRunning_eq hr _).trans (congrArg _ hstep)

/-- The entry of `MODEXP` with modulus 1 completes with 0 (R113). -/
theorem exec_modexp_of_start_one (hmu : r.mu = .start) (hc : r.c = 1) (hz : ¬(r.b = 0 ∧ s.params.zeroExpFaults = true)) :
    exec (.modexp rd ra rb rc) s = .next (s.complete rd 0) := by
  rw [exec_modexp_of_start hr hmu, modexpEntry, if_neg (by omega), if_neg hz, if_pos hc]

/-- The entry of `MODEXP` with any greater modulus starts the loop (R113, R115). -/
theorem exec_modexp_of_start_two_le (hmu : r.mu = .start) (hc : 2 ≤ r.c) (hz : ¬(r.b = 0 ∧ s.params.zeroExpFaults = true)) :
    exec (.modexp rd ra rb rc) s = .next (s.goOn r (.exp (expStart r.a r.b r.c))) := by
  rw [exec_modexp_of_start hr hmu, modexpEntry, if_neg (by omega), if_neg hz, if_neg (by omega)]

variable {v : ExpVars} (hmu : r.mu = .exp v)
include hmu

theorem exec_modexp_of_exp : exec (.modexp rd ra rb rc) s = .next (modexpLoopStep rd v r s) := by
  have hstep : modexpStep rd r s = modexpLoopStep rd v r s := by rw [modexpStep, hmu]
  exact (onRunning_eq hr _).trans (congrArg _ hstep)

/-- The loop step of `MODEXP` that sees exponent 0 completes it (R115). -/
theorem exec_modexp_of_end (hv : v.exp = 0) : exec (.modexp rd ra rb rc) s = .next (s.complete rd v.result) :=
  (exec_modexp_of_exp hr hmu).trans (congrArg _ (if_pos hv))

/-- Every other loop step of `MODEXP` is one iteration (R115). -/
theorem exec_modexp_of_exp_ne_zero (hv : v.exp ≠ 0) :
    exec (.modexp rd ra rb rc) s = .next (s.goOn r (.exp (expIter r.c v))) :=
  (exec_modexp_of_exp hr hmu).trans (congrArg _ (if_neg hv))

end

/-- Settles O38: the exponent 0 ends the loop with the power, an iteration keeps the loop invariant by `expIter_ok`, and each value is below
the modulus and so fits the register (R29, R114, R115). -/
theorem modexpCompletes : Obligations.ModexpCompletes := by
  intro s r rd ra rb rc h hr
  refine ⟨fun v hmu hok hv => ?_, fun v hmu hok hv => ⟨_, exec_modexp_of_exp_ne_zero hr hmu hv, rfl, expIter_ok hok⟩,
    fun hmu hc hz => ⟨_, exec_modexp_of_start_one hr hmu hc hz, completed_complete_here (Nat.two_pow_pos _), rfl⟩⟩
  have hval := hok.result_eq hv
  obtain ⟨-, hlt, -, -⟩ := hok
  obtain ⟨-, -, -, hcw⟩ := h.latched r hr
  exact ⟨_, exec_modexp_of_end hr hmu hv, hval ▸ completed_complete_here (hlt.trans hcw), rfl⟩

/-! ### The whole run -/

section
variable {s : State} {r : Running} {rd ra rb rc : Reg}
variable (hr : s.eng = .run r) (hi : s.inbox = []) (ht : s.tail = .silent) (hd : decode r.word = .command (.modexp rd ra rb rc))
include hr hi ht hd

/-- From the loop step that sees exponent 0 on: the completion, then the idle block stays as it is (R115, R191). -/
theorem run_modexp_of_end (n : Nat) {v : ExpVars} (hmu : r.mu = .exp v) (hok : expOk r.a r.b r.c v) (hv : v.exp = 0) :
    Host.Core.run Sys2Proof.core (n + 1) s = .next (s.complete rd (r.a ^ r.b % r.c)) := by
  rw [run_succ n ((step_of_running hi ht hr hd).trans (exec_modexp_of_end hr hmu hv)), hok.result_eq hv]
  exact run_of_idle (s := s.complete rd (r.a ^ r.b % r.c)) hi ht rfl n

/-- The rest of the loop, with a silent host: an exponent of at most `n` bits is used up in at most `n` iterations (R113, R115). -/
theorem run_modexp_of_exp {n : Nat} {v : ExpVars} (hmu : r.mu = .exp v) (hok : expOk r.a r.b r.c v) (hn : v.exp < 2 ^ n) :
    Host.Core.run Sys2Proof.core (n + 1) s = .next (s.complete rd (r.a ^ r.b % r.c)) := by
  induction n generalizing s r v with
  | zero => exact run_modexp_of_end hr hi ht hd 0 hmu hok (Nat.lt_one_iff.mp hn)
  | succ n ih =>
    by_cases hv : v.exp = 0
    · exact run_modexp_of_end hr hi ht hd (n + 1) hmu hok hv
    · have hhalf : (expIter r.c v).exp < 2 ^ n := Nat.div_lt_of_lt_mul (by rwa [pow_succ'] at hn)
      rw [run_succ _ ((step_of_running hi ht hr hd).trans (exec_modexp_of_exp_ne_zero hr hmu hv)),
        ih (s := s.goOn r (.exp (expIter r.c v))) (State.goOn_eng ..) hi ht hd rfl (expIter_ok hok) hhalf]
      rfl

/-- A whole run of `MODEXP` past its checks; with modulus 1 it ends at the entry, and the power is 0 (R111, R114). -/
theorem run_modexp_of_start (hmu : r.mu = .start) (hc : r.c ≠ 0) (hz : ¬(r.b = 0 ∧ s.params.zeroExpFaults = true)) :
    Host.Core.run Sys2Proof.core (bitlen r.b + 2) s = .next (s.complete rd (r.a ^ r.b % r.c)) := by
  obtain hone | htwo : r.c = 1 ∨ 2 ≤ r.c := by omega
  · rw [run_succ _ ((step_of_running hi ht hr hd).trans (exec_modexp_of_start_one hr hmu hone hz)), hone, Nat.mod_one]
    exact run_of_idle (s := s.complete rd 0) hi ht rfl _
  · rw [run_succ _ ((step_of_running hi ht hr hd).trans (exec_modexp_of_start_two_le hr hmu htwo hz)),
      run_modexp_of_exp (s := s.goOn r (.exp (expStart r.a r.b r.c))) (State.goOn_eng ..) hi ht hd rfl (expStart_ok htwo)
        (lt_two_pow_bitlen r.b)]
    rfl

end

/-- Settles O39: the run is `run_modexp_of_start`, and the power reduced fits the register (R111, R114, R201). -/
theorem modexpRunEnds : Obligations.ModexpRunEnds := by
  intro s r rd ra rb rc hacc hc hz
  obtain ⟨h, hr, hd, hmu, hi, ht⟩ := hacc
  have hlt : r.a ^ r.b % r.c < r.c := Nat.mod_lt _ (Nat.pos_of_ne_zero hc)
  obtain ⟨-, -, -, hcw⟩ := h.latched r hr
  exact ⟨_, run_modexp_of_start hr hi ht hd hmu hc hz, completed_complete_here (hlt.trans hcw), rfl⟩

end Sys2Proof.Machine
end

section
/-! The samplers of unit U3 as functions: `random_bits` is a concatenation of chunks (R123), and the rejection loop takes the first accepted
draw (R125, R126), which exists under `RngFair` (R129). -/

namespace Sys2Proof.Machine

/-! ### `random_bits` -/

/-- The loop of R123 shifts what it has to the top and appends the chunks below it, the first one most significant. -/
theorem concatChunks_eq {cw : Nat} {xi : Nat → Nat} (hxi : ∀ i, xi i < 2 ^ cw) (n c v : Nat) :
    concatChunks cw xi n c v =
      v * 2 ^ (cw * n) + ((List.range n).map (fun j => xi (c + j) * 2 ^ (cw * (n - 1 - j)))).sum := by
  induction n generalizing c v with
  | zero => simp [concatChunks]
  | succ n ih =>
    have hterm (j : Nat) : xi (c + 1 + j) * 2 ^ (cw * (n - 1 - j)) = xi (c + (j + 1)) * 2 ^ (cw * (n - (j + 1))) := by
      rw [Nat.add_right_comm, Nat.add_assoc, Nat.sub_right_comm, Nat.sub_sub]
    rw [concatChunks, ← Nat.shiftLeft_add_eq_or_of_lt (hxi c), Nat.shiftLeft_eq, ih, List.sum_range_succ', Nat.mul_succ, pow_add]
    simp only [hterm, Nat.succ_eq_add_one, Nat.add_sub_cancel, Nat.sub_zero, Nat.add_zero]
    ring

/-- `ceilDiv k cw` is the least number of chunks that hold `k` bits (R123). -/
theorem ceilDiv_bounds {cw : Nat} (hcw : 1 ≤ cw) (k : Nat) : k ≤ cw * ceilDiv k cw ∧ cw * ceilDiv k cw < k + cw := by
  have hdiv : cw * ceilDiv k cw + (k + cw - 1) % cw = k + cw - 1 := Nat.div_add_mod _ _
  have hmod : (k + cw - 1) % cw < cw := Nat.mod_lt _ hcw
  omega

theorem ceilDiv_zero {cw : Nat} (hcw : 1 ≤ cw) : ceilDiv 0 cw = 0 := Nat.div_eq_of_lt (by omega)

/-- No bits need no chunk (R123). -/
theorem randomBits_of_zero {cw : Nat} (hcw : 1 ≤ cw) (xi : Nat → Nat) (c : Nat) : randomBits cw xi 0 c = (0, c) := by
  rw [randomBits, ceilDiv_zero hcw, Nat.pow_zero, Nat.mod_one, Nat.add_zero]

/-- Settles O41: the loop's value is `concatChunks_eq` from 0, and the count of chunks is the least that holds `k` bits (R123). -/
theorem randomBitsConcatenatesChunks : Obligations.RandomBitsConcatenatesChunks := by
  intro cw xi k c hcw hxi
  obtain ⟨hle, hlt⟩ := ceilDiv_bounds hcw k
  refine ⟨?_, randomBits_cursor cw xi k c, randomBits_lt cw xi k c, hle, hlt, randomBits_of_zero hcw xi c⟩
  rw [randomBits, concatChunks_eq hxi, Nat.zero_mul, Nat.zero_add]

/-! ### `random_between` -/

/-- The draw width is the least that covers the range (R125). -/
theorem betweenBits_le_iff {low high b : Nat} : betweenBits low high ≤ b ↔ betweenRange low high ≤ 2 ^ b := by
  rw [betweenBits, bitlen_le_iff, betweenRange, Nat.add_sub_cancel, Nat.succ_le_iff]

theorem betweenDraw_cursor (cw : Nat) (xi : Nat → Nat) (low high c : Nat) :
    (betweenDraw cw xi low high c).2 = c + ceilDiv (betweenBits low high) cw := rfl

/-- The value of draw number `j`, counted from 0, of the rejection loop that starts at cursor `c` (R126). -/
def betweenDrawAt (cw : Nat) (xi : Nat → Nat) (low high c j : Nat) : Nat :=
  (betweenDraw cw xi low high (c + j * ceilDiv (betweenBits low high) cw)).1

section
variable {cw : Nat} {xi : Nat → Nat} {low high : Nat}

theorem betweenDrawAt_zero (c : Nat) : betweenDrawAt cw xi low high c 0 = (betweenDraw cw xi low high c).1 := by
  rw [betweenDrawAt, Nat.zero_mul, Nat.add_zero]

/-- The draws after the first one are those from the cursor it leaves. -/
theorem betweenDrawAt_succ (c j : Nat) :
    betweenDrawAt cw xi low high c (j + 1) = betweenDrawAt cw xi low high (betweenDraw cw xi low high c).2 j := by
  rw [betweenDrawAt, betweenDrawAt, betweenDraw_cursor, Nat.succ_mul]
  congr 2
  omega

/-- The loop returns exactly at the first accepted draw, with the cursor after it (R126). -/
theorem betweenLoop_eq_some_iff {fuel c v c' : Nat} :
    betweenLoop cw xi low high fuel c = some (v, c') ↔
      ∃ j, j < fuel ∧ betweenDrawAt cw xi low high c j < betweenRange low high ∧
        (∀ k, k < j → betweenRange low high ≤ betweenDrawAt cw xi low high c k) ∧
        v = low + betweenDrawAt cw xi low high c j ∧ c' = c + (j + 1) * ceilDiv (betweenBits low high) cw := by
  induction fuel generalizing c with
  | zero => simp [betweenLoop]
  | succ fuel ih =>
    rw [betweenLoop, ← betweenDrawAt_zero]
    split
    next hacc =>
      constructor
      · intro h
        obtain ⟨rfl, rfl⟩ := Prod.mk.inj (Option.some.inj h)
        exact ⟨0, Nat.succ_pos _, hacc, by simp, rfl, by rw [betweenDraw_cursor, Nat.zero_add, Nat.one_mul]⟩
      · rintro ⟨j, -, -, hrej, rfl, rfl⟩
        obtain rfl : j = 0 := Nat.eq_zero_of_not_pos fun hj => absurd (hrej 0 hj) (Nat.not_le_of_lt hacc)
        rw [betweenDraw_cursor, Nat.zero_add, Nat.one_mul]
    next hrej =>
      have hcur (j : Nat) : (betweenDraw cw xi low high c).2 + (j + 1) * ceilDiv (betweenBits low high) cw =
          c + (j + 1 + 1) * ceilDiv (betweenBits low high) cw := by
        rw [betweenDraw_cursor, Nat.succ_mul (j + 1)]
        omega
      simp only [ih, hcur, ← betweenDrawAt_succ]
      constructor
      · rintro ⟨j, hj, hacc, hbefore, hv, hc⟩
        refine ⟨j + 1, by omega, hacc, fun k hk => ?_, hv, hc⟩
        cases k with
        | zero => exact Nat.le_of_not_lt hrej
        | succ k => exact hbefore k (by omega)
      · rintro ⟨j, hj, hacc, hbefore, hv, hc⟩
        cases j with
        | zero => exact absurd hacc hrej
        | succ j => exact ⟨j, by omega, hacc, fun k hk => hbefore (k + 1) (by omega), hv, hc⟩

end

/-- Settles O43: the width is `betweenBits_le_iff`, and the loop is `betweenLoop_eq_some_iff`, in which a draw is accepted exactly when
`low +` the draw is at most `high` (R125, R126). -/
theorem rejectionLoopTakesTheFirstAcceptedDraw : Obligations.RejectionLoopTakesTheFirstAcceptedDraw := by
  refine ⟨fun low high _ => ⟨Nat.le_add_left _ _, betweenBits_le_iff.mp le_rfl, fun b => betweenBits_le_iff.mpr, ?_⟩,
    fun cw xi low high fuel c v c' hle => ?_⟩
  · rintro rfl
    exact Nat.le_zero.mp (betweenBits_le_iff.mpr (by simp [betweenRange]))
  · rw [betweenLoop_eq_some_iff]
    unfold betweenDrawAt betweenRange
    constructor
    · rintro ⟨j, hj, hacc, hbefore, hv, hc⟩
      exact ⟨j, hj, hc, hv, by omega, by omega, hbefore⟩
    · rintro ⟨j, hj, hc, hv, -, hhigh, hbefore⟩
      exact ⟨j, hj, by omega, hbefore, hv, hc⟩

/-! ### The named assumption `RngFair` -/

/-- Under `RngFair` some draw of the width that covers a range of at least 1 is below it; a range of 1 needs no fairness (R129). -/
theorem RngFair.exists_accepted {cw : Nat} {xi : Nat → Nat} (h : RngFair cw xi) (c : Nat) {range : Nat} (hrange : 1 ≤ range) :
    ∃ j, (randomBits cw xi (bitlen (range - 1)) (c + j * ceilDiv (bitlen (range - 1)) cw)).1 < range := by
  obtain hone | htwo : range = 1 ∨ 2 ≤ range := by omega
  · subst hone
    exact ⟨0, randomBits_lt cw xi 0 _⟩
  · have hwidth : 1 ≤ bitlen (range - 1) := by
      by_contra hzero
      have := bitlen_le_iff.mp (show bitlen (range - 1) ≤ 0 by omega)
      omega
    have habove : 2 ^ (bitlen (range - 1) - 1) < range := by
      by_contra hge
      have := bitlen_le_iff.mpr (show range - 1 < 2 ^ (bitlen (range - 1) - 1) by omega)
      omega
    have hcover := lt_two_pow_bitlen (range - 1)
    exact h c _ range hwidth habove (by omega)

/-- Under `RngFair` the rejection loop has a first accepted draw (R129). -/
theorem RngFair.exists_first_accepted {cw : Nat} {xi : Nat → Nat} (h : RngFair cw xi) (low high c : Nat) :
    ∃ j, betweenDrawAt cw xi low high c j < betweenRange low high ∧
      ∀ k, k < j → betweenRange low high ≤ betweenDrawAt cw xi low high c k := by
  have hex : ∃ j, betweenDrawAt cw xi low high c j < betweenRange low high :=
    h.exists_accepted c (Nat.le_add_left 1 (high - low))
  exact ⟨Nat.find hex, Nat.find_spec hex, fun k hk => Nat.le_of_not_lt (Nat.find_min hex hk)⟩

end Sys2Proof.Machine
end

section
/-! The commands of unit U3: `RANDBITS` completes in its first step (R124), `RANDBTW` on the first accepted draw (R128), which may never
come (R129), and which comes under `RngFair`. -/

namespace Sys2Proof.Machine

/-! ### `RANDBITS` -/

/-- `RANDBITS` of a width that fits the register completes in its one step (R124). -/
theorem exec_randbits_of_le {s : State} {r : Running} (rd ra : Reg) (hr : s.eng = .run r) (ha : r.a ≤ s.params.width) :
    exec (.randbits rd ra) s = .next ((s.setCursor (randomBits s.params.chunkBits s.xi r.a s.rngpos).2).complete rd
      (randomBits s.params.chunkBits s.xi r.a s.rngpos).1) :=
  (onRunning_eq hr _).trans (congrArg _ (if_neg (Nat.not_lt_of_le ha)))

/-- Settles O42: the one step of `RANDBITS` completes with a value below `2^k`, which fits the register (R29, R124). -/
theorem randbitsCompletes : Obligations.RandbitsCompletes := by
  intro s r rd ra _ hr ha
  have hlt := randomBits_lt s.params.chunkBits s.xi r.a s.rngpos
  have hdone := completed_complete (s := s) (rd := rd) (randomBits s.params.chunkBits s.xi r.a s.rngpos).2
    (hlt.trans_le (Nat.pow_le_pow_right (by decide) ha))
  refine ⟨_, exec_randbits_of_le rd ra hr ha, hdone, hdone.written.trans_lt hlt, rfl, fun hz => ?_⟩
  have hnone : randomBits s.params.chunkBits s.xi r.a s.rngpos = (0, s.rngpos) :=
    hz ▸ randomBits_of_zero (Nat.succ_pos s.params.extraChunkBits) s.xi s.rngpos
  exact ⟨hdone.written.trans (congrArg Prod.fst hnone), congrArg Prod.snd hnone⟩

/-! ### `RANDBTW` -/

/-- The cursor of the block after `j` draws of `RANDBTW` (R126). -/
def State.afterDraws (s : State) (r : Running) (j : Nat) : State :=
  s.setCursor (s.rngpos + j * ceilDiv (betweenBits r.a r.b) s.params.chunkBits)

@[simp] theorem State.afterDraws_zero (s : State) (r : Running) : s.afterDraws r 0 = s := by
  rw [State.afterDraws, Nat.zero_mul, Nat.add_zero, setCursor_self]

/-- One more draw after `j` of them. -/
theorem State.afterDraws_succ (s : State) (r : Running) (j : Nat) : (s.afterDraws r j).afterDraws r 1 = s.afterDraws r (j + 1) := by
  have hcur : s.rngpos + j * ceilDiv (betweenBits r.a r.b) s.params.chunkBits + 1 * ceilDiv (betweenBits r.a r.b) s.params.chunkBits =
      s.rngpos + (j + 1) * ceilDiv (betweenBits r.a r.b) s.params.chunkBits := by ring
  exact congrArg s.setCursor hcur

/-- Draw number `j` of the running `RANDBTW`, counted from 0 at the cursor of the block (R126). -/
def State.draw (s : State) (r : Running) (j : Nat) : Nat := betweenDrawAt s.params.chunkBits s.xi r.a r.b s.rngpos j

@[simp] theorem State.draw_afterDraws (s : State) (r : Running) (j : Nat) : (s.afterDraws r j).draw r 0 = s.draw r j :=
  betweenDrawAt_zero _

section
variable {s : State} {r : Running} {rd ra rb : Reg}
variable (hr : s.eng = .run r) (hle : r.a ≤ r.b)
include hr hle

theorem exec_randbtw_of_le :
    exec (.randbtw rd ra rb) s = .next (randbtwDraw rd r s (betweenDraw s.params.chunkBits s.xi r.a r.b s.rngpos)) :=
  (onRunning_eq hr _).trans (congrArg _ (if_neg (Nat.not_lt_of_le hle)))

/-- An accepted draw completes `RANDBTW` (R126, R128). -/
theorem exec_randbtw_of_accepted (h : s.draw r 0 < betweenRange r.a r.b) :
    exec (.randbtw rd ra rb) s = .next ((s.afterDraws r 1).complete rd (r.a + s.draw r 0)) := by
  rw [State.draw, betweenDrawAt_zero] at h ⊢
  rw [exec_randbtw_of_le hr hle, randbtwDraw, if_pos h, State.afterDraws, Nat.one_mul]
  rfl

/-- A rejected draw moves the cursor and nothing else (R126). -/
theorem exec_randbtw_of_rejected (h : betweenRange r.a r.b ≤ s.draw r 0) :
    exec (.randbtw rd ra rb) s = .next (s.afterDraws r 1) := by
  rw [State.draw, betweenDrawAt_zero] at h
  rw [exec_randbtw_of_le hr hle, randbtwDraw, if_neg (Nat.not_lt_of_le h), State.afterDraws, Nat.one_mul]
  rfl

/-- Low plus an accepted draw lies between the bounds, so it fits the register (R125, R126). -/
theorem completed_of_accepted (h : s.Inv) {j : Nat} (hacc : s.draw r j < betweenRange r.a r.b) (n : Nat) :
    Completed s ((s.afterDraws r n).complete rd (r.a + s.draw r j)) rd (r.a + s.draw r j) ∧ r.a + s.draw r j ≤ r.b := by
  obtain ⟨-, -, hbw, -⟩ := h.latched r hr
  have hhigh : r.a + s.draw r j ≤ r.b := by
    unfold betweenRange at hacc
    omega
  exact ⟨completed_complete _ (hhigh.trans_lt hbw), hhigh⟩

end

/-- Settles O44: the draw at the cursor decides between the completion and the move of the cursor (R126, R128). -/
theorem randbtwCompletesOnAnAcceptedDraw : Obligations.RandbtwCompletesOnAnAcceptedDraw := by
  intro s r rd ra rb h hr hle
  have hdraw : s.draw r 0 = (betweenDraw s.params.chunkBits s.xi r.a r.b s.rngpos).1 := betweenDrawAt_zero _
  have hcur : (s.afterDraws r 1).rngpos = s.rngpos + ceilDiv (betweenBits r.a r.b) s.params.chunkBits := by
    rw [State.afterDraws, Nat.one_mul, State.setCursor_rngpos]
  rw [← hdraw]
  refine ⟨fun hacc => ?_, fun hrej => ?_⟩
  · obtain ⟨hdone, hhigh⟩ := completed_of_accepted (rd := rd) hr hle h hacc 1
    exact ⟨_, exec_randbtw_of_accepted hr hle hacc, hdone, (Nat.le_add_right _ _).trans_eq hdone.written.symm,
      hdone.written.trans_le hhigh, hcur⟩
  · rw [exec_randbtw_of_rejected hr hle hrej, ← hcur]
    rfl

/-! ### Runs of `RANDBTW` -/

section
variable {s : State} {r : Running} {rd ra rb : Reg}
variable (hr : s.eng = .run r) (hd : decode r.word = .command (.randbtw rd ra rb)) (hle : r.a ≤ r.b) (hi : s.inbox = [])
include hr hd hle hi

/-- With a silent host `n` rejected draws take `n` steps and leave no trace but the cursor (R126, R129). -/
theorem run_randbtw_of_rejected (ht : s.tail = .silent) {n : Nat} (hrej : ∀ k, k < n → betweenRange r.a r.b ≤ s.draw r k) :
    Host.Core.run Sys2Proof.core n s = .next (s.afterDraws r n) := by
  have hstep : ∀ k < n, step (s.afterDraws r k) = .next (s.afterDraws r (k + 1)) := fun k hk => by
    rw [step_of_running (s := s.afterDraws r k) hi ht hr hd,
      exec_randbtw_of_rejected (s := s.afterDraws r k) hr hle ((s.draw_afterDraws r k).symm ▸ hrej k hk), State.afterDraws_succ]
  have hrun := run_of_step_seq (f := s.afterDraws r) hstep
  rwa [State.afterDraws_zero] at hrun

/-- With a silent host the first accepted draw completes `RANDBTW` (R126, R128). -/
theorem run_randbtw_of_accepted (ht : s.tail = .silent) {n : Nat} (hrej : ∀ k, k < n → betweenRange r.a r.b ≤ s.draw r k)
    (hacc : s.draw r n < betweenRange r.a r.b) :
    Host.Core.run Sys2Proof.core (n + 1) s = .next ((s.afterDraws r (n + 1)).complete rd (r.a + s.draw r n)) := by
  rw [run_add 1 (run_randbtw_of_rejected hr hd hle hi ht hrej), run_succ 0 ((step_of_running (s := s.afterDraws r n) hi ht hr hd).trans
    (exec_randbtw_of_accepted (s := s.afterDraws r n) hr hle ((s.draw_afterDraws r n).symm ▸ hacc))), run_zero,
    State.afterDraws_succ, State.draw_afterDraws]

end

/-- Settles O46: `RngFair` gives a first accepted draw, and the run up to it completes the command (R129). -/
theorem randbtwEndsUnderFairness : Obligations.RandbtwEndsUnderFairness := by
  intro s r rd ra rb hacc hle hfair
  obtain ⟨h, hr, hd, -, hi, ht⟩ := hacc
  obtain ⟨j, hj, hbefore⟩ := hfair.exists_first_accepted r.a r.b s.rngpos
  obtain ⟨hdone, hhigh⟩ := completed_of_accepted (rd := rd) hr hle h hj (j + 1)
  exact ⟨_, _, _, run_randbtw_of_accepted hr hd hle hi ht hbefore hj, hdone, Nat.le_add_right _ _, hhigh⟩

/-! ### A host that polls for ever -/

/-- The events of a host that reads `STATUS` between any two engine steps (R202). -/
def pollEvents (p : Params) : List HostEvent := [.read (p.base + 0x004) 4, .engineTurn]

/-- A polling host's round of two steps: it reads `STATUS`, then the running command moves (R202). -/
theorem run_two_of_polling {s t : State} {r : Running} {i : Instr} (hr : s.eng = .run r) (hd : decode r.word = .command i)
    (hi : s.inbox = []) (ht : s.tail = .again (pollEvents s.params)) (hexec : exec i (s.respond s.statusWord) = .next t) :
    Host.Core.run Sys2Proof.core 2 s = .next t := by
  have hread : step s = .next { s.respond s.statusWord with inbox := [.engineTurn] } := by
    rw [step_eq, State.refill_of_again hi ht]
    have hloc : locate s.params (s.params.base + 0x004) 4 = .found .status := locate_low (off := 0x004) rfl (by decide)
    simp only [turnStep, pollEvents, hostStep, hostRead, State.popInbox_params, hloc]
    rfl
  have hturn : step { s.respond s.statusWord with inbox := [.engineTurn] } = .next t := by
    have hpop : ({ s.respond s.statusWord with inbox := [.engineTurn] } : State).popInbox [] = s.respond s.statusWord := by
      rw [← hi]
      rfl
    rw [step_of_engineTurn rfl, hpop, engineStep_of_run (s := s.respond s.statusWord) hr hd, hexec]
  rw [run_succ 1 hread, run_succ 0 hturn, run_zero]

/-- The block after `n` rounds in which a polling host read `STATUS` as it stands and `RANDBTW` rejected a draw. -/
def State.afterPolls (s : State) (r : Running) (n : Nat) : State :=
  { s.afterDraws r n with outbox := s.outbox ++ List.replicate n s.statusWord }

/-- While every draw is rejected a polling host reads the same `STATUS` for ever (R129, R202). -/
theorem run_randbtw_of_polling {s : State} {r : Running} {rd ra rb : Reg} (hr : s.eng = .run r)
    (hd : decode r.word = .command (.randbtw rd ra rb)) (hle : r.a ≤ r.b) (hi : s.inbox = [])
    (ht : s.tail = .again (pollEvents s.params)) (hrej : ∀ k, betweenRange r.a r.b ≤ s.draw r k) (n : Nat) :
    Host.Core.run Sys2Proof.core (2 * n) s = .next (s.afterPolls r n) := by
  induction n with
  | zero =>
    rw [State.afterPolls, State.afterDraws_zero, List.replicate_zero, List.append_nil]
    rfl
  | succ n ih =>
    have hexec : exec (.randbtw rd ra rb) ((s.afterPolls r n).respond (s.afterPolls r n).statusWord) =
        .next (((s.afterPolls r n).respond (s.afterPolls r n).statusWord).afterDraws r 1) :=
      exec_randbtw_of_rejected (s := (s.afterPolls r n).respond (s.afterPolls r n).statusWord) hr hle
        ((s.draw_afterDraws r n).symm ▸ hrej n)
    have hround : ((s.afterPolls r n).respond (s.afterPolls r n).statusWord).afterDraws r 1 = s.afterPolls r (n + 1) := by
      change ({ (s.afterDraws r n).afterDraws r 1 with outbox := s.outbox ++ List.replicate n s.statusWord ++ [s.statusWord] } : State) = _
      rw [State.afterDraws_succ, List.append_assoc, ← List.replicate_succ']
      rfl
    rw [Nat.mul_succ, run_add 2 ih, run_two_of_polling (s := s.afterPolls r n) hr hd hi ht hexec, hround]

/-- Settles O45: every draw is rejected, so each step, or each round of the polling host, moves the cursor by one draw and leaves the engine,
the registers and `STATUS` as they were (R129, R202). -/
theorem randbtwHangs : Obligations.RandbtwHangs := by
  intro s r rd ra rb hacc hle hrej n
  obtain ⟨-, hr, hd, -, hi, ht⟩ := hacc
  have hbusy : s.busy = true := State.busy_of_run hr
  refine ⟨⟨_, run_randbtw_of_rejected hr hd hle hi ht fun k _ => hrej k, hbusy, rfl, rfl, rfl⟩,
    ⟨_, run_randbtw_of_polling (s := { s with tail := .again (pollEvents s.params) }) hr hd hle hi rfl hrej n, hbusy, rfl, rfl, rfl, ?_⟩⟩
  obtain ⟨hbit, -⟩ := s.statusWord_bits
  exact hbit.trans hbusy

end Sys2Proof.Machine
end

section
/-! The transitions of the Miller-Rabin machine (R145) compute the function's steps: trial division, the decomposition, a witness draw, a
witness's test (R137 to R141). Under `RngFair` they lead to a verdict (R129). -/

namespace Sys2Proof.Machine

/-- Some number of transitions of the Miller-Rabin machine on `(n, rounds)` leads from one state and cursor to another (R145). -/
def MrReaches (cw : Nat) (xi : Nat → Nat) (n rounds : Nat) : MrState × Nat → MrState × Nat → Prop :=
  Relation.ReflTransGen fun p q => mrStep cw xi n rounds p.1 p.2 = q

section
variable {cw : Nat} {xi : Nat → Nat} {n rounds : Nat}

theorem MrReaches.step {p q : MrState × Nat} (h : MrReaches cw xi n rounds (mrStep cw xi n rounds p.1 p.2) q) :
    MrReaches cw xi n rounds p q := Relation.ReflTransGen.head rfl h

theorem mrReaches_of_mrStep {p q : MrState × Nat} (h : mrStep cw xi n rounds p.1 p.2 = q) : MrReaches cw xi n rounds p q :=
  Relation.ReflTransGen.single h

theorem mrStep_ret (v : Bool) (c : Nat) : mrStep cw xi n rounds (.ret v) c = (.ret v, c) := rfl

/-! ### Trial division (R137) -/

/-- From table index `i` the machine decides as the function does on the rest of the table. -/
theorem mrReaches_trial (c : Nat) {i k : Nat} (hi : i + k = 14) :
    MrReaches cw xi n rounds (.trial i, c) ((trialDivide n (smallPrimes.drop i)).elim (.decomp (n - 1) 0) .ret, c) := by
  induction k generalizing i with
  | zero =>
    obtain rfl : i = 14 := hi
    refine mrReaches_of_mrStep ?_
    simp only [mrStep, mrTrial, smallPrimes, List.drop, List.getD_cons_succ, List.getD_cons_zero, trialDivide, le_refl, if_true]
    split_ifs <;> rfl
  | succ k ih =>
    have hlt : i < smallPrimes.length := by
      change i < 15
      omega
    rw [List.drop_eq_getElem_cons hlt, trialDivide, ← smallPrimes_getD hlt]
    split_ifs with heq hdvd
    · exact mrReaches_of_mrStep (by simp only [mrStep, mrTrial, if_pos heq, Option.elim])
    · exact mrReaches_of_mrStep (by simp only [mrStep, mrTrial, if_neg heq, if_pos hdvd, Option.elim])
    · refine MrReaches.step ?_
      simp only [mrStep, mrTrial, if_neg heq, if_neg hdvd, if_neg (show ¬14 ≤ i by omega)]
      exact ih (by omega)

/-- A number that trial division does not decide survives the table (R137). -/
theorem survivesTable_iff_trialDivide : survivesTable n ↔ 2 ≤ n ∧ trialDivide n smallPrimes = none := by
  have hdiv (ps : List Nat) : trialDivide n ps = none ↔ ∀ p ∈ ps, n % p ≠ 0 := by
    induction ps with
    | nil => simp [trialDivide]
    | cons p ps ih =>
      rw [trialDivide, List.forall_mem_cons, ← ih]
      split_ifs with heq hdvd
      · simp [heq]
      · simp [hdvd]
      · simp [hdvd]
  rw [survivesTable, hdiv]

/-- A survivor is above 3, so there are witnesses to draw from (R137, R140). -/
theorem survivesTable.four_le (h : survivesTable n) : 4 ≤ n := by
  obtain ⟨htwo, hdvd⟩ := h
  have h2 := hdvd 2 (by decide)
  have h3 := hdvd 3 (by decide)
  by_contra hlt
  interval_cases n
  · exact h2 rfl
  · exact h3 rfl

/-! ### The decomposition (R139) -/

/-- The halvings of `MR_DECOMP` are those of the function, for which `fuel` suffices when `d` has at most `fuel` bits. -/
theorem mrReaches_decomp (c : Nat) {fuel d s : Nat} (hd : d ≠ 0) (hfuel : d < 2 ^ fuel) :
    MrReaches cw xi n rounds (.decomp d s, c) (.round (stripTwos fuel d s).1 (stripTwos fuel d s).2 1, c) := by
  induction fuel generalizing d s with
  | zero => exact absurd (Nat.lt_one_iff.mp hfuel) hd
  | succ fuel ih =>
    rw [stripTwos]
    split
    next heven =>
      refine MrReaches.step ?_
      simp only [mrStep, if_pos heven]
      exact ih (by omega) (Nat.div_lt_of_lt_mul (by rwa [pow_succ'] at hfuel))
    next hodd => exact mrReaches_of_mrStep (by simp only [mrStep, if_neg hodd])

theorem mrReaches_decompose (c : Nat) (hn : 2 ≤ n) :
    MrReaches cw xi n rounds (.decomp (n - 1) 0, c) (.round (decompose n).1 (decompose n).2 1, c) :=
  mrReaches_decomp c (by omega) (lt_two_pow_bitlen _)

/-! ### A witness's test (R141) -/

/-- The squarings of `MR_SQR` are those of the function. -/
theorem mrReaches_sqr (c d r a : Nat) {s k x j : Nat} (hj : 1 ≤ j) (hk : s - j = k) :
    MrReaches cw xi n rounds (.sqr d s r a x j, c) (if squaringReaches n k x then .round d s (r + 1) else .ret false, c) := by
  induction k generalizing x j with
  | zero => exact mrReaches_of_mrStep (by simp only [mrStep, mrSquare, if_pos (show s - 1 < j by omega), squaringReaches]; rfl)
  | succ k ih =>
    have hleft : ¬s - 1 < j := by omega
    rw [squaringReaches]
    split
    next hlast => exact mrReaches_of_mrStep (by simp only [mrStep, mrSquare, if_neg hleft, if_pos hlast, if_true])
    next hlast =>
      refine MrReaches.step ?_
      simp only [mrStep, mrSquare, if_neg hleft, if_neg hlast]
      exact ih (by omega) (by omega)

/-- A witness passes and the next round begins, or it fails and the verdict is `false`. -/
theorem mrReaches_exp (c d s r a : Nat) :
    MrReaches cw xi n rounds (.exp d s r a, c) (if witnessPasses n d s a then .round d s (r + 1) else .ret false, c) := by
  refine MrReaches.step ?_
  simp only [mrStep, mrPowered, witnessPasses]
  split
  next => exact Relation.ReflTransGen.refl
  next => exact mrReaches_sqr c d r a le_rfl rfl

/-! ### A witness draw (R140) -/

/-- A draw of the machine is one of `random_between(2, n - 2)` (R140). -/
theorem mrStep_draw (hn : 4 ≤ n) (d s r c : Nat) :
    mrStep cw xi n rounds (.draw d s r) c =
      (if (betweenDraw cw xi 2 (n - 2) c).1 < betweenRange 2 (n - 2) then .exp d s r (2 + (betweenDraw cw xi 2 (n - 2) c).1)
        else .draw d s r, (betweenDraw cw xi 2 (n - 2) c).2) := by
  have hrange : betweenRange 2 (n - 2) = n - 3 := by
    unfold betweenRange
    omega
  have hdraw : betweenDraw cw xi 2 (n - 2) c = randomBits cw xi (bitlen (n - 4)) c := by
    rw [betweenDraw, betweenBits, hrange, Nat.sub_sub]
  rw [hrange, hdraw]
  rfl

/-- The machine draws until the rejection loop of the function returns the witness. -/
theorem mrReaches_draw (hn : 4 ≤ n) (d s r : Nat) {fuel c a c' : Nat} (h : betweenLoop cw xi 2 (n - 2) fuel c = some (a, c')) :
    MrReaches cw xi n rounds (.draw d s r, c) (.exp d s r a, c') := by
  induction fuel generalizing c with
  | zero => nomatch h
  | succ fuel ih =>
    rw [betweenLoop] at h
    split at h
    next hacc =>
      obtain ⟨rfl, rfl⟩ := Prod.mk.inj (Option.some.inj h)
      exact mrReaches_of_mrStep ((mrStep_draw hn d s r c).trans (by rw [if_pos hacc]))
    next hrej =>
      refine MrReaches.step ?_
      rw [mrStep_draw hn, if_neg hrej]
      exact ih h

/-! ### Under `RngFair` the machine reaches a verdict (R129) -/

theorem RngFair.exists_betweenLoop (h : RngFair cw xi) (low high c : Nat) :
    ∃ fuel a c', betweenLoop cw xi low high fuel c = some (a, c') := by
  obtain ⟨j, hacc, hbefore⟩ := h.exists_first_accepted low high c
  exact ⟨j + 1, _, _, betweenLoop_eq_some_iff.mpr ⟨j, Nat.lt_succ_self j, hacc, hbefore, rfl, rfl⟩⟩

/-- Each of the `k` rounds that are left draws its witness, then passes to the next round or ends with `false`. -/
theorem RngFair.mrReaches_ret_of_round (h : RngFair cw xi) (hn : 4 ≤ n) (d s c : Nat) {k r : Nat} (hk : r + k = rounds + 1) :
    ∃ v c', MrReaches cw xi n rounds (.round d s r, c) (.ret v, c') := by
  induction k generalizing r c with
  | zero => exact ⟨true, c, mrReaches_of_mrStep (by simp only [mrStep, if_pos (show rounds < r by omega)])⟩
  | succ k ih =>
    obtain ⟨fuel, a, c₁, hloop⟩ := h.exists_betweenLoop 2 (n - 2) c
    have hdraw : MrReaches cw xi n rounds (.round d s r, c) (.draw d s r, c) :=
      mrReaches_of_mrStep (by simp only [mrStep, if_neg (show ¬rounds < r by omega)])
    have hexp := (hdraw.trans (mrReaches_draw hn d s r hloop)).trans (mrReaches_exp c₁ d s r a)
    split at hexp
    next =>
      obtain ⟨v, c', hnext⟩ := ih c₁ (by omega : r + 1 + k = rounds + 1)
      exact ⟨v, c', hexp.trans hnext⟩
    next => exact ⟨false, c₁, hexp⟩

/-- From its entry the machine reaches a verdict, by the table or by the rounds. -/
theorem RngFair.mrReaches_ret_of_check (h : RngFair cw xi) (c : Nat) : ∃ v c', MrReaches cw xi n rounds (.check, c) (.ret v, c') := by
  by_cases hsmall : n < 2
  · exact ⟨false, c, mrReaches_of_mrStep (by simp only [mrStep, if_pos hsmall])⟩
  · have htrial : MrReaches cw xi n rounds (.check, c) (.trial 0, c) := mrReaches_of_mrStep (by simp only [mrStep, if_neg hsmall])
    have htable : MrReaches cw xi n rounds (.check, c) ((trialDivide n smallPrimes).elim (.decomp (n - 1) 0) .ret, c) :=
      htrial.trans (mrReaches_trial c (Nat.zero_add 14))
    cases hdec : trialDivide n smallPrimes with
    | some v => exact ⟨v, c, by rwa [hdec] at htable⟩
    | none =>
      rw [hdec] at htable
      have hsurv : survivesTable n := survivesTable_iff_trialDivide.mpr ⟨by omega, hdec⟩
      obtain ⟨v, c', hret⟩ := h.mrReaches_ret_of_round hsurv.four_le (decompose n).1 (decompose n).2 c (Nat.add_comm 1 rounds)
      exact ⟨v, c', (htable.trans (mrReaches_decompose c (by omega))).trans hret⟩

end

end Sys2Proof.Machine
end

section
/-! The command `MRTEST` runs the Miller-Rabin machine (R142, R145): a run with a silent host follows the machine's transitions, to its
verdict or for ever (R129). -/

namespace Sys2Proof.Machine

/-- A verdict fits the register (R8, R142). -/
theorem toNat_lt_two_pow_width (p : Params) (v : Bool) : v.toNat < 2 ^ p.width := by
  have hwidth : p.width ≠ 0 := by
    rw [Params.width, Params.limbs]
    omega
  exact (Bool.toNat_lt v).trans_le (Nat.le_self_pow hwidth 2)

section
variable {s : State} {r : Running} {rd ra rb : Reg}

/-- In every state but a verdict `MRTEST` with a round count takes the machine's transition (R145). -/
theorem exec_mrtest_of_running (hr : s.eng = .run r) {m : MrState} (hmu : r.mu = .mr m) (hv : ∀ v, m ≠ .ret v) (hb : r.b ≠ 0) :
    exec (.mrtest rd ra rb) s = .next (mrtestGoOn r s (mrStep s.params.chunkBits s.xi r.a r.b m s.rngpos)) := by
  refine (onRunning_eq hr _).trans (congrArg _ ?_)
  have hof : mrOf r.mu = m := congrArg mrOf hmu
  by_cases hc : m = .check
  · subst hc
    rw [mrtestStep, hof]
    exact if_neg hb
  · rw [mrtestStep_of_running (hof ▸ hc) (hof ▸ hv), hof]

/-- In a verdict `MRTEST` completes with it as 1 or 0 (R142). -/
theorem exec_mrtest_of_ret (hr : s.eng = .run r) {v : Bool} (hmu : r.mu = .mr (.ret v)) :
    exec (.mrtest rd ra rb) s = .next (s.complete rd v.toNat) := by
  refine (onRunning_eq hr _).trans (congrArg _ ?_)
  rw [mrtestStep, hmu]
  rfl

/-! ### Runs with a silent host -/

/-- At acceptance the machine stands at its entry (R33). -/
theorem mrtestGoOn_check (hr : s.eng = .run r) (hmu : r.mu = .mr .check) : mrtestGoOn r s (.check, s.rngpos) = s := by
  rw [mrtestGoOn, setCursor_self, ← hmu, goOn_self hr]

variable (hd : decode r.word = .command (.mrtest rd ra rb)) (hi : s.inbox = []) (ht : s.tail = .silent)
include hd hi ht

/-- A step of the block in which the machine has no verdict is a transition of the machine (R145). -/
theorem step_mrtestGoOn (hb : r.b ≠ 0) {p : MrState × Nat} (hv : ∀ v, p.1 ≠ .ret v) :
    step (mrtestGoOn r s p) = .next (mrtestGoOn r s (mrStep s.params.chunkBits s.xi r.a r.b p.1 p.2)) := by
  have hrun : (mrtestGoOn r s p).eng = .run { r with mu := .mr p.1 } := rfl
  rw [step_of_running (s := mrtestGoOn r s p) hi ht hrun hd, exec_mrtest_of_running hrun rfl hv hb]
  rfl

/-- A run takes the block wherever the machine's transitions lead (R145). -/
theorem run_of_mrReaches (hb : r.b ≠ 0) {p q : MrState × Nat} (h : MrReaches s.params.chunkBits s.xi r.a r.b p q) :
    ∃ k, Host.Core.run Sys2Proof.core k (mrtestGoOn r s p) = .next (mrtestGoOn r s q) := by
  induction h using Relation.ReflTransGen.head_induction_on with
  | refl => exact ⟨0, rfl⟩
  | @head p p' hstep _ ih =>
    obtain ⟨k, hk⟩ := ih
    by_cases hret : ∃ v, p.1 = .ret v
    · obtain ⟨v, hv⟩ := hret
      obtain rfl : p = p' := by
        rw [← hstep, hv, mrStep_ret, ← hv]
      exact ⟨k, hk⟩
    · rw [not_exists] at hret
      exact ⟨k + 1, by rw [run_succ k (step_mrtestGoOn hd hi ht hb hret), hstep, hk]⟩

/-- Where the machine reaches a verdict, `MRTEST` ends with it (R142). -/
theorem run_of_mrReaches_ret (hb : r.b ≠ 0) {p : MrState × Nat} {v : Bool} {c : Nat}
    (h : MrReaches s.params.chunkBits s.xi r.a r.b p (.ret v, c)) :
    ∃ k, Host.Core.run Sys2Proof.core k (mrtestGoOn r s p) = .next ((s.setCursor c).complete rd v.toNat) := by
  obtain ⟨k, hk⟩ := run_of_mrReaches hd hi ht hb h
  have hrun : (mrtestGoOn r s (.ret v, c)).eng = .run { r with mu := .mr (.ret v) } := rfl
  refine ⟨k + 1, ?_⟩
  rw [run_add 1 hk, run_succ 0 ((step_of_running (s := mrtestGoOn r s (.ret v, c)) hi ht hrun hd).trans (exec_mrtest_of_ret hrun rfl)),
    run_zero]
  rfl

/-- While a set of states without verdicts, closed under the machine's transitions, holds the machine, `MRTEST` goes on (R129). -/
theorem run_mrtest_of_invariant (hb : r.b ≠ 0) {P : MrState × Nat → Prop} (hv : ∀ p, P p → ∀ v, p.1 ≠ .ret v)
    (hstep : ∀ p, P p → P (mrStep s.params.chunkBits s.xi r.a r.b p.1 p.2)) (n : Nat) {p : MrState × Nat} (hp : P p) :
    ∃ q, Host.Core.run Sys2Proof.core n (mrtestGoOn r s p) = .next (mrtestGoOn r s q) := by
  induction n generalizing p with
  | zero => exact ⟨p, rfl⟩
  | succ n ih =>
    rw [run_succ n (step_mrtestGoOn hd hi ht hb (hv p hp))]
    exact ih (hstep p hp)

end

/-- Settles O53: under `RngFair` the machine reaches a verdict from its entry, and the run of `MRTEST` ends with it (R129, R201). -/
theorem mrtestEndsUnderFairness : Obligations.MrtestEndsUnderFairness := by
  intro s r rd ra rb hacc hb hfair
  obtain ⟨-, hr, hd, hmu, hi, ht⟩ := hacc
  obtain ⟨v, c, hreach⟩ := hfair.mrReaches_ret_of_check (n := r.a) (rounds := r.b) s.rngpos
  obtain ⟨k, hk⟩ := run_of_mrReaches_ret hd hi ht hb hreach
  rw [mrtestGoOn_check hr hmu] at hk
  exact ⟨k, _, v.toNat, hk, completed_complete c (toNat_lt_two_pow_width s.params v), Bool.toNat_le v⟩

/-! ### A stream that rejects every witness draw -/

/-- The states the machine can be in before any witness is accepted. -/
def MrState.hasNoWitness : MrState → Prop
  | .check => True
  | .trial i => i ≤ 14
  | .decomp _ _ => True
  | .round _ _ r => r = 1
  | .draw _ _ _ => True
  | .exp _ _ _ _ => False
  | .sqr _ _ _ _ _ _ => False
  | .ret _ => False

/-- The table lets a survivor through (R137). -/
theorem survivesTable.mrTrial_eq {n i : Nat} (h : survivesTable n) (hi : i ≤ 14) :
    mrTrial n i = if 14 ≤ i then .decomp (n - 1) 0 else .trial (i + 1) := by
  have hlt : i < smallPrimes.length := Nat.lt_succ_of_le hi
  have hdvd : n % smallPrimes.getD i 0 ≠ 0 := smallPrimes_getD hlt ▸ h.2 _ (List.getElem_mem hlt)
  have hne : n ≠ smallPrimes.getD i 0 := fun heq => hdvd (heq ▸ Nat.mod_self n)
  rw [mrTrial, if_neg hne, if_neg hdvd]

/-- A survivor of the table stays without a witness when the draw at the cursor is rejected (R129, R145). -/
theorem hasNoWitness_mrStep {cw : Nat} {xi : Nat → Nat} {n rounds c : Nat} {m : MrState} (hm : m.hasNoWitness)
    (hsurv : survivesTable n) (hb : rounds ≠ 0) (hrej : n - 3 ≤ (randomBits cw xi (bitlen (n - 4)) c).1) :
    (mrStep cw xi n rounds m c).1.hasNoWitness := by
  cases m with
  | check =>
    dsimp only [mrStep]
    rw [if_neg (Nat.not_lt_of_le hsurv.1)]
    exact Nat.zero_le 14
  | trial i =>
    dsimp only [mrStep]
    rw [hsurv.mrTrial_eq hm]
    split
    next => trivial
    next hlt => exact Nat.lt_of_not_le hlt
  | decomp d s =>
    dsimp only [mrStep]
    split
    next => trivial
    next => exact rfl
  | round d s r =>
    obtain rfl : r = 1 := hm
    dsimp only [mrStep]
    rw [if_neg (by omega)]
    trivial
  | draw d s r =>
    dsimp only [mrStep, mrDrawn]
    rw [if_neg (Nat.not_lt_of_le hrej)]
    trivial
  | exp => exact hm.elim
  | sqr => exact hm.elim
  | ret => exact hm.elim

/-- A transition leaves the cursor or moves it by one witness draw (R140, R145). -/
theorem mrStep_cursor (cw : Nat) (xi : Nat → Nat) (n rounds : Nat) (m : MrState) (c : Nat) :
    (mrStep cw xi n rounds m c).2 = c ∨ (mrStep cw xi n rounds m c).2 = c + ceilDiv (bitlen (n - 4)) cw := by
  cases m with
  | draw d s r => exact .inr rfl
  | _ => exact .inl rfl

/-- The machine has no witness, and the cursor stands after some number of witness draws from `c₀` on. -/
def WithoutWitness (cw n c₀ : Nat) (p : MrState × Nat) : Prop :=
  p.1.hasNoWitness ∧ ∃ k, p.2 = c₀ + k * ceilDiv (bitlen (n - 4)) cw

theorem WithoutWitness.ne_ret {cw n c₀ : Nat} {p : MrState × Nat} (h : WithoutWitness cw n c₀ p) (v : Bool) : p.1 ≠ .ret v := by
  intro hret
  obtain ⟨hm, -⟩ := h
  rw [hret] at hm
  exact hm

/-- On a stream that rejects every draw the machine stays without a witness (R129, R145). -/
theorem WithoutWitness.mrStep {cw : Nat} {xi : Nat → Nat} {n rounds c₀ : Nat} {p : MrState × Nat} (h : WithoutWitness cw n c₀ p)
    (hsurv : survivesTable n) (hb : rounds ≠ 0)
    (hrej : ∀ k, n - 3 ≤ (randomBits cw xi (bitlen (n - 4)) (c₀ + k * ceilDiv (bitlen (n - 4)) cw)).1) :
    WithoutWitness cw n c₀ (mrStep cw xi n rounds p.1 p.2) := by
  obtain ⟨hm, k, hk⟩ := h
  refine ⟨hasNoWitness_mrStep hm hsurv hb (hk ▸ hrej k), ?_⟩
  obtain hstay | hdraw := mrStep_cursor cw xi n rounds p.1 p.2
  · exact ⟨k, hstay.trans hk⟩
  · exact ⟨k + 1, by rw [hdraw, hk, Nat.succ_mul, Nat.add_assoc]⟩

/-- Settles O60: with every draw rejected the machine never has a witness, so it never has a verdict (R129, R145, R201). -/
theorem mrtestHangs : Obligations.MrtestHangs := by
  intro s r rd ra rb hacc hb hsurv hrej n
  obtain ⟨-, hr, hd, hmu, hi, ht⟩ := hacc
  have hstart : WithoutWitness s.params.chunkBits r.a s.rngpos (.check, s.rngpos) := ⟨trivial, 0, by rw [Nat.zero_mul, Nat.add_zero]⟩
  obtain ⟨q, hq⟩ := run_mrtest_of_invariant hd hi ht hb (fun _ hp => hp.ne_ret) (fun _ hp => hp.mrStep hsurv hb hrej) n hstart
  rw [mrtestGoOn_check hr hmu] at hq
  exact ⟨_, hq, rfl, rfl, rfl⟩

end Sys2Proof.Machine
end

section
/-! The function layer of the Miller-Rabin test: the decomposition is the only one (R139), a witness passes exactly by R141's condition,
and the table holds the primes up to 52 (R6, R138). -/

namespace Sys2Proof.Machine

/-! ### The decomposition (R139) -/

/-- The halvings recover the odd part and the exponent they started from. -/
theorem stripTwos_odd_mul_two_pow {d k fuel : Nat} (hd : d % 2 = 1) (hk : k ≤ fuel) (s : Nat) :
    stripTwos fuel (d * 2 ^ k) s = (d, s + k) := by
  induction k generalizing fuel s with
  | zero =>
    rw [pow_zero, mul_one]
    cases fuel with
    | zero => rfl
    | succ fuel => exact if_neg (by omega)
  | succ k ih =>
    obtain ⟨fuel, rfl⟩ : ∃ f, fuel = f + 1 := ⟨fuel - 1, by omega⟩
    have heven : d * 2 ^ (k + 1) = d * 2 ^ k * 2 := by rw [pow_succ, mul_assoc]
    rw [stripTwos, heven, if_pos (Nat.mul_mod_left _ 2), Nat.mul_div_cancel _ two_pos, ih (by omega), Nat.add_right_comm, Nat.add_assoc]

/-- Every pair with `d` odd and the right product is the one `decompose` finds (R139). -/
theorem decompose_eq {n d s : Nat} (hsplit : d * 2 ^ s = n - 1) (hd : d % 2 = 1) : decompose n = (d, s) := by
  have hpow : 2 ^ s ≤ n - 1 := hsplit ▸ Nat.le_mul_of_pos_left _ (by omega)
  have hfuel : s < bitlen (n - 1) := (Nat.pow_lt_pow_iff_right one_lt_two).mp (hpow.trans_lt (lt_two_pow_bitlen _))
  rw [decompose, ← hsplit, stripTwos_odd_mul_two_pow hd (hsplit ▸ hfuel.le), Nat.zero_add]

/-- Settles O49: `n - 1` is a power of 2 times an odd number, and `decompose` finds every such pair, so there is one (R139). -/
theorem decompositionIsExact : Obligations.DecompositionIsExact := by
  intro n hn
  obtain ⟨s, d, hodd, hsplit⟩ := Nat.exists_eq_two_pow_mul_odd (show n - 1 ≠ 0 by omega)
  rw [mul_comm] at hsplit
  have hd : d % 2 = 1 := Nat.odd_iff.mp hodd
  have hdec := decompose_eq hsplit.symm hd
  rw [hdec]
  refine ⟨hsplit.symm, hd, fun hn' => ?_, fun d' s' hsplit' hd' => ?_⟩
  · by_contra hs
    obtain rfl : s = 0 := by omega
    omega
  · exact Prod.mk.inj ((decompose_eq hsplit' hd').symm.trans hdec)

/-! ### The witness's test (R141) -/

/-- From the `i`-th square on, `k` squarings meet `n - 1` exactly when one of the next `k` squares is `n - 1` (R141). -/
theorem squaringReaches_iff (n a d : Nat) {k i : Nat} :
    squaringReaches n k (a ^ (d * 2 ^ i) % n) = true ↔ ∃ j, i < j ∧ j ≤ i + k ∧ a ^ (d * 2 ^ j) % n = n - 1 := by
  induction k generalizing i with
  | zero => exact ⟨nofun, fun ⟨j, hlt, hle, _⟩ => by omega⟩
  | succ k ih =>
    rw [squaringReaches, pow_mul_two_pow_succ_mod]
    split
    next hnext => exact ⟨fun _ => ⟨i + 1, by omega, by omega, hnext⟩, fun _ => rfl⟩
    next hnext =>
      rw [ih]
      constructor
      · rintro ⟨j, hlt, hle, hj⟩
        exact ⟨j, by omega, by omega, hj⟩
      · rintro ⟨j, hlt, hle, hj⟩
        have hne : j ≠ i + 1 := fun h => hnext (h ▸ hj)
        exact ⟨j, by omega, by omega, hj⟩

/-- Settles O48: the first power decides by 1 or by `n - 1`, which is `j = 0`, and the squarings search the `j` from 1 on (R141). -/
theorem witnessPassesExactly : Obligations.WitnessPassesExactly := by
  intro n d k a hn hk
  have hsquares := squaringReaches_iff n a d (k := k - 1) (i := 0)
  rw [pow_zero, mul_one] at hsquares
  rw [witnessPasses, powMod_eq a d (by omega)]
  split
  next hfirst =>
    refine ⟨fun _ => hfirst.imp_right fun hlast => ⟨0, hk, ?_⟩, fun _ => rfl⟩
    rwa [pow_zero, mul_one]
  next hfirst =>
    obtain ⟨hone, hlast⟩ := not_or.mp hfirst
    rw [hsquares]
    constructor
    · rintro ⟨j, -, hle, hj⟩
      exact .inr ⟨j, by omega, hj⟩
    · rintro (h | ⟨j, hlt, hj⟩)
      · exact absurd h hone
      · have hne : j ≠ 0 := by
          rintro rfl
          exact hlast (by rwa [pow_zero, mul_one] at hj)
        exact ⟨j, by omega, by omega, hj⟩

/-! ### The table (R6, R138) -/

theorem prime_of_mem_smallPrimes {p : Nat} (h : p ∈ smallPrimes) : p.Prime := by
  simp only [smallPrimes, List.mem_cons, List.not_mem_nil, or_false] at h
  obtain rfl | rfl | rfl | rfl | rfl | rfl | rfl | rfl | rfl | rfl | rfl | rfl | rfl | rfl | rfl := h <;> norm_num

/-- The table decides every number up to 52: none survives it (R138). -/
theorem not_survivesTable_of_le {n : Nat} (h : n ≤ 52) : ¬survivesTable n := by
  rintro ⟨htwo, hdvd⟩
  obtain ⟨p, hp, hzero⟩ := (by decide : ∀ n < 53, 2 ≤ n → ∃ p ∈ smallPrimes, n % p = 0) n (by omega) htwo
  exact hdvd p hp hzero

theorem mem_smallPrimes_iff {n : Nat} (h : n ≤ 52) : n ∈ smallPrimes ↔ n.Prime := by
  refine ⟨prime_of_mem_smallPrimes, fun hn => ?_⟩
  by_contra hmem
  refine not_survivesTable_of_le h ⟨hn.two_le, fun p hp hzero => ?_⟩
  have hne : n ≠ p := fun heq => hmem (heq ▸ hp)
  exact not_prime_of_mem_smallPrimes hp hne hzero hn

end Sys2Proof.Machine
end

section
/-! The run of `MRTEST` with a silent host, step by step (R142, R145): after `n` steps the block stands at the machine's `n`-th state, or
has completed with a verdict the machine reached on the way. Where `is_probable_prime` returns, that verdict is the function's (R144). -/

namespace Sys2Proof.Machine

/-! ### The machine's transitions counted -/

/-- `mrStep` as a map on the state and the cursor, which can be iterated (R145). -/
def mrNext (cw : Nat) (xi : Nat → Nat) (n rounds : Nat) (p : MrState × Nat) : MrState × Nat := mrStep cw xi n rounds p.1 p.2

section
variable {cw : Nat} {xi : Nat → Nat} {n rounds : Nat}

/-- A verdict stays (R145). -/
theorem mrNext_iterate_ret (k : Nat) (v : Bool) (c : Nat) : (mrNext cw xi n rounds)^[k] (.ret v, c) = (.ret v, c) :=
  Function.iterate_fixed (mrStep_ret v c) k

/-- The invariant of the machine holds after any number of transitions (R138 to R141, R145, R147). -/
theorem mrOk_mrNext_iterate (k : Nat) {p : MrState × Nat} (h : mrOk n rounds p.1) :
    mrOk n rounds ((mrNext cw xi n rounds)^[k] p).1 :=
  Function.Iterate.rec (fun q : MrState × Nat => mrOk n rounds q.1) h (fun q hq => mrStep_ok cw xi q.2 hq) k

/-- A verdict reached from the entry is right (R147). -/
theorem mrOk_of_iterate_check_ret {k c c' : Nat} {v : Bool} (h : (mrNext cw xi n rounds)^[k] (.check, c) = (.ret v, c')) :
    mrOk n rounds (.ret v) := by
  have hok : mrOk n rounds ((mrNext cw xi n rounds)^[k] (.check, c)).1 := mrOk_mrNext_iterate k trivial
  rwa [h] at hok

/-- The table index counts the transitions until the table decides (R137, R145). -/
theorem mrNext_iterate_check (hn : 2 ≤ n) (c : Nat) {j : Nat} (hj : j ≤ 14) :
    (mrNext cw xi n rounds)^[j + 1] (.check, c) = (.trial j, c) ∨ ∃ v, (mrNext cw xi n rounds)^[j + 1] (.check, c) = (.ret v, c) := by
  induction j with
  | zero => exact .inl (by rw [Function.iterate_one, mrNext, mrStep, if_neg (by omega)])
  | succ j ih =>
    rw [Function.iterate_succ_apply']
    obtain htrial | ⟨v, hret⟩ := ih (by omega)
    · rw [htrial, mrNext, mrStep, mrTrial, if_neg (show ¬14 ≤ j by omega)]
      split_ifs
      · exact .inr ⟨true, rfl⟩
      · exact .inr ⟨false, rfl⟩
      · exact .inl rfl
    · exact .inr ⟨v, by rw [hret, mrNext, mrStep_ret]⟩

/-- A number that does not survive the table has its verdict after `MR_CHECK` and the fifteen entries of the table (R136 to R138). -/
theorem mrNext_iterate_check_ret (hn : ¬survivesTable n) (c : Nat) : ∃ v, (mrNext cw xi n rounds)^[16] (.check, c) = (.ret v, c) := by
  by_cases hsmall : n < 2
  · refine ⟨false, ?_⟩
    rw [Function.iterate_succ_apply, mrNext, mrStep, if_pos hsmall, mrNext_iterate_ret]
  · have hok : mrOk n rounds ((mrNext cw xi n rounds)^[16] (.check, c)).1 := mrOk_mrNext_iterate 16 trivial
    rw [Function.iterate_succ_apply'] at hok ⊢
    obtain htrial | ⟨v, hret⟩ := mrNext_iterate_check (cw := cw) (xi := xi) (rounds := rounds) (not_lt.mp hsmall) c (le_refl 14)
    · rw [htrial, mrNext, mrStep, mrTrial, if_pos (le_refl 14)] at hok ⊢
      split_ifs at hok ⊢
      · exact ⟨true, rfl⟩
      · exact ⟨false, rfl⟩
      · exact absurd hok.1 hn
    · exact ⟨v, by rw [hret, mrNext, mrStep_ret]⟩

/-! ### The function's rounds (R144) -/

/-- Where the function's remaining rounds return, the machine reaches their verdict (R144, R145). -/
theorem mrReaches_of_mrRounds (hn : 4 ≤ n) (d s fuel : Nat) {k r c c' : Nat} {v : Bool} (hk : r + k = rounds + 1)
    (h : mrRounds cw xi n d s fuel k c = some (v, c')) : MrReaches cw xi n rounds (.round d s r, c) (.ret v, c') := by
  induction k generalizing r c with
  | zero =>
    obtain ⟨rfl, rfl⟩ := Prod.mk.inj (Option.some.inj h)
    exact mrReaches_of_mrStep (by simp only [mrStep, if_pos (show rounds < r by omega)])
  | succ k ih =>
    rw [mrRounds] at h
    cases hloop : betweenLoop cw xi 2 (n - 2) fuel c with
    | none => rw [hloop] at h; nomatch h
    | some draw =>
      obtain ⟨a, c₁⟩ := draw
      rw [hloop] at h
      have hdraw : MrReaches cw xi n rounds (.round d s r, c) (.draw d s r, c) :=
        mrReaches_of_mrStep (by simp only [mrStep, if_neg (show ¬rounds < r by omega)])
      have hexp := (hdraw.trans (mrReaches_draw hn d s r hloop)).trans (mrReaches_exp c₁ d s r a)
      dsimp only at h
      split at h
      next hpass =>
        rw [if_pos hpass] at hexp
        exact hexp.trans (ih (by omega) h)
      next hfail =>
        obtain ⟨rfl, rfl⟩ := Prod.mk.inj (Option.some.inj h)
        rwa [if_neg hfail] at hexp

/-- Where `is_probable_prime` returns, the machine reaches its verdict from the entry (R144, R145). -/
theorem mrReaches_of_isProbablePrime {fuel c c' : Nat} {v : Bool} (h : isProbablePrime cw xi n rounds fuel c = some (v, c')) :
    MrReaches cw xi n rounds (.check, c) (.ret v, c') := by
  rw [isProbablePrime] at h
  split at h
  next hsmall =>
    obtain ⟨rfl, rfl⟩ := Prod.mk.inj (Option.some.inj h)
    exact mrReaches_of_mrStep (by simp only [mrStep, if_pos hsmall])
  next hsmall =>
    have htrial : MrReaches cw xi n rounds (.check, c) (.trial 0, c) := mrReaches_of_mrStep (by simp only [mrStep, if_neg hsmall])
    have htable : MrReaches cw xi n rounds (.check, c) ((trialDivide n smallPrimes).elim (.decomp (n - 1) 0) .ret, c) :=
      htrial.trans (mrReaches_trial c (Nat.zero_add 14))
    split at h
    next w hdec =>
      obtain ⟨rfl, rfl⟩ := Prod.mk.inj (Option.some.inj h)
      rwa [hdec] at htable
    next hdec =>
      rw [hdec] at htable
      have hsurv : survivesTable n := survivesTable_iff_trialDivide.mpr ⟨by omega, hdec⟩
      exact (htable.trans (mrReaches_decompose c hsurv.1)).trans (mrReaches_of_mrRounds hsurv.four_le _ _ fuel (Nat.add_comm 1 rounds) h)

end

/-! ### The command -/

theorem toNat_eq_ite (v : Bool) : v.toNat = if v then 1 else 0 := Bool.cond_eq_ite v 1 0

/-- Settles O50: a step of `MRTEST` completes with the verdict or takes the machine's transition, in which only `MR_DRAW` draws (R142,
R145). -/
theorem mrtestCompletes : Obligations.MrtestCompletes := by
  intro s r m rd ra rb _ hr hmu
  refine ⟨fun v hv => ⟨s.complete rd v.toNat, exec_mrtest_of_ret hr (hv ▸ hmu), ?_, rfl⟩,
    fun hv hb => ⟨exec_mrtest_of_running hr hmu hv hb, fun hdraw => ?_⟩⟩
  · rw [← toNat_eq_ite]
    exact completed_complete s.rngpos (toNat_lt_two_pow_width s.params v)
  · cases m with
    | draw d q n => exact absurd rfl (hdraw d q n)
    | _ => rfl

section
variable {s : State} {r : Running} {rd ra rb : Reg} (hd : decode r.word = .command (.mrtest rd ra rb)) (hi : s.inbox = [])
  (ht : s.tail = .silent)
include hd hi ht

/-- In a verdict the block's step completes `MRTEST` with it (R142). -/
theorem step_mrtestGoOn_ret (v : Bool) (c : Nat) : step (mrtestGoOn r s (.ret v, c)) = .next ((s.setCursor c).complete rd v.toNat) := by
  have hrun : (mrtestGoOn r s (.ret v, c)).eng = .run { r with mu := .mr (.ret v) } := rfl
  rw [step_of_running (s := mrtestGoOn r s (.ret v, c)) hi ht hrun hd, exec_mrtest_of_ret hrun rfl]
  rfl

/-- After `n` steps the block stands at the machine's `n`-th state, or it has completed with the verdict that the machine then holds. -/
theorem run_mrtest_cases (hb : r.b ≠ 0) (n : Nat) (p : MrState × Nat) :
    Host.Core.run Sys2Proof.core n (mrtestGoOn r s p) =
        .next (mrtestGoOn r s ((mrNext s.params.chunkBits s.xi r.a r.b)^[n] p)) ∨
      ∃ v c, (mrNext s.params.chunkBits s.xi r.a r.b)^[n] p = (.ret v, c) ∧
        Host.Core.run Sys2Proof.core n (mrtestGoOn r s p) = .next ((s.setCursor c).complete rd v.toNat) := by
  induction n generalizing p with
  | zero => exact .inl rfl
  | succ n ih =>
    obtain ⟨m, c⟩ := p
    by_cases hret : ∃ v, m = .ret v
    · obtain ⟨v, rfl⟩ := hret
      refine .inr ⟨v, c, mrNext_iterate_ret _ v c, ?_⟩
      rw [run_succ n (step_mrtestGoOn_ret hd hi ht v c)]
      exact run_of_idle (s := (s.setCursor c).complete rd v.toNat) hi ht rfl n
    · rw [run_succ n (step_mrtestGoOn hd hi ht hb (not_exists.mp hret))]
      exact ih _

/-- Where the machine holds a verdict after `n` transitions, `MRTEST` has completed with it after one more step (R142). -/
theorem run_mrtest_of_iterate_ret (hb : r.b ≠ 0) {n : Nat} {p : MrState × Nat} {v : Bool} {c : Nat}
    (h : (mrNext s.params.chunkBits s.xi r.a r.b)^[n] p = (.ret v, c)) :
    Host.Core.run Sys2Proof.core (n + 1) (mrtestGoOn r s p) = .next ((s.setCursor c).complete rd v.toNat) := by
  obtain hrun | ⟨v', c', h', hrun⟩ := run_mrtest_cases hd hi ht hb n p
  · rw [run_add 1 hrun, h, run_succ 0 (step_mrtestGoOn_ret hd hi ht v c), run_zero]
  · obtain ⟨rfl, rfl⟩ : v = v' ∧ c = c' := by simpa using h.symm.trans h'
    rw [run_add 1 hrun]
    exact run_of_idle (s := (s.setCursor c).complete rd v.toNat) hi ht rfl 1

end

/-- The verdict on a number that does not survive the table says whether the table holds it (R137, R147). -/
theorem verdict_eq_mem_smallPrimes {n rounds : Nat} {v : Bool} (h : mrOk n rounds (.ret v)) (hn : n ≤ 52) :
    v = decide (n ∈ smallPrimes) := by
  cases v with
  | false =>
    have hmem : n ∉ smallPrimes := fun hmem => h (prime_of_mem_smallPrimes hmem)
    exact (decide_eq_false hmem).symm
  | true => exact (decide_eq_true (h.resolve_right (not_survivesTable_of_le hn))).symm

/-- Settles O47: no number up to 52 survives the table, so the sixteenth state of the machine is a verdict, the right one by the machine's
invariant, and the seventeenth step completes with it (R138, R142). -/
theorem mrtestDecidesSmallNumbers : Obligations.MrtestDecidesSmallNumbers := by
  refine ⟨fun n hn => mem_smallPrimes_iff hn, fun s r rd ra rb hacc hb ha => ?_⟩
  obtain ⟨-, hr, hd, hmu, hi, ht⟩ := hacc
  obtain ⟨v, hret⟩ := mrNext_iterate_check_ret (cw := s.params.chunkBits) (xi := s.xi) (rounds := r.b) (not_survivesTable_of_le ha)
    s.rngpos
  have hrun := run_mrtest_of_iterate_ret hd hi ht hb hret
  rw [mrtestGoOn_check hr hmu] at hrun
  have hval : v.toNat = if r.a ∈ smallPrimes then 1 else 0 := by
    simp only [toNat_eq_ite, verdict_eq_mem_smallPrimes (mrOk_of_iterate_check_ret hret) ha, decide_eq_true_eq]
  exact ⟨_, hrun, hval ▸ completed_complete s.rngpos (toNat_lt_two_pow_width s.params v), rfl⟩

/-- Settles O51: the machine reaches the function's verdict and cursor, and the run of `MRTEST` ends with them (R144, R145). -/
theorem mrtestRunReturnsTheFunction : Obligations.MrtestRunReturnsTheFunction := by
  intro s r rd ra rb fuel c v hacc hb hfun
  obtain ⟨-, hr, hd, hmu, hi, ht⟩ := hacc
  obtain ⟨k, hk⟩ := run_of_mrReaches_ret hd hi ht hb (mrReaches_of_isProbablePrime hfun)
  rw [mrtestGoOn_check hr hmu] at hk
  refine ⟨k, _, hk, ?_, rfl⟩
  rw [← toNat_eq_ite]
  exact completed_complete c (toNat_lt_two_pow_width s.params v)

/-- Settles O52: a block that is no longer `BUSY` has completed with a verdict of the machine, and the machine's invariant says that a
`false` verdict is right (R147). -/
theorem mrtestZeroMeansNotPrime : Obligations.MrtestZeroMeansNotPrime := by
  intro s t r rd ra rb n hacc hb hrun hbusy
  obtain ⟨hinv, hr, hd, hmu, hi, ht⟩ := hacc
  have hcases := run_mrtest_cases hd hi ht hb n (.check, s.rngpos)
  rw [mrtestGoOn_check hr hmu, hrun] at hcases
  obtain hgoes | ⟨v, c, hret, hdone⟩ := hcases
  · rw [Host.Outcome.next.inj hgoes] at hbusy
    nomatch hbusy
  · have hcomp : Completed s t rd v.toNat :=
      Host.Outcome.next.inj hdone ▸ completed_complete c (toNat_lt_two_pow_width s.params v)
    have hok : mrOk r.a r.b (.ret v) := mrOk_of_iterate_check_ret hret
    obtain ⟨-, hquiet⟩ := hinv.busyQuiet (by rw [State.busy, hr])
    have herr : t.status.err = false := by rw [hcomp.status, hquiet]
    rw [hcomp.written]
    cases v with
    | false => exact ⟨.inl rfl, herr, fun _ => hok, fun hp => absurd hp hok⟩
    | true => exact ⟨.inr rfl, herr, nofun, fun _ => rfl⟩

end Sys2Proof.Machine
end

section
/-! The candidate of the prime generator (R156), and the state in which `GENPRIME` has one that passed (R159, R162). -/

namespace Sys2Proof.Machine

theorem candidateOk.bitlen_eq {bits c : Nat} (h : candidateOk bits c) : bitlen c = bits := by
  obtain ⟨hlt, hle, -⟩ := h
  exact Machine.bitlen_eq hlt hle

theorem candidateOk.odd {bits c : Nat} (h : candidateOk bits c) : c % 2 = 1 := by
  obtain ⟨-, -, hodd⟩ := h
  exact hodd

/-- A candidate fits every register of at least `bits` bits (R156). -/
theorem candidateOk.lt_two_pow {bits c n : Nat} (h : candidateOk bits c) (hn : bits ≤ n) : c < 2 ^ n := by
  obtain ⟨hlt, -, -⟩ := h
  exact hlt.trans_le (Nat.pow_le_pow_right (by decide) hn)

/-- An odd number with its top bit set is above `2^(bits - 1)`, which is even (R156). -/
theorem candidateOk.two_pow_lt {bits c : Nat} (h : candidateOk bits c) (hbits : 2 ≤ bits) : 2 ^ (bits - 1) < c := by
  obtain ⟨-, hle, hodd⟩ := h
  have heven : 2 ^ (bits - 1) % 2 = 0 := by
    rw [Nat.pow_mod, Nat.mod_self, Nat.zero_pow (by omega)]
  exact lt_of_le_of_ne hle fun heq => by omega

/-- Between the two forced bits the candidate keeps those of the draw (R156). -/
theorem testBit_forceCandidate {bits t k : Nat} (hk : 1 ≤ k) (hk' : k ≤ bits - 2) :
    (forceCandidate bits t).testBit k = t.testBit k := by
  have htop : (2 ^ (bits - 1)).testBit k = false := Nat.testBit_two_pow_of_ne (by omega)
  have hbottom : (2 ^ 0).testBit k = false := Nat.testBit_two_pow_of_ne (by omega)
  rw [forceCandidate, Nat.testBit_or, Nat.testBit_or, htop, ← Nat.pow_zero 2, hbottom, Bool.or_false, Bool.or_false]

/-- Settles O54: both forced bits make the candidate odd and exactly `bits` long, and the bits between them are the draw's (R156). -/
theorem candidateHasExactlyTheBits : Obligations.CandidateHasExactlyTheBits := by
  refine ⟨fun _ _ _ _ => rfl, fun bits t hbits ht => ?_⟩
  have hok : candidateOk bits (forceCandidate bits t) := forceCandidate_ok (by omega) ht
  have hlow := hok.two_pow_lt hbits
  have hhigh := hok.lt_two_pow le_rfl
  refine ⟨?_, hok.bitlen_eq, hok.odd, hlow, Nat.le_sub_one_of_lt hhigh, fun k => testBit_forceCandidate⟩
  rintro rfl
  omega

/-- A step of `GENPRIME` (R162). -/
theorem exec_genprime {s : State} {r : Running} (rd ra rb : Reg) (hr : s.eng = .run r) :
    exec (.genprime rd ra rb) s = .next (genprimeStep rd r s) := onRunning_eq hr _

/-- In `PG_RET` `GENPRIME` completes with the candidate that passed (R162). -/
theorem exec_genprime_of_ret {s : State} {r : Running} {c : Nat} (rd ra rb : Reg) (hr : s.eng = .run r) (hmu : r.mu = .pg (.ret c)) :
    exec (.genprime rd ra rb) s = .next (s.complete rd c) := by
  rw [exec_genprime rd ra rb hr, genprimeStep, hmu]
  rfl

/-- Settles O55: the candidate that the generator's invariant speaks of fits the register, and the completion writes it (R159, R162). -/
theorem genprimeCompletes : Obligations.GenprimeCompletes := by
  intro s r c rd ra rb _ hr hmu hok
  obtain ⟨-, hwidth, -, hc, htable⟩ := hok
  have hdone : Completed s (s.complete rd c) rd c := completed_complete_here (hc.lt_two_pow hwidth)
  refine ⟨_, exec_genprime_of_ret rd ra rb hr hmu, hdone, rfl, ?_⟩
  rw [hdone.written]
  exact ⟨hc.bitlen_eq, hc.odd, htable.imp_right And.right⟩

end Sys2Proof.Machine
end

section
/-! `CTRL.CANCEL` (R31, R161): every step but that of `PG_HEAD` does the same whatever `CTRL` holds. -/

namespace Sys2Proof.Machine

/-- Two states that differ in `CTRL` at most. -/
def SameButCtrl (t t' : State) : Prop := t' = { t with ctrl := t'.ctrl }

/-- A test that does not look at `CTRL`. -/
theorem SameButCtrl.ite {p : Prop} [Decidable p] {t t' u u' : State} (ht : SameButCtrl t t') (hu : SameButCtrl u u') :
    SameButCtrl (if p then t else u) (if p then t' else u') := by
  split
  · exact ht
  · exact hu

section
variable (rd : Reg) (r : Running) (s : State) (c : Ctrl)

theorem modmulStep_sameButCtrl : SameButCtrl (modmulStep rd r s) (modmulStep rd r { s with ctrl := c }) := .ite rfl rfl

theorem montmulEntry_sameButCtrl : SameButCtrl (montmulEntry r s) (montmulEntry r { s with ctrl := c }) :=
  .ite rfl (.ite rfl (.ite rfl rfl))

theorem montmulStep_sameButCtrl : SameButCtrl (montmulStep rd r s) (montmulStep rd r { s with ctrl := c }) := by
  unfold montmulStep
  cases r.mu with
  | mont v => exact .ite rfl rfl
  | _ => exact montmulEntry_sameButCtrl r s c

theorem montr2Step_sameButCtrl : SameButCtrl (montr2Step rd r s) (montr2Step rd r { s with ctrl := c }) := .ite rfl (.ite rfl rfl)

theorem modexpEntry_sameButCtrl : SameButCtrl (modexpEntry rd r s) (modexpEntry rd r { s with ctrl := c }) :=
  .ite rfl (.ite rfl (.ite rfl rfl))

theorem modexpStep_sameButCtrl : SameButCtrl (modexpStep rd r s) (modexpStep rd r { s with ctrl := c }) := by
  unfold modexpStep
  cases r.mu with
  | exp v => exact .ite rfl rfl
  | _ => exact modexpEntry_sameButCtrl rd r s c

theorem randbitsStep_sameButCtrl : SameButCtrl (randbitsStep rd r s) (randbitsStep rd r { s with ctrl := c }) := .ite rfl rfl

theorem randbtwStep_sameButCtrl : SameButCtrl (randbtwStep rd r s) (randbtwStep rd r { s with ctrl := c }) := .ite rfl (.ite rfl rfl)

theorem mrtestStep_sameButCtrl : SameButCtrl (mrtestStep rd r s) (mrtestStep rd r { s with ctrl := c }) := by
  unfold mrtestStep
  cases mrOf r.mu with
  | check => exact .ite rfl rfl
  | _ => exact rfl

theorem genprimeTest_sameButCtrl (n : Nat) (m : MrState) (next : MrState × Nat) :
    SameButCtrl (genprimeTest r s n m next) (genprimeTest r { s with ctrl := c } n m next) := by
  cases m with
  | ret v => cases v <;> rfl
  | _ => rfl

theorem pgOf_eq_head_iff {mu : Mu} : pgOf mu = .head ↔ mu = .pg .head := by cases mu <;> simp [pgOf]

/-- The loop head is the one state of the generator that looks at `CTRL` (R161). -/
theorem genprimeStep_sameButCtrl (h : r.mu ≠ .pg .head) : SameButCtrl (genprimeStep rd r s) (genprimeStep rd r { s with ctrl := c }) := by
  unfold genprimeStep
  cases hg : pgOf r.mu with
  | check => exact .ite rfl (.ite rfl (.ite rfl rfl))
  | head => exact absurd (pgOf_eq_head_iff.mp hg) h
  | draw => exact rfl
  | test n m => exact genprimeTest_sameButCtrl r s c n m _
  | ret n => exact rfl

end

/-- An engine step at no loop head of the generator is the same whatever `CTRL` holds (R161). -/
theorem exec_sameButCtrl {i : Instr} {r : Running} {s t t' : State} {c : Ctrl} (hr : s.eng = .run r)
    (hhead : ∀ rd ra rb, i = .genprime rd ra rb → r.mu ≠ .pg .head) (ht : exec i s = .next t)
    (ht' : exec i { s with ctrl := c } = .next t') : SameButCtrl t t' := by
  have hr' : ({ s with ctrl := c } : State).eng = .run r := hr
  cases i <;> cases (onRunning_eq hr _).symm.trans ht <;> cases (onRunning_eq hr' _).symm.trans ht'
  · exact modmulStep_sameButCtrl _ r s c
  · exact montmulStep_sameButCtrl _ r s c
  · exact modexpStep_sameButCtrl _ r s c
  · exact montr2Step_sameButCtrl _ r s c
  · exact randbitsStep_sameButCtrl _ r s c
  · exact randbtwStep_sameButCtrl _ r s c
  · exact mrtestStep_sameButCtrl _ r s c
  · exact genprimeStep_sameButCtrl _ r s c (hhead _ _ _ rfl)

/-- In `PG_HEAD` `GENPRIME` looks at `CTRL` (R161, R162). -/
theorem exec_genprime_of_head {s : State} {r : Running} (rd ra rb : Reg) (hr : s.eng = .run r) (hmu : r.mu = .pg .head) :
    exec (.genprime rd ra rb) s = .next (genprimeHead r s) := by
  rw [exec_genprime rd ra rb hr, genprimeStep, hmu]
  rfl

/-- Settles O59: the head tests `CANCEL` (R161), and elsewhere the step is `exec_sameButCtrl`'s. -/
theorem cancelIsSampledAtTheLoopHeadOnly : Obligations.CancelIsSampledAtTheLoopHeadOnly := by
  refine ⟨fun s r rd ra rb hr hmu => ?_, fun s t t' r i b hr hhead ht ht' => ?_⟩
  · rw [exec_genprime_of_head rd ra rb hr hmu, genprimeHead]
    refine ⟨fun hhas hcancel => ?_, fun hno => ?_⟩
    · rw [if_pos ⟨hhas, hcancel⟩]
      rfl
    · rw [if_neg (by rintro ⟨hhas, hcancel⟩; simp [hhas, hcancel] at hno)]
      rfl
  · have hsame : SameButCtrl t t' := exec_sameButCtrl hr hhead ht ht'
    rw [hsame]
    exact ⟨rfl, rfl, rfl, rfl, rfl⟩

end Sys2Proof.Machine
end

section
/-! Where the Miller-Rabin machine's verdicts come from (R144, R145): from its entry the machine either reaches the verdict that
`is_probable_prime` returns for all but finitely many amounts of fuel, or draws witnesses for ever (R129). So a verdict that the machine
reaches is the function's. -/

namespace Sys2Proof.Machine

/-- From cursor `c` on every witness draw is rejected (R129, R140). -/
def NoWitnessFrom (cw : Nat) (xi : Nat → Nat) (n c : Nat) : Prop :=
  ∀ j, betweenRange 2 (n - 2) ≤ betweenDrawAt cw xi 2 (n - 2) c j

section
variable {cw : Nat} {xi : Nat → Nat} {n rounds : Nat}

/-- The draws after the first one are rejected too. -/
theorem NoWitnessFrom.next {c : Nat} (h : NoWitnessFrom cw xi n c) : NoWitnessFrom cw xi n (betweenDraw cw xi 2 (n - 2) c).2 :=
  fun j => betweenDrawAt_succ (xi := xi) c j ▸ h (j + 1)

/-- A rejection loop with an accepted draw returns for every fuel large enough (R126). -/
theorem eventually_betweenLoop {low high c : Nat} (h : ∃ j, betweenDrawAt cw xi low high c j < betweenRange low high) :
    ∃ v c', ∀ᶠ fuel in Filter.atTop, betweenLoop cw xi low high fuel c = some (v, c') :=
  ⟨_, _, Filter.eventually_atTop.mpr ⟨Nat.find h + 1, fun _ hfuel => betweenLoop_eq_some_iff.mpr
    ⟨Nat.find h, hfuel, Nat.find_spec h, fun _ hk => Nat.le_of_not_lt (Nat.find_min h hk), rfl, rfl⟩⟩⟩

/-! ### From the entry -/

/-- A round that is left begins with a draw (R145). -/
theorem mrReaches_draw_of_round (d s c : Nat) {r : Nat} (hr : r ≤ rounds) :
    MrReaches cw xi n rounds (.round d s r, c) (.draw d s r, c) :=
  mrReaches_of_mrStep (by simp only [mrStep, if_neg (Nat.not_lt_of_le hr)])

/-- A round that is left draws its witness and tests it (R140, R141). -/
theorem mrReaches_round (hn : 4 ≤ n) (d s : Nat) {r fuel c a c' : Nat} (hr : r ≤ rounds)
    (h : betweenLoop cw xi 2 (n - 2) fuel c = some (a, c')) :
    MrReaches cw xi n rounds (.round d s r, c) (if witnessPasses n d s a then .round d s (r + 1) else .ret false, c') :=
  ((mrReaches_draw_of_round d s c hr).trans (mrReaches_draw hn d s r h)).trans (mrReaches_exp c' d s r a)

/-- The remaining rounds return, or the machine comes to a draw from which it finds no witness (R129, R144). -/
theorem mrRounds_or_noWitness (hn : 4 ≤ n) (d s c : Nat) {k r : Nat} (hk : r + k = rounds + 1) :
    (∃ v c', ∀ᶠ fuel in Filter.atTop, mrRounds cw xi n d s fuel k c = some (v, c')) ∨
      ∃ r' c', MrReaches cw xi n rounds (.round d s r, c) (.draw d s r', c') ∧ NoWitnessFrom cw xi n c' := by
  induction k generalizing r c with
  | zero => exact .inl ⟨true, c, .of_forall fun _ => rfl⟩
  | succ k ih =>
    have hr : r ≤ rounds := by omega
    by_cases hacc : ∃ j, betweenDrawAt cw xi 2 (n - 2) c j < betweenRange 2 (n - 2)
    · obtain ⟨a, c₁, hloop⟩ := eventually_betweenLoop hacc
      obtain ⟨fuel, hfuel⟩ := hloop.exists
      have hround := mrReaches_round hn d s hr hfuel
      by_cases hpass : witnessPasses n d s a = true
      · rw [if_pos hpass] at hround
        obtain ⟨v, c', hrest⟩ | ⟨r', c', hrest, hno⟩ := ih c₁ (by omega : r + 1 + k = rounds + 1)
        · exact .inl ⟨v, c', (hloop.and hrest).mono fun _ ⟨h, h'⟩ => by rw [mrRounds, h]; exact (if_pos hpass).trans h'⟩
        · exact .inr ⟨r', c', hround.trans hrest, hno⟩
      · exact .inl ⟨false, c₁, hloop.mono fun _ h => by rw [mrRounds, h]; exact if_neg hpass⟩
    · exact .inr ⟨r, c, mrReaches_draw_of_round d s c hr, fun j => Nat.le_of_not_lt fun hj => hacc ⟨j, hj⟩⟩

/-- A survivor of the table comes to its first round (R137, R139). -/
theorem mrReaches_round_of_survivesTable (h : survivesTable n) (c : Nat) :
    MrReaches cw xi n rounds (.check, c) (.round (decompose n).1 (decompose n).2 1, c) := by
  obtain ⟨htwo, hdec⟩ := survivesTable_iff_trialDivide.mp h
  have htrial : MrReaches cw xi n rounds (.check, c) (.trial 0, c) :=
    mrReaches_of_mrStep (by simp only [mrStep, if_neg (Nat.not_lt_of_le htwo)])
  have htable := mrReaches_trial (cw := cw) (xi := xi) (n := n) (rounds := rounds) c (Nat.zero_add 14)
  rw [List.drop_zero, hdec] at htable
  exact (htrial.trans htable).trans (mrReaches_decompose c htwo)

/-- `is_probable_prime` returns, or the machine comes to a draw from which it finds no witness (R129, R144). -/
theorem isProbablePrime_or_noWitness (c : Nat) :
    (∃ v c', ∀ᶠ fuel in Filter.atTop, isProbablePrime cw xi n rounds fuel c = some (v, c')) ∨
      ∃ d s r c', MrReaches cw xi n rounds (.check, c) (.draw d s r, c') ∧ 4 ≤ n ∧ NoWitnessFrom cw xi n c' := by
  by_cases hsmall : n < 2
  · exact .inl ⟨false, c, .of_forall fun _ => if_pos hsmall⟩
  cases hdec : trialDivide n smallPrimes with
  | some v => exact .inl ⟨v, c, .of_forall fun _ => by rw [isProbablePrime, if_neg hsmall, hdec]⟩
  | none =>
    have hsurv : survivesTable n := survivesTable_iff_trialDivide.mpr ⟨Nat.le_of_not_lt hsmall, hdec⟩
    obtain ⟨v, c', hret⟩ | ⟨r, c', hreach, hno⟩ :=
      mrRounds_or_noWitness hsurv.four_le (decompose n).1 (decompose n).2 c (Nat.add_comm 1 rounds)
    · exact .inl ⟨v, c', hret.mono fun _ h => by rwa [isProbablePrime, if_neg hsmall, hdec]⟩
    · exact .inr ⟨_, _, r, c', (mrReaches_round_of_survivesTable hsurv c).trans hreach, hsurv.four_le, hno⟩

/-! ### The machine is deterministic -/

/-- Of two states that the machine comes to, one lies on the way to the other. -/
theorem MrReaches.total {p q q' : MrState × Nat} (h : MrReaches cw xi n rounds p q) (h' : MrReaches cw xi n rounds p q') :
    MrReaches cw xi n rounds q q' ∨ MrReaches cw xi n rounds q' q :=
  Relation.ReflTransGen.total_of_right_unique (fun _ _ _ h₁ h₂ => h₁.symm.trans h₂) h h'

/-- A verdict stays (R145). -/
theorem MrReaches.eq_of_ret {v : Bool} {c : Nat} {q : MrState × Nat} (h : MrReaches cw xi n rounds (.ret v, c) q) : q = (.ret v, c) := by
  induction h with
  | refl => rfl
  | tail _ hstep ih => rw [← hstep, ih, mrStep_ret]

/-- Without a witness the machine goes on drawing (R129). -/
theorem MrReaches.of_noWitness (hn : 4 ≤ n) {d s r c : Nat} (hno : NoWitnessFrom cw xi n c) {q : MrState × Nat}
    (h : MrReaches cw xi n rounds (.draw d s r, c) q) : ∃ c', q = (.draw d s r, c') ∧ NoWitnessFrom cw xi n c' := by
  induction h with
  | refl => exact ⟨c, rfl, hno⟩
  | tail _ hstep ih =>
    obtain ⟨c', rfl, hno'⟩ := ih
    have hrej := betweenDrawAt_zero (cw := cw) (xi := xi) c' ▸ hno' 0
    rw [mrStep_draw hn, if_neg (Nat.not_lt_of_le hrej)] at hstep
    exact ⟨_, hstep.symm, hno'.next⟩

/-- A verdict that the machine reaches is the function's, for every fuel large enough (R144, R145). -/
theorem eventually_isProbablePrime {c c' : Nat} {v : Bool} (h : MrReaches cw xi n rounds (.check, c) (.ret v, c')) :
    ∀ᶠ fuel in Filter.atTop, isProbablePrime cw xi n rounds fuel c = some (v, c') := by
  obtain ⟨v', c'', hfun⟩ | ⟨d, s, r, c'', hdraw, hn, hno⟩ :=
    isProbablePrime_or_noWitness (cw := cw) (xi := xi) (n := n) (rounds := rounds) c
  · obtain ⟨fuel, hfuel⟩ := hfun.exists
    have hsame : ((.ret v, c') : MrState × Nat) = (.ret v', c'') :=
      ((mrReaches_of_isProbablePrime hfuel).total h).elim MrReaches.eq_of_ret fun hback => hback.eq_of_ret.symm
    obtain ⟨rfl, rfl⟩ : v = v' ∧ c' = c'' := by simpa using hsame
    exact hfun
  · obtain hret | hback := hdraw.total h
    · obtain ⟨_, hq, -⟩ := hret.of_noWitness hn hno
      nomatch hq
    · nomatch hback.eq_of_ret

end

end Sys2Proof.Machine
end

section
/-! The generator's transitions (R157, R162) compute `generate_prime`, and a run of `GENPRIME` with a silent host and no request to cancel
follows them, to the candidate that passes or for ever (R160). -/

namespace Sys2Proof.Machine

/-- A transition of the generator with legal operands and no request to cancel, the cursor with it (R162). `PG_RET` has none: there the
command completes. -/
inductive PgTransition (cw : Nat) (xi : Nat → Nat) (bits rounds : Nat) : PgState × Nat → PgState × Nat → Prop where
  | enter (c : Nat) : PgTransition cw xi bits rounds (.check, c) (.head, c)
  | head (c : Nat) : PgTransition cw xi bits rounds (.head, c) (.draw, c)
  | draw (c : Nat) : PgTransition cw xi bits rounds (.draw, c)
      (.test (drawCandidate cw xi bits c).1 .check, (drawCandidate cw xi bits c).2)
  | test (n : Nat) {m : MrState} (c : Nat) (hv : ∀ v, m ≠ .ret v) : PgTransition cw xi bits rounds (.test n m, c)
      (.test n (mrStep cw xi n rounds m c).1, (mrStep cw xi n rounds m c).2)
  | passed (n c : Nat) : PgTransition cw xi bits rounds (.test n (.ret true), c) (.ret n, c)
  | failed (n c : Nat) : PgTransition cw xi bits rounds (.test n (.ret false), c) (.head, c)

/-- Some number of transitions leads from one state and cursor to another. -/
def PgReaches (cw : Nat) (xi : Nat → Nat) (bits rounds : Nat) : PgState × Nat → PgState × Nat → Prop :=
  Relation.ReflTransGen (PgTransition cw xi bits rounds)

section
variable {cw : Nat} {xi : Nat → Nat} {bits rounds : Nat}

/-! ### To the candidate that passes -/

/-- `PG_TEST` goes where the Miller-Rabin machine goes on the candidate (R162). -/
theorem pgReaches_test {n : Nat} {p q : MrState × Nat} (h : MrReaches cw xi n rounds p q) :
    PgReaches cw xi bits rounds (.test n p.1, p.2) (.test n q.1, q.2) := by
  refine Relation.ReflTransGen.lift' (fun p : MrState × Nat => ((.test n p.1, p.2) : PgState × Nat)) (fun p q hstep => ?_) _ _ h
  subst hstep
  by_cases hv : ∃ v, p.1 = .ret v
  · obtain ⟨v, hv⟩ := hv
    simp only [Function.onFun, hv, mrStep_ret]
    exact .refl
  · exact .single (.test n p.2 (not_exists.mp hv))

/-- From the loop head the generator draws a candidate and comes to its verdict (R156, R157). -/
theorem pgReaches_verdict {fuel c c' : Nat} {v : Bool}
    (h : isProbablePrime cw xi (drawCandidate cw xi bits c).1 rounds fuel (drawCandidate cw xi bits c).2 = some (v, c')) :
    PgReaches cw xi bits rounds (.head, c) (.test (drawCandidate cw xi bits c).1 (.ret v), c') :=
  .head (.head c) (.head (.draw c) (pgReaches_test (mrReaches_of_isProbablePrime h)))

/-- Where the candidate loop returns, the generator reaches its candidate and cursor (R157, R162). -/
theorem pgReaches_of_primeLoop {fuel n c v c' : Nat} (h : primeLoop cw xi bits rounds fuel n c = some (v, c')) :
    PgReaches cw xi bits rounds (.head, c) (.ret v, c') := by
  induction n generalizing c with
  | zero => nomatch h
  | succ n ih =>
    rw [primeLoop] at h
    split at h
    next => nomatch h
    next c₁ hpass =>
      obtain ⟨rfl, rfl⟩ := Prod.mk.inj (Option.some.inj h)
      exact (pgReaches_verdict hpass).tail (.passed _ c₁)
    next c₁ hfail => exact ((pgReaches_verdict hfail).tail (.failed _ c₁)).trans (ih h)

/-- What the candidate loop returns is a drawn candidate (R156, R157). -/
theorem candidateOk_of_primeLoop (hbits : 1 ≤ bits) {fuel n c v c' : Nat} (h : primeLoop cw xi bits rounds fuel n c = some (v, c')) :
    candidateOk bits v := by
  induction n generalizing c with
  | zero => nomatch h
  | succ n ih =>
    rw [primeLoop] at h
    split at h
    next => nomatch h
    next =>
      obtain ⟨rfl, rfl⟩ := Prod.mk.inj (Option.some.inj h)
      exact drawCandidate_ok cw xi c hbits
    next => exact ih h

theorem generatePrime_of_two_le (hbits : 2 ≤ bits) (fuel c : Nat) :
    generatePrime cw xi bits rounds fuel c = .ok (primeLoop cw xi bits rounds fuel fuel c) := if_neg (Nat.not_lt_of_le hbits)

/-! ### For ever -/

/-- For amounts of fuel and numbers of candidates as large as one likes the candidate loop from cursor `c` does not return (R160). -/
def NoPrimeFrom (cw : Nat) (xi : Nat → Nat) (bits rounds c : Nat) : Prop :=
  ∀ bound, ∃ fuel n, bound ≤ fuel ∧ bound ≤ n ∧ primeLoop cw xi bits rounds fuel n c = none

/-- Where the candidate loop does not return and the test of its first candidate does, the verdict is `false`, and the loop does not return
from the cursor after the test either (R157). -/
theorem NoPrimeFrom.of_verdict {c c' : Nat} {v : Bool} (h : NoPrimeFrom cw xi bits rounds c)
    (hverdict : ∀ᶠ fuel in Filter.atTop,
      isProbablePrime cw xi (drawCandidate cw xi bits c).1 rounds fuel (drawCandidate cw xi bits c).2 = some (v, c')) :
    v = false ∧ NoPrimeFrom cw xi bits rounds c' := by
  obtain ⟨enough, hfun⟩ := Filter.eventually_atTop.mp hverdict
  have hnone (bound : Nat) : ∃ fuel n, bound ≤ fuel ∧ bound ≤ n ∧ v = false ∧ primeLoop cw xi bits rounds fuel n c' = none := by
    obtain ⟨fuel, n, hfuel, hn, hnone⟩ := h (bound + enough + 1)
    obtain ⟨n, rfl⟩ : ∃ k, n = k + 1 := ⟨n - 1, by omega⟩
    rw [primeLoop, hfun fuel (by omega)] at hnone
    cases v with
    | true => nomatch hnone
    | false => exact ⟨fuel, n, by omega, by omega, rfl, hnone⟩
  obtain ⟨-, -, -, -, hv, -⟩ := hnone 0
  exact ⟨hv, fun bound => (hnone bound).imp fun fuel ⟨n, hfuel, hn, _, hloop⟩ => ⟨n, hfuel, hn, hloop⟩⟩

/-- Where the generator can be on a stream on which `generate_prime` does not return: at a candidate that it drew from such a cursor and
is still testing, but never at one that passed (R160). -/
def Searching (cw : Nat) (xi : Nat → Nat) (bits rounds : Nat) : PgState × Nat → Prop
  | (.check, c) => NoPrimeFrom cw xi bits rounds c
  | (.head, c) => NoPrimeFrom cw xi bits rounds c
  | (.draw, c) => NoPrimeFrom cw xi bits rounds c
  | (.test n m, c) => ∃ c₀, NoPrimeFrom cw xi bits rounds c₀ ∧ n = (drawCandidate cw xi bits c₀).1 ∧
      MrReaches cw xi n rounds (.check, (drawCandidate cw xi bits c₀).2) (m, c)
  | (.ret _, _) => False

/-- The search has a next transition, and it goes on after it (R160). -/
theorem Searching.exists_transition {p : PgState × Nat} (h : Searching cw xi bits rounds p) :
    ∃ q, PgTransition cw xi bits rounds p q ∧ Searching cw xi bits rounds q := by
  obtain ⟨g, c⟩ := p
  cases g with
  | check => exact ⟨_, .enter c, h⟩
  | head => exact ⟨_, .head c, h⟩
  | draw => exact ⟨_, .draw c, c, h, rfl, .refl⟩
  | test n m =>
    obtain ⟨c₀, hno, rfl, hreach⟩ := h
    by_cases hv : ∃ v, m = .ret v
    · obtain ⟨v, rfl⟩ := hv
      obtain ⟨rfl, hno'⟩ := hno.of_verdict (eventually_isProbablePrime hreach)
      exact ⟨_, .failed _ c, hno'⟩
    · exact ⟨_, .test _ c (not_exists.mp hv), c₀, hno, rfl, hreach.tail rfl⟩
  | ret n => exact h.elim

end

/-! ### The command -/

/-- The block with the generator at a state and cursor. -/
def genprimeGoOn (r : Running) (s : State) (p : PgState × Nat) : State := (s.setCursor p.2).goOn r (.pg p.1)

section
variable {s : State} {r : Running} {rd ra rb : Reg}

/-- At acceptance the generator stands at its entry (R33). -/
theorem genprimeGoOn_check (hr : s.eng = .run r) (hmu : r.mu = .pg .check) : genprimeGoOn r s (.check, s.rngpos) = s := by
  rw [genprimeGoOn, setCursor_self, ← hmu, goOn_self hr]

variable (hd : decode r.word = .command (.genprime rd ra rb)) (hi : s.inbox = []) (ht : s.tail = .silent)
include hd hi ht

/-- In `PG_RET` the block's step completes `GENPRIME` (R162). -/
theorem step_genprimeGoOn_ret (v c : Nat) : step (genprimeGoOn r s (.ret v, c)) = .next ((s.setCursor c).complete rd v) := by
  have hrun : (genprimeGoOn r s (.ret v, c)).eng = .run { r with mu := .pg (.ret v) } := rfl
  rw [step_of_running (s := genprimeGoOn r s (.ret v, c)) hi ht hrun hd, exec_genprime_of_ret rd ra rb hrun rfl]
  rfl

variable (hcancel : s.ctrl.cancel = false) (hbits : 2 ≤ r.a) (hwidth : r.a ≤ s.params.width) (hrounds : r.b ≠ 0)
include hcancel hbits hwidth hrounds

/-- With legal operands and no request to cancel a step of the block is a transition of the generator (R162). -/
theorem step_genprimeGoOn {p q : PgState × Nat} (h : PgTransition s.params.chunkBits s.xi r.a r.b p q) :
    step (genprimeGoOn r s p) = .next (genprimeGoOn r s q) := by
  have hrun : (genprimeGoOn r s p).eng = .run { r with mu := .pg p.1 } := rfl
  rw [step_of_running (s := genprimeGoOn r s p) hi ht hrun hd, exec_genprime rd ra rb hrun]
  refine congrArg _ ?_
  cases h with
  | enter c => exact (if_neg (Nat.not_lt_of_le hbits)).trans ((if_neg (Nat.not_lt_of_le hwidth)).trans (if_neg hrounds))
  | head c => exact if_neg fun ⟨_, hset⟩ => Bool.false_ne_true (hcancel.symm.trans hset)
  | draw c => rfl
  | test n c hv => exact genprimeTest_of_running hv _ _ n _
  | passed n c => rfl
  | failed n c => rfl

/-- A run takes the block wherever the generator's transitions lead (R162). -/
theorem run_of_pgReaches {p q : PgState × Nat} (h : PgReaches s.params.chunkBits s.xi r.a r.b p q) :
    ∃ k, Host.Core.run Sys2Proof.core k (genprimeGoOn r s p) = .next (genprimeGoOn r s q) := by
  induction h using Relation.ReflTransGen.head_induction_on with
  | refl => exact ⟨0, rfl⟩
  | head hstep _ ih =>
    obtain ⟨k, hk⟩ := ih
    exact ⟨k + 1, by rw [run_succ k (step_genprimeGoOn hd hi ht hcancel hbits hwidth hrounds hstep), hk]⟩

/-- Where the candidate loop returns, `GENPRIME` completes with its candidate and cursor (R157, R162). -/
theorem run_of_primeLoop {fuel n c v c' : Nat} (h : primeLoop s.params.chunkBits s.xi r.a r.b fuel n c = some (v, c')) :
    ∃ k, Host.Core.run Sys2Proof.core k (genprimeGoOn r s (.check, c)) = .next ((s.setCursor c').complete rd v) := by
  obtain ⟨k, hk⟩ := run_of_pgReaches hd hi ht hcancel hbits hwidth hrounds (.head (.enter c) (pgReaches_of_primeLoop h))
  exact ⟨k + 1, by rw [run_add 1 hk, run_succ 0 (step_genprimeGoOn_ret hd hi ht v c'), run_zero]⟩

/-- While the generator searches, `GENPRIME` goes on (R160). -/
theorem run_of_searching (n : Nat) {p : PgState × Nat} (h : Searching s.params.chunkBits s.xi r.a r.b p) :
    ∃ q, Host.Core.run Sys2Proof.core n (genprimeGoOn r s p) = .next (genprimeGoOn r s q) := by
  induction n generalizing p with
  | zero => exact ⟨p, rfl⟩
  | succ n ih =>
    obtain ⟨p', hstep, h'⟩ := h.exists_transition
    rw [run_succ n (step_genprimeGoOn hd hi ht hcancel hbits hwidth hrounds hstep)]
    exact ih h'

end

/-- Settles O56: the generator reaches the function's candidate and cursor, and the run of `GENPRIME` ends with them (R157, R162). -/
theorem genprimeRunReturnsTheFunction : Obligations.GenprimeRunReturnsTheFunction := by
  intro s r rd ra rb fuel v c hacc hcancel hbits hwidth hrounds hfun
  obtain ⟨-, hr, hd, hmu, hi, ht⟩ := hacc
  rw [generatePrime_of_two_le hbits, Res.ok.injEq] at hfun
  obtain ⟨k, hk⟩ := run_of_primeLoop hd hi ht hcancel hbits hwidth hrounds hfun
  rw [genprimeGoOn_check hr hmu] at hk
  have hc : candidateOk r.a v := candidateOk_of_primeLoop (Nat.one_le_of_lt hbits) hfun
  exact ⟨k, _, hk, completed_complete c (hc.lt_two_pow hwidth), rfl⟩

/-- Settles O58: `PrimeFair` says that the function returns, so the run ends with its value, a drawn candidate (R156, R160). -/
theorem genprimeEndsUnderFairness : Obligations.GenprimeEndsUnderFairness := by
  intro s r rd ra rb hacc hcancel hbits hwidth hrounds hfair
  obtain ⟨fuel, ⟨v, c⟩, hfun⟩ := hfair
  obtain ⟨k, t, hrun, hdone, -⟩ := genprimeRunReturnsTheFunction s r rd ra rb fuel v c hacc hcancel hbits hwidth hrounds hfun
  rw [generatePrime_of_two_le hbits, Res.ok.injEq] at hfun
  have hc : candidateOk r.a v := candidateOk_of_primeLoop (Nat.one_le_of_lt hbits) hfun
  exact ⟨k, t, v, hrun, hdone, hc.bitlen_eq, hc.odd⟩

/-- Settles O57: where the function returns for no fuel, the generator searches for ever (R160). -/
theorem genprimeHangs : Obligations.GenprimeHangs := by
  intro s r rd ra rb hacc hcancel hbits hwidth hrounds hnone n
  obtain ⟨-, hr, hd, hmu, hi, ht⟩ := hacc
  have hno : NoPrimeFrom s.params.chunkBits s.xi r.a r.b s.rngpos := fun bound =>
    ⟨bound, bound, le_rfl, le_rfl, Res.ok.inj ((generatePrime_of_two_le hbits bound s.rngpos).symm.trans (hnone bound))⟩
  have hstart : Searching s.params.chunkBits s.xi r.a r.b (.check, s.rngpos) := hno
  obtain ⟨q, hq⟩ := run_of_searching hd hi ht hcancel hbits hwidth hrounds n hstart
  rw [genprimeGoOn_check hr hmu] at hq
  exact ⟨_, hq, rfl, rfl, rfl⟩

end Sys2Proof.Machine
end

section
/-! What the host's writes reach (R26 to R33, R176): no write moves the cursor, only an accepted command or an illegal word moves the
engine, and a write changes no operand register but the one whose window it hits. -/

namespace Sys2Proof.Machine

/-- The three things a write to `CMD` can do (R33). -/
theorem State.issue_cases (s : State) (w : CmdWord) :
    ((s.busy = true ∨ s.status.err = true) ∧ s.issue w = s.markDrop) ∨
    (s.busy = false ∧ s.status.err = false ∧ ∃ i, decode w = .command i ∧ s.issue w = s.accept w i) ∨
    (s.busy = false ∧ s.status.err = false ∧ ∃ why, decode w = .illegal why ∧ s.issue w = s.clearDone.raise .illegalCommand) := by
  by_cases hfree : s.busy = true ∨ s.status.err = true
  · exact .inl ⟨hfree, State.issue_of_not_free hfree w⟩
  · simp only [not_or, Bool.not_eq_true] at hfree
    obtain ⟨hb, he⟩ := hfree
    cases hd : decode w with
    | command i => exact .inr (.inl ⟨hb, he, i, rfl, State.issue_of_command hb he hd⟩)
    | illegal why => exact .inr (.inr ⟨hb, he, why, rfl, State.issue_of_illegal hb he hd⟩)

/-- What no write to `CMD` changes, dropped or not. -/
theorem State.issue_keeps (s : State) (w : CmdWord) :
    (s.issue w).rngpos = s.rngpos ∧ (s.issue w).params = s.params ∧ (s.issue w).epoch = s.epoch ∧ (s.issue w).regs = s.regs := by
  obtain ⟨-, e⟩ | ⟨-, -, i, -, e⟩ | ⟨-, -, why, -, e⟩ := s.issue_cases w
  all_goals rw [e]; exact ⟨rfl, rfl, rfl, rfl⟩

/-- What a write to an operand window does: the limb is stored, or the write is dropped (R54, R59). -/
theorem writeWindow_cases (s : State) (i : Reg) (j : Nat) (v : Limb) :
    writeWindow s i j v = s.markDrop ∨ writeWindow s i j v = s.setOperand i (limbSet (s.operand i) j v) := by
  cases hb : s.busy with
  | true => exact .inl (writeWindow_of_busy hb i j v)
  | false => exact .inr (writeWindow_of_idle hb i j v)

/-- No write moves the cursor, the parameters or the number of the reset (R35, R176). -/
theorem writeRegion_keeps (s : State) (g : Region) (v : Limb) :
    (writeRegion s g v).rngpos = s.rngpos ∧ (writeRegion s g v).params = s.params ∧ (writeRegion s g v).epoch = s.epoch := by
  cases g with
  | cmd =>
    obtain ⟨hrngpos, hparams, hepoch, -⟩ := s.issue_keeps v
    exact ⟨hrngpos, hparams, hepoch⟩
  | ctrl => exact ⟨s.writeCtrl_rngpos v, s.writeCtrl_params v, s.writeCtrl_epoch v⟩
  | window i j => obtain e | e := writeWindow_cases s i j v <;> rw [writeRegion, e] <;> exact ⟨rfl, rfl, rfl⟩
  | _ => exact ⟨rfl, rfl, rfl⟩

/-- A write moves the engine only when it is a write to `CMD` that is not dropped (R33, R36). -/
theorem writeRegion_eng {s : State} {g : Region} (h : g ≠ .cmd ∨ s.busy = true ∨ s.status.err = true) (v : Limb) :
    (writeRegion s g v).eng = s.eng := by
  cases g with
  | cmd => rw [writeRegion, State.issue_of_not_free (h.resolve_left (absurd rfl)), State.markDrop_eng]
  | ctrl => exact s.writeCtrl_eng v
  | window i j => obtain e | e := writeWindow_cases s i j v <;> rw [writeRegion, e] <;> rfl
  | _ => rfl

/-- A write changes no operand register but the one whose window it hits (R22, R54). -/
theorem writeRegion_operand_other {s : State} {g : Region} {q : Reg} (h : ∀ j, g ≠ .window q j) (v : Limb) :
    (writeRegion s g v).operand q = s.operand q := by
  cases g with
  | cmd =>
    obtain ⟨-, -, -, hregs⟩ := s.issue_keeps v
    rw [writeRegion, State.operand, State.operand, hregs]
  | ctrl => exact s.writeCtrl_operand v q
  | window i j =>
    have hq : q ≠ i := fun e => h j (e ▸ rfl)
    obtain e | e := writeWindow_cases s i j v
    · rw [writeRegion, e, State.markDrop_operand]
    · rw [writeRegion, e, State.setOperand_operand_other hq]
  | _ => rfl

/-- Of a running command a read shows `BUSY` and nothing else, and of the cursor nothing (R35, R36). -/
theorem readRegion_of_running {s : State} {r : Running} (hr : s.eng = .run r) (q : Running) (c : Nat) (g : Region) :
    readRegion { s with eng := .run q, rngpos := c } g = readRegion s g := by
  cases g with
  | status =>
    have hb : State.busy { s with eng := .run q, rngpos := c } = s.busy := (State.busy_of_run hr).symm
    rw [readRegion, readRegion, State.statusWord, State.statusWord, hb]
  | _ => rfl

/-- Settles O16: each part is a rule about writes or reads above (R35, R36, R176). -/
theorem hostCannotReachTheEngine : Obligations.HostCannotReachTheEngine := by
  refine ⟨fun s g v => ?_, fun s r q c g hr => readRegion_of_running hr q c g⟩
  obtain ⟨hrngpos, hparams, hepoch⟩ := writeRegion_keeps s g v
  exact ⟨hrngpos, hparams, hepoch, fun hg => writeRegion_eng (.inl hg) v, fun hb => writeRegion_eng (.inr (.inl hb)) v,
    fun i hi => writeRegion_operand_other hi v⟩

end Sys2Proof.Machine
end

section
/-! Which fault an engine step takes (R166, R172, R173): at a command's entry the first operand check that holds, past the entry `Cancelled`
at the loop head of `GENPRIME` and no other. -/

namespace Sys2Proof.Machine

/-- The record of a fault, `ERR` and `CAUSE`, is the same in both states. -/
def SameRecord (s t : State) : Prop := t.status.err = s.status.err ∧ t.cause = s.cause

/-- A step that sets `ERR` does not keep the record. -/
theorem SameRecord.not_of_err {s t : State} (hs : s.status.err = false) (ht : t.status.err = true) : ¬SameRecord s t :=
  fun ⟨herr, _⟩ => Bool.false_ne_true (hs.symm.trans (herr.symm.trans ht))

/-- The step from `s` to `t` takes the given fault, or none and leaves the record of a fault as it was. -/
def TakesFault (s : State) (fault : Option FaultCause) (t : State) : Prop :=
  match fault with
  | some f => t = s.raise f
  | none => SameRecord s t

/-- One check of a command's entry and of the list of its checks (R172): if it holds its fault is taken, else the rest decides. -/
theorem TakesFault.check {p : Prop} [Decidable p] {s t : State} {f : FaultCause} {rest : Option FaultCause} (h : TakesFault s rest t) :
    TakesFault s (if p then some f else rest) (if p then s.raise f else t) := by
  split
  · exact rfl
  · exact h

/-- The command's next step is its entry step, in which the operands are checked. Loop variables of another unit count as the entry. -/
def AtEntry (i : Instr) (mu : Mu) : Prop :=
  match i with
  | .montmul .. => ∀ v, mu ≠ .mont v
  | .modexp .. => ∀ v, mu ≠ .exp v
  | .mrtest .. => mrOf mu = .check
  | .genprime .. => pgOf mu = .check
  | _ => True

/-- A command is accepted at its entry (R33). -/
theorem atEntry_startMu (i : Instr) : AtEntry i (startMu i) := by
  cases i with
  | montmul | modexp => exact fun v => nofun
  | mrtest | genprime => exact rfl
  | _ => trivial

/-- Among the loop variables of a command's own unit, the entry is where acceptance leaves it. -/
theorem eq_startMu_of_atEntry {p : Params} {i : Instr} {r : Running} (hu : unitOk p i r) (h : AtEntry i r.mu) : r.mu = startMu i := by
  cases i with
  | montmul rd ra rb rc =>
    obtain hmu | ⟨v, hmu, -⟩ := unitOk_montmul_iff.mp hu
    · exact hmu
    · exact absurd hmu (h v)
  | modexp rd ra rb rc =>
    obtain hmu | ⟨v, hmu, -⟩ := unitOk_modexp_iff.mp hu
    · exact hmu
    · exact absurd hmu (h v)
  | mrtest rd ra rb =>
    obtain ⟨m, hmu, -⟩ := unitOk_mrtest_iff.mp hu
    rw [AtEntry, hmu] at h
    exact hmu.trans (congrArg Mu.mr h)
  | genprime rd ra rb =>
    obtain ⟨g, hmu, -⟩ := unitOk_genprime_iff.mp hu
    rw [AtEntry, hmu] at h
    exact hmu.trans (congrArg Mu.pg h)
  | _ =>
    unfold unitOk at hu
    cases hmu : r.mu with
    | start => rfl
    | _ => simp [hmu] at hu

section
variable {s : State} {r : Running} (rd ra rb rc : Reg)

theorem modmulStep_takesFault : TakesFault s (firstFault s.params (.modmul rd ra rb rc) r) (modmulStep rd r s) := .check ⟨rfl, rfl⟩

theorem montmulEntry_takesFault : TakesFault s (firstFault s.params (.montmul rd ra rb rc) r) (montmulEntry r s) :=
  .check (.check (.check ⟨rfl, rfl⟩))

theorem montmulStep_of_entry (h : ∀ v, r.mu ≠ .mont v) : montmulStep rd r s = montmulEntry r s := by
  unfold montmulStep
  split
  next v hmu => exact absurd hmu (h v)
  all_goals rfl

theorem modexpEntry_takesFault : TakesFault s (firstFault s.params (.modexp rd ra rb rc) r) (modexpEntry rd r s) := by
  refine .check (.check ?_)
  split
  · exact ⟨rfl, rfl⟩
  · exact ⟨rfl, rfl⟩

theorem modexpStep_of_entry (h : ∀ v, r.mu ≠ .exp v) : modexpStep rd r s = modexpEntry rd r s := by
  unfold modexpStep
  split
  next v hmu => exact absurd hmu (h v)
  all_goals rfl

theorem montr2Step_takesFault : TakesFault s (firstFault s.params (.montr2 rd ra) r) (montr2Step rd r s) := .check (.check ⟨rfl, rfl⟩)

theorem randbitsStep_takesFault : TakesFault s (firstFault s.params (.randbits rd ra) r) (randbitsStep rd r s) := .check ⟨rfl, rfl⟩

theorem randbtwStep_takesFault : TakesFault s (firstFault s.params (.randbtw rd ra rb) r) (randbtwStep rd r s) := by
  refine .check ?_
  unfold randbtwDraw
  split
  · exact ⟨rfl, rfl⟩
  · exact ⟨rfl, rfl⟩

theorem mrtestCheck_takesFault : TakesFault s (firstFault s.params (.mrtest rd ra rb) r) (mrtestCheck r s) := .check ⟨rfl, rfl⟩

theorem genprimeCheck_takesFault : TakesFault s (firstFault s.params (.genprime rd ra rb) r) (genprimeCheck r s) :=
  .check (.check (.check ⟨rfl, rfl⟩))

/-- Past its entry the Miller-Rabin machine runs `MRTEST` to its verdict without a fault (R142, R145). -/
theorem mrtestStep_sameRecord (h : mrOf r.mu ≠ .check) : SameRecord s (mrtestStep rd r s) := by
  unfold mrtestStep
  cases hm : mrOf r.mu with
  | check => exact absurd hm h
  | _ => exact ⟨rfl, rfl⟩

theorem genprimeTest_sameRecord (c : Nat) (m : MrState) (next : MrState × Nat) : SameRecord s (genprimeTest r s c m next) := by
  unfold genprimeTest
  split
  all_goals exact ⟨rfl, rfl⟩

/-- Past its entry `GENPRIME` can fault at the loop head only, where it is cancelled (R161, R162). -/
theorem genprimeStep_past_entry (h : pgOf r.mu ≠ .check) :
    (genprimeStep rd r s = s.raise .cancelled ∧ s.params.hasCancel = true) ∨ SameRecord s (genprimeStep rd r s) := by
  unfold genprimeStep
  cases hg : pgOf r.mu with
  | check => exact absurd hg h
  | head =>
    dsimp only
    unfold genprimeHead
    split
    next hc => exact .inl ⟨rfl, hc.1⟩
    next => exact .inr ⟨rfl, rfl⟩
  | test c m => exact .inr (genprimeTest_sameRecord c m _)
  | _ => exact .inr ⟨rfl, rfl⟩

end

/-- At its entry a command takes the first fault of its checks, or none (R172). -/
theorem exec_takesFault_of_entry {i : Instr} {r : Running} {s t : State} (hr : s.eng = .run r) (h : AtEntry i r.mu)
    (ht : exec i s = .next t) : TakesFault s (firstFault s.params i r) t := by
  cases i <;> cases (onRunning_eq hr _).symm.trans ht
  · exact modmulStep_takesFault _ _ _ _
  · rw [montmulStep_of_entry _ h]
    exact montmulEntry_takesFault _ _ _ _
  · rw [modexpStep_of_entry _ h]
    exact modexpEntry_takesFault _ _ _ _
  · exact montr2Step_takesFault _ _
  · exact randbitsStep_takesFault _ _
  · exact randbtwStep_takesFault _ _ _
  · rw [mrtestStep, show mrOf r.mu = .check from h]
    exact mrtestCheck_takesFault _ _ _
  · rw [genprimeStep, show pgOf r.mu = .check from h]
    exact genprimeCheck_takesFault _ _ _

/-- Past its entry a command takes no fault, but that `GENPRIME` can be cancelled (R161, R172). -/
theorem exec_past_entry {i : Instr} {r : Running} {s t : State} (hr : s.eng = .run r) (h : ¬AtEntry i r.mu) (ht : exec i s = .next t) :
    (t = s.raise .cancelled ∧ s.params.hasCancel = true ∧ ∃ rd ra rb, i = .genprime rd ra rb) ∨ SameRecord s t := by
  cases i with
  | montmul rd ra rb rc =>
    obtain ⟨v, hmu⟩ : ∃ v, r.mu = .mont v := by simpa [AtEntry] using h
    cases (exec_montmul_of_mont hr hmu).symm.trans ht
    right
    unfold montmulLoopStep
    split
    · exact ⟨rfl, rfl⟩
    · exact ⟨rfl, rfl⟩
  | modexp rd ra rb rc =>
    obtain ⟨v, hmu⟩ : ∃ v, r.mu = .exp v := by simpa [AtEntry] using h
    cases (exec_modexp_of_exp hr hmu).symm.trans ht
    right
    unfold modexpLoopStep
    split
    · exact ⟨rfl, rfl⟩
    · exact ⟨rfl, rfl⟩
  | mrtest rd ra rb =>
    cases (onRunning_eq hr _).symm.trans ht
    exact .inr (mrtestStep_sameRecord rd h)
  | genprime rd ra rb =>
    cases (onRunning_eq hr _).symm.trans ht
    obtain ⟨hraise, hp⟩ | hsame := genprimeStep_past_entry rd h
    · exact .inl ⟨hraise, hp, rd, ra, rb, rfl⟩
    · exact .inr hsame
  | _ => exact absurd trivial h

/-- Settles O20: the order of a write to `CMD` is `State.issue`'s, the order of the operand checks is the entry's, and past the entry only
`exec_past_entry`'s fault is left (R33, R172). -/
theorem checksReportTheFirstFault : Obligations.ChecksReportTheFirstFault := by
  refine ⟨fun s w => ⟨fun h => State.issue_of_not_free h w, fun hb he => ⟨fun why hd => ?_, fun i hd => ?_⟩⟩, fun s i r hr hmu => ?_,
    fun s t i r hr hu hmu ht hs herr => ?_⟩
  · rw [State.issue_of_illegal hb he hd]
    exact ⟨rfl, rfl⟩
  · rw [State.issue_of_command hb he hd]
    exact ⟨rfl, he, rfl⟩
  · obtain ⟨t, ht⟩ := (exec_next_iff i s).mpr ⟨r, hr⟩
    have hentry : TakesFault s (firstFault s.params i r) t := exec_takesFault_of_entry hr (hmu ▸ atEntry_startMu i) ht
    refine ⟨fun f hf => ?_, fun hno => ?_⟩
    · rw [hf] at hentry
      rw [ht, show t = s.raise f from hentry, raise_eq_faulted]
    · rw [hno] at hentry
      exact ⟨t, ht, hentry⟩
  · obtain ⟨rfl, -, -⟩ | hsame := exec_past_entry hr (fun h => hmu (eq_startMu_of_atEntry hu h)) ht
    · rfl
    · exact absurd hsame (SameRecord.not_of_err hs herr)

/-- Settles O19: of the moves of an engine step a fault alone sets `ERR`, and an illegal word is raised within the issue (R173). -/
theorem faultEntry : Obligations.FaultEntry := by
  refine ⟨fun s t i ht hs herr => ?_, fun s w why hb he hd => State.issue_of_illegal hb he hd⟩
  obtain ⟨r, hr⟩ := (exec_next_iff i s).mp ⟨t, ht⟩
  obtain ⟨f, rfl⟩ | ⟨c, v, rfl⟩ | ⟨c, q, mu, rfl, -⟩ := exec_moves ht
  · exact ⟨⟨f, rfl⟩, rfl, fun h => h.done_of_busy (State.busy_of_run hr)⟩
  · simp [hs] at herr
  · simp [hs] at herr

/-! ### The rows of the fault table -/

/-- The fault is in the command's rows of the table, and one that the parameters allow (R12, R13, R166). -/
structure Listed (p : Params) (i : Instr) (f : FaultCause) : Prop where
  row : f ∈ raisable i
  cancelled : f = .cancelled → p.hasCancel = true
  zeroExponent : f = .zeroExponent → p.zeroExpFaults = true

/-- No command raises `NegativeExponent`: an operand is never negative (R166). -/
theorem Listed.ne_negativeExponent {p : Params} {i : Instr} {f : FaultCause} (h : Listed p i f) : f ≠ .negativeExponent := by
  rintro rfl
  have hrow := h.row
  cases i <;> simp [raisable] at hrow

/-- The operand checks report listed faults: `ZeroExponent` stands behind its parameter, and none of them is `Cancelled`. -/
theorem firstFault_listed {p : Params} {i : Instr} {r : Running} {f : FaultCause} (h : firstFault p i r = some f) : Listed p i f := by
  cases i with
  | modexp rd ra rb rc =>
    dsimp only [firstFault] at h
    split_ifs at h with hc hb
    · cases h
      exact ⟨by simp [raisable], nofun, nofun⟩
    · cases h
      exact ⟨by simp [raisable], nofun, fun _ => hb.2⟩
  | _ =>
    dsimp only [firstFault] at h
    split_ifs at h
    all_goals
      cases h
      exact ⟨by simp [raisable], nofun, nofun⟩

/-- An engine step takes a listed fault or none (R166). -/
theorem exec_listed_or_sameRecord {i : Instr} {s t : State} (ht : exec i s = .next t) :
    (∃ f, Listed s.params i f ∧ t = s.raise f) ∨ SameRecord s t := by
  obtain ⟨r, hr⟩ := (exec_next_iff i s).mp ⟨t, ht⟩
  by_cases hentry : AtEntry i r.mu
  · have htakes := exec_takesFault_of_entry hr hentry ht
    cases hf : firstFault s.params i r with
    | some f => exact .inl ⟨f, firstFault_listed hf, by rwa [hf] at htakes⟩
    | none => exact .inr (by rwa [hf] at htakes)
  · obtain ⟨rfl, hp, rd, ra, rb, rfl⟩ | hsame := exec_past_entry hr hentry ht
    · exact .inl ⟨.cancelled, ⟨by simp [raisable], fun _ => hp, nofun⟩, rfl⟩
    · exact .inr hsame

/-- What a step may leave in `CAUSE`: what was there, no fault, or a fault that can occur (R166). -/
def CauseStep (s t : State) : Prop :=
  t.cause = s.cause ∨ t.cause = noCause ∨ ∃ f : FaultCause, f ≠ .negativeExponent ∧ t.cause = f.recorded

theorem CauseStep.raise (s u : State) {f : FaultCause} (h : f ≠ .negativeExponent) : CauseStep s (u.raise f) :=
  .inr (.inr ⟨f, h, rfl⟩)

theorem engineStep_causeStep {s t : State} (ht : engineStep s = .next t) : CauseStep s t := by
  obtain ⟨-, rfl⟩ | ⟨r, i, -, -, hx⟩ | ⟨r, why, -, -, rfl⟩ := engineStep_cases ht
  · exact .inl rfl
  · obtain ⟨f, hf, rfl⟩ | ⟨-, hcause⟩ := exec_listed_or_sameRecord hx
    · exact .raise s s hf.ne_negativeExponent
    · exact .inl hcause
  · exact .raise s s nofun

/-- A write changes `CAUSE` by clearing `ERR`, or as an illegal word (R30, R173). -/
theorem writeRegion_causeStep (s : State) (g : Region) (v : Limb) : CauseStep s (writeRegion s g v) := by
  cases g with
  | cmd =>
    rw [writeRegion]
    obtain ⟨-, e⟩ | ⟨-, -, i, -, e⟩ | ⟨-, -, why, -, e⟩ := s.issue_cases v
    · exact .inl (by rw [e, State.markDrop_cause])
    · exact .inl (by rw [e, State.accept_cause])
    · rw [e]
      exact .raise s s.clearDone nofun
  | status =>
    rw [CauseStep, writeRegion, State.writeStatus_cause]
    split
    · exact .inr (.inl rfl)
    · exact .inl rfl
  | ctrl => exact .inl (s.writeCtrl_cause v)
  | window i j => exact .inl (by obtain e | e := writeWindow_cases s i j v <;> rw [writeRegion, e] <;> rfl)
  | _ => exact .inl rfl

theorem turnStep_causeStep {s t : State} (ht : turnStep s = .next t) : CauseStep s t := by
  obtain ⟨-, hx⟩ | ⟨_, _, rest, _, -, -, rfl⟩ | ⟨_, _, v, rest, region, -, -, rfl⟩ | ⟨rest, -, rfl⟩ | ⟨rest, -, hx⟩ |
    ⟨rest, -, -, hx⟩ | ⟨rest, -, -, rfl⟩ := turnStep_cases ht
  · exact engineStep_causeStep hx
  · exact .inl rfl
  · exact writeRegion_causeStep (s.popInbox rest) region v
  · exact .inr (.inl rfl)
  · exact engineStep_causeStep (s := s.popInbox rest) hx
  · exact engineStep_causeStep hx
  · exact .inl rfl

/-- Settles O18: the values are those of `FaultCause.recorded`, an engine step that sets `ERR` takes a listed fault, and every step is a
`CauseStep` (R166, R167). -/
theorem faultTable : Obligations.FaultTable := by
  refine ⟨rfl, rfl, rfl, rfl, rfl, rfl, rfl, rfl, rfl, rfl, rfl, fun s t i ht hs herr => ?_, fun s t ht => ?_⟩
  · obtain ⟨f, hf, rfl⟩ | hsame := exec_listed_or_sameRecord ht
    · exact ⟨f, hf.row, rfl, hf.cancelled, hf.zeroExponent⟩
    · exact absurd hsame (SameRecord.not_of_err hs herr)
  · obtain hsame | hclear | hfault := turnStep_causeStep ht
    · exact .inl (hsame.trans s.refill_cause)
    · exact .inr (.inl (hclear ▸ noCause_word))
    · exact .inr (.inr hfault)

end Sys2Proof.Machine
end

section
/-! Faults do not nest (R175): while `ERR` is set the engine is idle, and of the host's events only a reset and the clearing of `ERR` touch
the record. -/

namespace Sys2Proof.Machine

/-- While a fault is recorded no command runs (R39 item 2). -/
theorem State.Inv.idle_of_err {s : State} (h : s.Inv) (he : s.status.err = true) : s.eng = .idle := by
  rw [← State.busy_eq_false_iff, Bool.eq_false_iff]
  exact fun hb => Bool.false_ne_true ((h.err_of_busy hb).symm.trans he)

/-- While a fault is recorded a write that does not clear `ERR` leaves the record as it is (R175, R59). -/
theorem writeRegion_sameRecord_of_err {s : State} {g : Region} {v : Limb} (he : s.status.err = true)
    (hv : g = .status → v.getLsbD 2 = false) : SameRecord s (writeRegion s g v) := by
  cases g with
  | cmd =>
    rw [writeRegion, State.issue_of_not_free (.inr he)]
    exact ⟨rfl, rfl⟩
  | status =>
    rw [SameRecord, writeRegion, State.writeStatus_status, State.writeStatus_cause, hv rfl]
    simp
  | ctrl => exact ⟨by rw [writeRegion, State.writeCtrl_status], s.writeCtrl_cause v⟩
  | window i j => obtain e | e := writeWindow_cases s i j v <;> rw [writeRegion, e] <;> exact ⟨rfl, rfl⟩
  | _ => exact ⟨rfl, rfl⟩

/-- The same for a turn of any kind but a reset; the engine and the cursor stay as well. -/
theorem turnStep_sameRecord_of_err {s t : State} (he : s.status.err = true) (hidle : s.eng = .idle) (ht : turnStep s = .next t)
    (hreset : ∀ rest, s.inbox ≠ .reset :: rest)
    (hclear : ∀ addr size v rest, s.inbox = .write addr size v :: rest → locate s.params addr size = .found .status →
      v.getLsbD 2 = false) :
    SameRecord s t ∧ t.eng = s.eng ∧ t.rngpos = s.rngpos := by
  have idle {u : State} (hu : u.eng = .idle) (hx : engineStep u = .next t) : t = u :=
    (Host.Outcome.next.inj ((engineStep_of_idle hu).symm.trans hx)).symm
  obtain ⟨-, hx⟩ | ⟨_, _, rest, _, -, -, rfl⟩ | ⟨_, _, v, rest, region, hin, hl, rfl⟩ | ⟨rest, hin, -⟩ | ⟨rest, -, hx⟩ |
    ⟨rest, -, -, hx⟩ | ⟨rest, -, -, rfl⟩ := turnStep_cases ht
  · rw [idle hidle hx]
    exact ⟨⟨rfl, rfl⟩, rfl, rfl⟩
  · exact ⟨⟨rfl, rfl⟩, rfl, rfl⟩
  · have hpop : (s.popInbox rest).status.err = true := he
    obtain ⟨hrngpos, -, -⟩ := writeRegion_keeps (s.popInbox rest) region v
    exact ⟨writeRegion_sameRecord_of_err hpop fun e => hclear _ _ v rest hin (e ▸ hl), writeRegion_eng (.inr (.inr hpop)) v, hrngpos⟩
  · exact absurd hin (hreset rest)
  · rw [idle (u := s.popInbox rest) hidle hx]
    exact ⟨⟨rfl, rfl⟩, rfl, rfl⟩
  · rw [idle hidle hx]
    exact ⟨⟨rfl, rfl⟩, rfl, rfl⟩
  · exact ⟨⟨rfl, rfl⟩, rfl, rfl⟩

/-- Settles O21: under the invariant the engine is idle, so the turn keeps the record (R175). -/
theorem recordedFaultStays : Obligations.RecordedFaultStays := by
  intro s t h he ht hreset hclear
  have hidle : s.eng = .idle := h.idle_of_err he
  obtain ⟨⟨herr, hcause⟩, heng, hrngpos⟩ := turnStep_sameRecord_of_err (s := s.refill) (by simpa using he) (by simpa using hidle) ht hreset
    (by simpa using hclear)
  rw [State.refill_status] at herr
  exact ⟨herr.trans he, hcause.trans s.refill_cause, heng.trans (s.refill_eng.trans hidle), hrngpos.trans s.refill_rngpos⟩

end Sys2Proof.Machine
end

section
/-! Several blocks on one platform (R130, R182): a step of the platform is a step of one block and leaves the others as they were. -/

namespace Sys2Proof.Machine

theorem engineStep_params {s t : State} (ht : engineStep s = .next t) : t.params = s.params := by
  obtain ⟨-, rfl⟩ | ⟨r, i, -, -, hx⟩ | ⟨r, why, -, -, rfl⟩ := engineStep_cases ht
  · rfl
  · obtain ⟨-, hparams, -⟩ := exec_keeps hx
    exact hparams
  · rfl

theorem turnStep_params {s t : State} (ht : turnStep s = .next t) : t.params = s.params := by
  obtain ⟨-, hx⟩ | ⟨_, _, rest, _, -, -, rfl⟩ | ⟨_, _, v, rest, region, -, -, rfl⟩ | ⟨rest, -, rfl⟩ | ⟨rest, -, hx⟩ |
    ⟨rest, -, -, hx⟩ | ⟨rest, -, -, rfl⟩ := turnStep_cases ht
  · exact engineStep_params hx
  · rfl
  · obtain ⟨-, hparams, -⟩ := writeRegion_keeps (s.popInbox rest) region v
    exact hparams
  · rfl
  · exact engineStep_params (s := s.popInbox rest) hx
  · exact engineStep_params hx
  · rfl

/-- No step changes the parameters of the block (log 2). -/
theorem step_params {s t : State} (ht : step s = .next t) : t.params = s.params := (turnStep_params ht).trans s.refill_params

/-- What a step of block `k` can be: nothing where there is no such block, else a step of that block in its place (R182). -/
theorem platformStep_cases {q u : Platform} {k : Nat} (h : platformStep q k = .next u) :
    (q[k]? = none ∧ u = q) ∨ ∃ s t, q[k]? = some s ∧ step s = .next t ∧ u = q.set k t := by
  unfold platformStep at h
  cases hk : q[k]? with
  | none =>
    rw [hk] at h
    exact .inl ⟨rfl, (Host.Outcome.next.inj h).symm⟩
  | some s =>
    rw [hk] at h
    cases hs : step s with
    | next t =>
      simp only [hs, Host.Outcome.next.injEq] at h
      exact .inr ⟨s, t, rfl, hs, h.symm⟩
    | fault r => simp [hs] at h
    | refused r => simp [hs] at h

/-- A block keeps its number, so the numbers on the platform stay what they are (R130). -/
theorem map_blockId_set {q : Platform} {k : Nat} {s t : State} (hk : q[k]? = some s) (ht : t.params = s.params) :
    (q.set k t).map (fun s => s.params.blockId) = q.map (fun s => s.params.blockId) := by
  obtain ⟨hlt, rfl⟩ := List.getElem?_eq_some_iff.mp hk
  have hsame : t.params.blockId = (q.map fun s => s.params.blockId)[k]'(by simpa using hlt) := by rw [List.getElem_map, ht]
  rw [List.map_set, hsame, List.set_getElem_self]

/-- Settles O28: setting the one place of the list that moves leaves the others, and a step keeps the block's number (R130, R182). -/
theorem blocksShareNothing : Obligations.BlocksShareNothing := by
  intro q u k h
  obtain ⟨hk, rfl⟩ | ⟨s, t, hk, hs, rfl⟩ := platformStep_cases h
  · exact ⟨rfl, fun n _ => rfl, fun s hs => (nomatch hk.symm.trans hs), id⟩
  · have hlt : k < q.length := (List.getElem?_eq_some_iff.mp hk).1
    refine ⟨List.length_set, fun n hn => List.getElem?_set_ne hn.symm, fun s' hs' => ?_, fun hd => ?_⟩
    · obtain rfl : s = s' := Option.some.inj (hk.symm.trans hs')
      exact ⟨t, hs, List.getElem?_set_self hlt⟩
    · rwa [platformDistinct, map_blockId_set hk (step_params hs)]

end Sys2Proof.Machine
end

section
/-! Reset in any state (R190, R192): what it leaves, and that nothing else begins a new reset number. -/

namespace Sys2Proof.Machine

/-- A reset event leaves the reset state of the next reset number, the rest of the host's program kept (R190, R38). -/
theorem step_of_reset {s : State} {rest : List HostEvent} (h : s.inbox = .reset :: rest) :
    step s = .next (s.popInbox rest).assertReset := by
  rw [step_of_events h, hostStep]

theorem State.resetAt_statusWord (p : Params) (e : Nat) (old : List Operand) : (State.resetAt p e old).statusWord = 0 := rfl

theorem State.resetAt_ctrlWord (p : Params) (e : Nat) (old : List Operand) : (State.resetAt p e old).ctrlWord = 0 :=
  State.ctrlWord_eq_zero (Bool.and_false _)

/-- The engine never begins a new reset number: a command, a fault and an idle turn keep it (log 4). -/
theorem engineStep_epoch {s t : State} (ht : engineStep s = .next t) : t.epoch = s.epoch := by
  obtain ⟨-, rfl⟩ | ⟨r, i, -, -, hx⟩ | ⟨r, why, -, -, rfl⟩ := engineStep_cases ht
  · rfl
  · obtain ⟨-, -, hepoch, -⟩ := exec_keeps hx
    exact hepoch
  · rfl

/-- Of the turns only a reset begins a new reset number (log 4). -/
theorem turnStep_epoch {s t : State} (hreset : ∀ rest, s.inbox ≠ .reset :: rest) (ht : turnStep s = .next t) : t.epoch = s.epoch := by
  obtain ⟨-, hx⟩ | ⟨_, _, rest, _, -, -, rfl⟩ | ⟨_, _, v, rest, region, -, -, rfl⟩ | ⟨rest, hin, -⟩ | ⟨rest, -, hx⟩ |
    ⟨rest, -, -, hx⟩ | ⟨rest, -, -, rfl⟩ := turnStep_cases ht
  · exact engineStep_epoch hx
  · rfl
  · obtain ⟨-, -, hepoch⟩ := writeRegion_keeps (s.popInbox rest) region v
    exact hepoch
  · exact absurd hin (hreset rest)
  · exact engineStep_epoch (s := s.popInbox rest) hx
  · exact engineStep_epoch hx
  · rfl

/-- Settles O25: the step of a reset event, the views of the state it leaves, and the two frames: parameters and reset number (R190, R192, R38). -/
theorem resetFromAnyState : Obligations.ResetFromAnyState :=
  ⟨fun _ _ hin => step_of_reset hin,
    fun p e old => ⟨State.resetAt_statusWord p e old, noCause_word, State.resetAt_ctrlWord p e old, rfl, rfl⟩,
    fun s _ ht => ⟨step_params ht, fun hreset => (turnStep_epoch hreset ht).trans s.refill_epoch⟩⟩

end Sys2Proof.Machine
end

section
/-! Words of the spec and what they decode to: a command's own word, and a lemma for each reason to reject one (R75, R76). -/

namespace Sys2Proof

/-- The word of a command decodes to it (R71, R79). -/
theorem decode_of_encode_eq {w : CmdWord} {i : Instr} (h : encode i = w) : decode w = .command i :=
  h ▸ decode_encode i

theorem decode_of_unallocated {w : CmdWord} (h : Mnemonic.ofOpcode (fieldsOf w).op = none) :
    decode w = .illegal .unallocatedOpcode := by
  rw [decode, decodeFields, h]

/-- Once the opcode has picked the row `m`, the fields are checked in the order `z`, `rc`, `rb` (R75, R76). -/
theorem decode_of_opcode {w : CmdWord} {m : Mnemonic} (hop : (fieldsOf w).op = m.opcode) :
    decode w =
      if (fieldsOf w).zClear then
        if (fieldsOf w).rcClear m.format then
          if (fieldsOf w).rbClear m.format then .command (m.build (fieldsOf w)) else .illegal .nonzeroRb
        else .illegal .nonzeroRc
      else .illegal .nonzeroZ := by
  rw [decode, decodeFields, ofOpcode_eq_some_iff.mpr hop]

theorem decode_of_nonzeroZ {w : CmdWord} (m : Mnemonic) (hop : (fieldsOf w).op = m.opcode) (hz : (fieldsOf w).zClear = false) :
    decode w = .illegal .nonzeroZ := by
  simp [decode_of_opcode hop, hz]

theorem decode_of_nonzeroRc {w : CmdWord} (m : Mnemonic) (hop : (fieldsOf w).op = m.opcode) (hz : (fieldsOf w).zClear = true)
    (hrc : (fieldsOf w).rcClear m.format = false) : decode w = .illegal .nonzeroRc := by
  simp [decode_of_opcode hop, hz, hrc]

theorem decode_of_nonzeroRb {w : CmdWord} (m : Mnemonic) (hop : (fieldsOf w).op = m.opcode) (hz : (fieldsOf w).zClear = true)
    (hrc : (fieldsOf w).rcClear m.format = true) (hrb : (fieldsOf w).rbClear m.format = false) :
    decode w = .illegal .nonzeroRb := by
  simp [decode_of_opcode hop, hz, hrc, hrb]

/-- Settles O4: the commands' words are their encodings; of the reserved words four have no row, and each of the others names the row
its opcode picks and the field that must be zero there (R71, R75, R76). -/
theorem workedEncodingsDecode : Obligations.WorkedEncodingsDecode := by
  refine ⟨?commands, ?_, ?_, ?_, ?_, ?_, ?_, ?_, ?_⟩
  case commands => refine ⟨?_, ?_, ?_, ?_, ?_, ?_, ?_, ?_⟩ <;> exact decode_of_encode_eq (by decide)
  iterate 4 exact decode_of_unallocated (by decide)
  · exact decode_of_nonzeroZ .modmul (by decide) (by decide)
  · exact decode_of_nonzeroRc .randbits (by decide) (by decide) (by decide)
  · exact decode_of_nonzeroRc .genprime (by decide) (by decide) (by decide)
  · exact decode_of_nonzeroRb .randbits (by decide) (by decide) (by decide) (by decide)

end Sys2Proof
end
